-- ==== Sys2Proof/Word.lean ====
section
/-! DEFINITION. The word types of DPIPE (`00_scope.md` R5, `45_laws.md` R220): every quantity is unsigned, every
transfer is one byte. -/

namespace Sys2Proof

/-- One byte of the bus, the stream, the font ROM or the display data RAM; bit 7 is the most significant (R5, R50). -/
abbrev Byte := BitVec 8

/-- The unsigned 16-bit operand of ITOA (`ITOA_W` = 16, R4). -/
abbrev Word := BitVec 16

end Sys2Proof
end

