-- ==== Sys2Proof/Config.lean ====
section
/-! DEFINITION. The parameters of DPIPE (`00_scope.md` R4): the constants the source states, the record of OPEN
parameters a model takes as an argument, its validity, the suggested values, and the free values. -/

namespace Sys2Proof

/-! ## Constants the source states (R4) -/

/-- `SEAM` and `CHIP_COLS`: columns per chip, and the first logical column of chip 2. -/
def seam : Nat := 64
/-- `WIDTH`: logical columns 0..127. -/
def width : Nat := 128
/-- `NPAGE`: pages 0..7. -/
def npage : Nat := 8
/-- `PAGE_H`: pixel rows per page. -/
def pageH : Nat := 8
/-- `GLYPH_W`: columns per glyph. -/
def glyphW : Nat := 5
/-- `ADV`: cursor advance per character, `GLYPH_W + 1`. -/
def adv : Nat := 6
/-- `LABEL_PAGE`. -/
def labelPage : Byte := 0
/-- `LABEL_COL`. -/
def labelCol : Byte := 100
/-- `BAR_PAGE_A`; `BAR_PAGE_B` is the next page. -/
def barPageA : Byte := 5
/-- `BAR_MAX`: the largest legal bar height. -/
def barMax : Nat := 64
/-- `DIGIT0`, the character code of the digit 0 (decision D21; the value is general knowledge, G7: log entry 29). -/
def digit0 : Byte := 0x30

/-! ## The OPEN parameters -/

/-- The four OPEN times that a `DELAY` event names (R4, R181). -/
inductive TimeName where
  | tE | tRst | tSettle | tHold
deriving DecidableEq, Repr

/-- The one thing of an addressed chip that the race of a hardware reset with a high enable line may leave unspecified:
nothing, one of its registers, or one byte of its display data RAM (R193, U12). -/
inductive RaceTarget where
  | nothing | X | Y | Z | ON | byte
deriving DecidableEq, Repr, Inhabited

/-- One glyph of the font ROM: `GLYPH_W` = 5 column bytes, column 0 leftmost (`20_memory.md` R50, R52). -/
structure Glyph where
  c0 : Byte
  c1 : Byte
  c2 : Byte
  c3 : Byte
  c4 : Byte
deriving DecidableEq, Repr

/-- The OPEN parameters of R4 and the one literal of the source a model may set otherwise (`LABEL_ERASE_LEN`, C3).
`FONT_LEN` is `font.length`. Times are in nanoseconds, the frequency in hertz; no rule depends on them. -/
structure Config where
  firstCode : Byte
  lastCode : Byte
  blankIndex : Byte
  font : List Glyph
  setPageBase : Byte
  setColBase : Byte
  displayOnCmd : Byte
  startLineBase : Byte
  /-- The level that asserts a chip-select line. -/
  csActive : Bool
  /-- `COL_AFTER_63`: a column, or `none` for the setting `undefined`. -/
  colAfter63 : Option (BitVec 6)
  pixLsbTop : Bool
  tE : Nat
  tRst : Nat
  tSettle : Nat
  tHold : Nat
  fClk : Nat
  /-- The controller's minimum enable pulse width, the bound R200 and U11 put on `T_E`; no value in the source. -/
  eMin : Nat
  /-- `LABEL_ERASE_LEN`, at most what CNT's seven bits hold (R16, R221). -/
  labelEraseLen : BitVec 7
  barOn : Byte
  barOff : Byte
  barMark : Byte
deriving DecidableEq, Repr

/-- The length of a named time (R181). -/
def Config.time (c : Config) : TimeName → Nat
  | .tE => c.tE
  | .tRst => c.tRst
  | .tSettle => c.tSettle
  | .tHold => c.tHold

/-- The least number of block clock cycles a `DELAY(T)` takes, `ceil(T × F_CLK)` (R181). -/
def Config.delayCycles (c : Config) (t : TimeName) : Nat :=
  (c.time t * c.fClk + 999999999) / 1000000000

/-- The constraints of R4 on the four command bases: the operand bits are zero, and no byte is two commands of R47. -/
def Config.basesValid (c : Config) : Bool :=
  c.setPageBase &&& 0x07 == 0 && c.setColBase &&& 0x3F == 0 && c.startLineBase &&& 0x3F == 0 &&
  c.setPageBase &&& 0xC0 != c.setColBase && c.setPageBase &&& 0xC0 != c.startLineBase &&
  c.setColBase != c.startLineBase &&
  c.displayOnCmd &&& 0xF8 != c.setPageBase && c.displayOnCmd &&& 0xC0 != c.setColBase &&
  c.displayOnCmd &&& 0xC0 != c.startLineBase

/-- The constraints of R4 on the font: `FIRST_CODE <= LAST_CODE`, `FONT_LEN >= NGLYPH`, `BLANK_INDEX < FONT_LEN`, and
every index fits the eight bits of IDX (R16). -/
def Config.fontValid (c : Config) : Bool :=
  c.firstCode.toNat ≤ c.lastCode.toNat && c.lastCode.toNat - c.firstCode.toNat + 1 ≤ c.font.length &&
  c.blankIndex.toNat < c.font.length && c.font.length ≤ 256

/-- The configuration premise of R200 and U11, "T_E is large enough": positive, and at least the controller's minimum
pulse width. Where it fails no rule of the chip model holds. -/
def Config.pulseValid (c : Config) : Bool := 0 < c.tE && c.eMin ≤ c.tE

/-- The bounds on the times: `T_E` large enough (R200), `T_RST` and `T_SETTLE` at least 10 ms (R210). -/
def Config.timesValid (c : Config) : Bool :=
  c.pulseValid && 10000000 ≤ c.tRst && 10000000 ≤ c.tSettle

/-- An instance of the parameters that R4 admits. -/
def Config.valid (c : Config) : Bool :=
  c.basesValid && c.fontValid && c.timesValid

/-! ## Free values: no body, so that no proof can see one

Each is applied to a plain counter of State, so that every draw is a fresh value (log entries 3, 5, 6, 9, 11 to 14). -/

/-- DB7 at a sample for which the environment's list of levels holds no entry (R49). -/
opaque Config.drawBusy : Nat → Bool
/-- DB6..DB0 at a sample (U17). -/
opaque Config.drawLow : Nat → BitVec 7
/-- A page register whose value is unspecified (R31, U2, U8, U12). -/
opaque Config.drawPage : Nat → BitVec 3
/-- A column register whose value is unspecified, or the column of a data write while it is undefined (R31, R48). -/
opaque Config.drawCol : Nat → BitVec 6
/-- A start line register whose value is unspecified (R31, U8). -/
opaque Config.drawLine : Nat → BitVec 6
/-- A display-on bit whose value is unspecified (R31, U8). -/
opaque Config.drawOn : Nat → Bool
/-- A busy flag at a moment no rule speaks of (R31). -/
opaque Config.drawFlag : Nat → Bool
/-- Whether a chip latches in the race of a hardware reset with a high enable line (R193, U12). -/
opaque Config.drawLatched : Nat → Bool
/-- What that race leaves unspecified where the byte on the bus names no register or location (R193, U12). -/
opaque Config.drawRace : Nat → RaceTarget
/-- A byte that is unspecified: RBUF at and above RLEN (R163). -/
opaque Config.drawByte : Nat → Byte
/-- A byte of the font ROM that the spec does not give, or outside the ROM (R52, N2). -/
opaque Config.openFontByte : Nat → Nat → Byte

/-- `MemRead(FONT(idx, k), 1)` (R7, R52): one byte of the font ROM. -/
def Config.fontByte (c : Config) (idx k : Nat) : Byte :=
  match c.font[idx]? with
  | none => Config.openFontByte idx k
  | some g =>
    match k with
    | 0 => g.c0
    | 1 => g.c1
    | 2 => g.c2
    | 3 => g.c3
    | 4 => g.c4
    | k + 5 => Config.openFontByte idx (k + 5)

/-! ## The suggested values (configuration EX of `95_test_vectors.md` section 0; PRESUMED, log entries 2 and 3) -/

/-- The glyph of a character code in the suggested font: EXFONT where the spec lists the character, free bytes
elsewhere. -/
def Config.suggestedGlyph (code : Nat) : Glyph :=
  match code with
  | 0x20 => ⟨0x00, 0x00, 0x00, 0x00, 0x00⟩
  | 0x25 => ⟨0x23, 0x13, 0x08, 0x64, 0x62⟩
  | 0x30 => ⟨0x3E, 0x51, 0x49, 0x45, 0x3E⟩
  | 0x31 => ⟨0x00, 0x42, 0x7F, 0x40, 0x00⟩
  | 0x32 => ⟨0x42, 0x61, 0x51, 0x49, 0x46⟩
  | 0x33 => ⟨0x21, 0x41, 0x45, 0x4B, 0x31⟩
  | 0x34 => ⟨0x18, 0x14, 0x12, 0x7F, 0x10⟩
  | 0x35 => ⟨0x27, 0x45, 0x45, 0x45, 0x39⟩
  | 0x36 => ⟨0x3C, 0x4A, 0x49, 0x49, 0x30⟩
  | 0x37 => ⟨0x01, 0x71, 0x09, 0x05, 0x03⟩
  | 0x38 => ⟨0x36, 0x49, 0x49, 0x49, 0x36⟩
  | 0x39 => ⟨0x06, 0x49, 0x49, 0x29, 0x1E⟩
  | 0x41 => ⟨0x7E, 0x11, 0x11, 0x11, 0x7E⟩
  | 0x42 => ⟨0x7F, 0x49, 0x49, 0x49, 0x36⟩
  | 0x43 => ⟨0x3E, 0x41, 0x41, 0x41, 0x22⟩
  | 0x4B => ⟨0x7F, 0x08, 0x14, 0x22, 0x41⟩
  | 0x4F => ⟨0x3E, 0x41, 0x41, 0x41, 0x3E⟩
  | n => ⟨Config.openFontByte (n - 0x20) 0, Config.openFontByte (n - 0x20) 1, Config.openFontByte (n - 0x20) 2,
          Config.openFontByte (n - 0x20) 3, Config.openFontByte (n - 0x20) 4⟩

/-- The suggested values of R4. The five times have none: 1 µs, 10 ms, 10 ms, 1 s at 8 MHz, minimum 450 ns stand for
them (DESIGN CHOICE, log entry 2; no rule depends on them). -/
def Config.suggested : Config where
  firstCode := 0x20
  lastCode := 0x7E
  blankIndex := 0
  font := (List.range 95).map fun i => Config.suggestedGlyph (0x20 + i)
  setPageBase := 0xB8
  setColBase := 0x40
  displayOnCmd := 0x3F
  startLineBase := 0xC0
  csActive := true
  colAfter63 := some 0
  pixLsbTop := true
  tE := 1000
  tRst := 10000000
  tSettle := 10000000
  tHold := 1000000000
  fClk := 8000000
  eMin := 450
  labelEraseLen := 100
  barOn := 0xFF
  barOff := 0x00
  barMark := 0xFF

end Sys2Proof
end

