-- ==== Sys2Proof/Syntax.lean ====
section
/-! DEFINITION. The operations of DPIPE: one constructor for each row of `spec/opcode_table.json` (R72, R78, R165). -/

namespace Sys2Proof

/-- The operations. The eleven host operations and RESERVED are read from the host command stream (R72); the four
`lcd` commands are read by a controller chip from the bus (R78). WSTR and WPCT hold the operands that are fetched
before the operation begins; their text is fetched byte by byte while it runs (R70, R142) and stands in `Operation`. -/
inductive Instr where
  /-- INIT, format H0 (R160). -/
  | init
  /-- CLEAR, format H0 (R140). -/
  | clear
  /-- GOTO page, column, format H2 (R121). -/
  | goto (page column : Byte)
  /-- WCHAR page, column, ch, format H3 (R130). -/
  | wchar (page column ch : Byte)
  /-- WSTR page, column, len, then len text bytes, format HS (R142). -/
  | wstr (page column len : Byte)
  /-- WPCT len, then len text bytes, format HT (R146). -/
  | wpct (len : Byte)
  /-- BAR height, format H1 (R148). -/
  | bar (height : Byte)
  /-- ITOA value, low byte first, format HW (R75, R163). -/
  | itoa (value : Word)
  /-- SELCHIP id, format H1 (R102). -/
  | selchip (id : Byte)
  /-- WCMD byte, format H1 (R103). -/
  | wcmd (byte : Byte)
  /-- WDATA byte, format H1 (R104). -/
  | wdata (byte : Byte)
  /-- RESERVED: an opcode byte of no row of R72 (R80, R165). -/
  | reserved (opcode : Byte)
  /-- LCD_SET_PAGE: a chip's page register (R47, R78). -/
  | lcdSetPage (page : BitVec 3)
  /-- LCD_SET_COL: a chip's column register (R47, R78). -/
  | lcdSetCol (lcol : BitVec 6)
  /-- LCD_DISPLAY_ON: a chip's display-on bit (R47, R78). -/
  | lcdDisplayOn
  /-- LCD_START_LINE: a chip's start line register (R47, R78). -/
  | lcdStartLine (line : BitVec 6)
deriving DecidableEq, Repr

/-- The four controller commands by themselves, as a chip decodes them (R47). -/
inductive Command where
  | setPage (page : BitVec 3)
  | setCol (lcol : BitVec 6)
  | startLine (line : BitVec 6)
  | displayOn
deriving DecidableEq, Repr

/-- The row of the opcode table a controller command is. -/
def Command.toInstr : Command → Instr
  | .setPage p => .lcdSetPage p
  | .setCol l => .lcdSetCol l
  | .startLine z => .lcdStartLine z
  | .displayOn => .lcdDisplayOn

/-- One whole operation of the host command stream: its fetched operands and its text payload (R71, R76). -/
structure Operation where
  instr : Instr
  text : List Byte
deriving DecidableEq, Repr

/-- The number of text bytes that follow an operation's operands in the stream (R71, R76). -/
def Instr.textLen : Instr → Nat
  | .wstr _ _ len => len.toNat
  | .wpct len => len.toNat
  | _ => 0

/-- Whether a row belongs to the host command stream, and not to the controller bus. -/
def Instr.isHost : Instr → Bool
  | .lcdSetPage _ => false
  | .lcdSetCol _ => false
  | .lcdDisplayOn => false
  | .lcdStartLine _ => false
  | _ => true

end Sys2Proof
end

