-- ==== Sys2Proof/WellFormed.lean ====
section
/-! DEFINITION. Well-formed operations: the checks that the types of `Instr` do not make by themselves. -/

namespace Sys2Proof

/-- The opcode values of R72; every other byte is RESERVED (R80). -/
def hostOpcodes : List Nat := [0x01, 0x02, 0x03, 0x04, 0x05, 0x06, 0x07, 0x08, 0x10, 0x11, 0x12]

/-- Whether a byte is an opcode of R72. -/
def isHostOpcode (b : Byte) : Bool := hostOpcodes.contains b.toNat

/-- RESERVED holds a byte that no row of R72 has. Every value of every other operand is legal as an encoding (R74, R81). -/
def Instr.wf : Instr → Bool
  | .reserved op => !isHostOpcode op
  | _ => true

/-- A whole operation of the stream: a host operation with exactly as many text bytes as its length byte says (R71). -/
def Operation.wf (o : Operation) : Bool :=
  o.instr.wf && o.instr.isHost && o.text.length == o.instr.textLen

end Sys2Proof
end

