-- ==== Sys2Proof/Decode.lean ====
section
/-! DEFINITION. The two decoders of `30_encoding.md` (the host command stream, R70 to R77 and R80; the controller
command byte, R47 and R78) and, after them, the encoders. -/

namespace Sys2Proof

/-- Why no operation is read from the bytes at hand: none is there, or operand bytes of one are still to come. The
sequencer waits in `Next()` in both cases (R70, R77). -/
inductive DecodeReject where
  | noByte
  | operandsMissing (opcode : Byte)
deriving DecidableEq, Repr

/-- Reads one operation's opcode and operand bytes from the front of the stream (R72, R73, R75). -/
def decode : List Byte → Except DecodeReject (Instr × List Byte)
  | [] => .error .noByte
  | op :: rest =>
    match op.toNat, rest with
    | 0x01, rest => .ok (.init, rest)
    | 0x02, rest => .ok (.clear, rest)
    | 0x03, page :: column :: rest => .ok (.goto page column, rest)
    | 0x03, _ => .error (.operandsMissing op)
    | 0x04, page :: column :: ch :: rest => .ok (.wchar page column ch, rest)
    | 0x04, _ => .error (.operandsMissing op)
    | 0x05, page :: column :: len :: rest => .ok (.wstr page column len, rest)
    | 0x05, _ => .error (.operandsMissing op)
    | 0x06, len :: rest => .ok (.wpct len, rest)
    | 0x06, _ => .error (.operandsMissing op)
    | 0x07, height :: rest => .ok (.bar height, rest)
    | 0x07, _ => .error (.operandsMissing op)
    | 0x08, lo :: hi :: rest => .ok (.itoa (hi ++ lo), rest)
    | 0x08, _ => .error (.operandsMissing op)
    | 0x10, id :: rest => .ok (.selchip id, rest)
    | 0x10, _ => .error (.operandsMissing op)
    | 0x11, byte :: rest => .ok (.wcmd byte, rest)
    | 0x11, _ => .error (.operandsMissing op)
    | 0x12, byte :: rest => .ok (.wdata byte, rest)
    | 0x12, _ => .error (.operandsMissing op)
    | _, rest => .ok (.reserved op, rest)

/-- Reads one whole operation, text payload included (R71, R76). -/
def decodeOperation (bytes : List Byte) : Option (Operation × List Byte) :=
  match decode bytes with
  | .error _ => none
  | .ok (i, rest) =>
    if rest.length < i.textLen then none
    else some (⟨i, rest.take i.textLen⟩, rest.drop i.textLen)

/-- At most `fuel` whole operations from the front of the stream, and the bytes left over. -/
def decodeStreamAux : Nat → List Byte → List Operation × List Byte
  | 0, bytes => ([], bytes)
  | fuel + 1, bytes =>
    match decodeOperation bytes with
    | none => ([], bytes)
    | some (o, rest) => (o :: (decodeStreamAux fuel rest).1, (decodeStreamAux fuel rest).2)

/-- R77: any byte sequence is a sequence of whole operations, then possibly the bytes of an incomplete one. -/
def decodeStream (bytes : List Byte) : List Operation × List Byte :=
  decodeStreamAux bytes.length bytes

/-- R47: the command a controller chip reads from a byte latched with RS low; `none` where the effect is unspecified. -/
def decodeCommand (cfg : Config) (b : Byte) : Option Command :=
  if b &&& 0xF8 = cfg.setPageBase then some (.setPage (b.extractLsb' 0 3))
  else if b &&& 0xC0 = cfg.setColBase then some (.setCol (b.extractLsb' 0 6))
  else if b &&& 0xC0 = cfg.startLineBase then some (.startLine (b.extractLsb' 0 6))
  else if b = cfg.displayOnCmd then some .displayOn
  else none

/-- Byte `k` of an instruction whose bits are `w`, bit 0 the least significant of the first byte; bits at and above
`nbits` are zero. -/
def tableByte (nbits w k : Nat) : Byte := BitVec.ofNat 8 (w % 2 ^ nbits / 256 ^ k)

/-- The first four bytes of such an instruction: as many as the longest opcode and operands have (R73). -/
def tableBytes (nbits w : Nat) : List Byte := (List.range 4).map (tableByte nbits w)

/-- The table row a word belongs to. The table has two spaces. A first byte that is a host opcode is read by the stream
decoder; one that is not is a controller command if the chip's decoder, with the table's own (suggested) bases, reads
one, and else RESERVED, which the table defines by exclusion (log entry 22). -/
def decodeTableWord (nbits w : Nat) : Option Instr :=
  let stream := (decode (tableBytes nbits w)).toOption.map Prod.fst
  if isHostOpcode (tableByte nbits w 0) then stream
  else
    match decodeCommand Config.suggested (tableByte nbits w 0) with
    | some c => some c.toInstr
    | none => stream

/-! ## Encoders -/

/-- R78, R79: the byte of a controller command, the operand OR'd into its base. -/
def encodeCommand (cfg : Config) : Command → Byte
  | .setPage p => cfg.setPageBase ||| p.setWidth 8
  | .setCol l => cfg.setColBase ||| l.setWidth 8
  | .startLine z => cfg.startLineBase ||| z.setWidth 8
  | .displayOn => cfg.displayOnCmd

/-- R72, R73, R75, R78: the opcode and operand bytes of an operation, in stream order; for a controller command its one
bus byte. -/
def encode (cfg : Config) : Instr → List Byte
  | .init => [0x01]
  | .clear => [0x02]
  | .goto page column => [0x03, page, column]
  | .wchar page column ch => [0x04, page, column, ch]
  | .wstr page column len => [0x05, page, column, len]
  | .wpct len => [0x06, len]
  | .bar height => [0x07, height]
  | .itoa value => [0x08, value.extractLsb' 0 8, value.extractLsb' 8 8]
  | .selchip id => [0x10, id]
  | .wcmd byte => [0x11, byte]
  | .wdata byte => [0x12, byte]
  | .reserved opcode => [opcode]
  | .lcdSetPage p => [encodeCommand cfg (.setPage p)]
  | .lcdSetCol l => [encodeCommand cfg (.setCol l)]
  | .lcdDisplayOn => [encodeCommand cfg .displayOn]
  | .lcdStartLine z => [encodeCommand cfg (.startLine z)]

/-- R71: the bytes of a whole operation. -/
def encodeOperation (cfg : Config) (o : Operation) : List Byte := encode cfg o.instr ++ o.text

end Sys2Proof
end

