-- ==== Sys2Proof/Machine/State.lean ====
section
/-! DEFINITION. The state of the whole machine (`10_state.md`, and the chips of `20_memory.md` R44), its reset value,
and the reasons a step can stop. State is plain data. -/

namespace Sys2Proof.Machine

/-! ## Pins and pin events -/

/-- The six control lines of R8 and R12. -/
inductive PinName where
  | RS | RW | E | CS1 | CS2 | RSTN
deriving DecidableEq, Repr

/-- One entry of the pin trace (R8, R9, R82). -/
inductive PinEvent where
  /-- `DIR(DB, out)` for true, `DIR(DB, in)` for false. -/
  | dir (out : Bool)
  /-- `DBW(v)`. -/
  | dbw (v : Byte)
  /-- `PIN(n, l)`. -/
  | pin (n : PinName) (l : Bool)
  /-- `b <- RD7()`. -/
  | rd7 (b : Bool)
  /-- `DELAY(T)`. -/
  | delay (t : TimeName)
deriving DecidableEq, Repr

/-- The eight pin registers of R12; true is level 1. -/
structure Pins where
  DBOUT : Byte
  DBDIR : Bool
  RS : Bool
  RW : Bool
  E : Bool
  CS1 : Bool
  CS2 : Bool
  RSTN : Bool
deriving DecidableEq, Repr

/-- R30: the pin levels after hardware reset. -/
def Pins.reset (cfg : Config) : Pins where
  DBOUT := 0x00
  DBDIR := false
  RS := false
  RW := false
  E := false
  CS1 := !cfg.csActive
  CS2 := !cfg.csActive
  RSTN := true

/-! ## Sequencer -/

/-- The bus-layer state of R13. -/
inductive Fsm where
  | idle | selecting | busyPoll | commandWrite | dataWrite
deriving DecidableEq, Repr

/-- The operand latches of R15. -/
structure Latches where
  OPC : Byte
  PG : Byte
  COLR : Byte
  CH : Byte
  LEN : Byte
  HT : Byte
  ID : Byte
  BY : Byte
  VAL : Word
deriving DecidableEq, Repr

/-- The value of the latches after reset, which R30 leaves unspecified (DESIGN CHOICE, log entry 10). -/
def Latches.reset : Latches := ⟨0, 0, 0, 0, 0, 0, 0, 0, 0⟩

/-- One operand byte's destination (R74, R75). -/
inductive Operand where
  | PG | COLR | CH | LEN | HT | ID | BY | VALlo | VALhi
deriving DecidableEq, Repr

/-- The working registers of R16. -/
structure Work where
  CUR : BitVec 9
  TI : BitVec 8
  STOP : Bool
  CHIPID : BitVec 2
  LCOL : BitVec 6
  IDX : BitVec 8
  K : BitVec 3
  CNT : BitVec 7
  PGI : BitVec 4
  HALF : BitVec 2
  ROW : BitVec 2
  SAMP : Bool
  Q : BitVec 16
deriving DecidableEq, Repr

/-- The value of the working registers after reset, which R30 leaves unspecified (DESIGN CHOICE, log entry 10). -/
def Work.reset : Work := ⟨0, 0, false, 0, 0, 0, 0, 0, 0, 0, 0, false, 0⟩

/-- What the sequencer does next: the steps of the pseudocode of `40_bus_protocol.md` to `44_system.md`. The list of
them in `State.todo` is the position inside the operation in progress (R14 (b)). -/
inductive Act where
  /-- The pin events `DIR`, `DBW`, `PIN`, `RD7` and `DELAY` (R82). -/
  | dir (out : Bool)
  | dbw (v : Byte)
  | pin (n : PinName) (l : Bool)
  | rd7
  | delay (t : TimeName)
  /-- Register transfers without a pin event: FSM, the loop counters K, PGI, HALF, ROW, and `DIAG <- 0`. -/
  | fsm (f : Fsm)
  | setK (k : BitVec 3)
  | setPgi (p : BitVec 4)
  | setHalf (h : BitVec 2)
  | setRow (r : BitVec 2)
  | clearDiag
  /-- `Next()` into an operand latch (R70, R71). -/
  | fetch (o : Operand)
  /-- The operation the latches hold, once its operands are fetched (R71). -/
  | dispatch
  /-- BUSYWAIT and, from inside it, the poll loop of step 4 (R101). -/
  | busyWait
  | poll
  /-- SELCHIP, WCMD, WDATA (R102 to R104). -/
  | selChip (id : Byte)
  | wcmd (byte : Byte)
  | wdata (byte : Byte)
  /-- GOTO (R121). -/
  | goTo (page column : Byte)
  /-- WCHAR, and the data write of the glyph column that IDX and K name (R130). -/
  | wchar (page column ch : Byte)
  | glyphCol
  /-- `repeat n: WDATA(b)` (R8). -/
  | fill (n : Nat) (b : Byte)
  /-- CLEAR (R140). -/
  | clear
  /-- STRING; its loop with `n` text bytes left; steps 2e and 2f of it (R142). -/
  | string (page column : Byte) (n : Nat)
  | chars (page : Byte) (n : Nat)
  | advance
  /-- BAR and BARROW (R148). -/
  | bar (height : Byte)
  | barRow (page base height : Byte)
  /-- ITOA (R163) and RESERVED (R165). -/
  | itoa (value : Word)
  | badCmd
  /-- The end of the operation: `RUN <- 0` (R71). -/
  | finish
deriving DecidableEq, Repr

/-! ## The two controller chips (R44) -/

/-- The ids of the chips (`NCHIP` = 2; ids 1 and 2 only, R42). -/
inductive ChipId where
  | chip1 | chip2
deriving DecidableEq, Repr

/-- The registers of one chip (R44). `Y` is `none` in the chip's own state `undefined` (R48). -/
structure Chip where
  X : BitVec 3
  Y : Option (BitVec 6)
  Z : BitVec 6
  ON : Bool
  BUSY : Bool
deriving DecidableEq, Repr

/-- R31: a chip whose registers are unspecified, each a fresh free value (log entry 9). -/
def Chip.unspecified (n : Nat) : Chip where
  X := Config.drawPage n
  Y := some (Config.drawCol n)
  Z := Config.drawLine n
  ON := Config.drawOn n
  BUSY := Config.drawFlag n

/-- Display data RAM: the bytes whose value is specified, by rising key (log entries 7 and 8). -/
abbrev Memory := List Host.Cell

/-! ## The state -/

/-- The state of the machine. The inventory lists each field's rule. -/
structure State where
  /-- The parameters of R4; no step writes them (log entry 1). -/
  cfg : Config
  /-- The pin registers (R12). -/
  pins : Pins
  /-- The levels of DB7..DB0 at the last sample (R12, R82; log entry 6). -/
  DBIN : Byte
  FSM : Fsm
  /-- The stream position (R14 (a)). -/
  SP : Nat
  RUN : Bool
  /-- The position inside the operation in progress (R14 (b)), first act first. -/
  todo : List Act
  lat : Latches
  work : Work
  /-- DIAG[3:0] (R18). -/
  DIAG : BitVec 4
  RBUF : Vector Byte 5
  RLEN : BitVec 3
  chip1 : Chip
  chip2 : Chip
  /-- Display data RAM of both chips (R41). -/
  ram : Memory
  /-- The host command stream: every byte the host has offered since reset (R40, R70). -/
  stream : List Byte
  /-- The hardware reset input; true is high, not asserted (R21, R30). -/
  rst_n : Bool
  /-- Input: the levels DB7 shows at the next samples, first first (R11 (e), R49; log entry 5). -/
  db7 : List Bool
  /-- The model's own: samples taken so far, the index of the next free bus level (log entries 5 and 6). -/
  sampled : Nat
  /-- The model's own: the index of the next free chip or buffer value (log entry 32). -/
  draws : Nat
  /-- The pin trace since hardware reset, newest event first (R9; log entry 26). -/
  trace : List PinEvent
deriving DecidableEq, Repr

/-- R30 to R32: the machine after power-on and hardware reset, with the suggested parameters. The chips are
unspecified (R31); nothing has been offered by the host or sampled from the bus. -/
def State.reset : State where
  cfg := Config.suggested
  pins := Pins.reset Config.suggested
  DBIN := 0
  FSM := .idle
  SP := 0
  RUN := false
  todo := []
  lat := Latches.reset
  work := Work.reset
  DIAG := 0
  RBUF := #v[0, 0, 0, 0, 0]
  RLEN := 0
  chip1 := Chip.unspecified 0
  chip2 := Chip.unspecified 1
  ram := []
  stream := []
  rst_n := true
  db7 := []
  sampled := 0
  draws := 2
  trace := []

/-! ## The reasons a step can stop -/

/-- Faults. No run from reset meets one (`60_exceptions.md` R170); each guards a state that DPIPE never makes. -/
inductive Fault where
  /-- A byte is latched, or DB7 sampled, while both chip-select lines are asserted. Raised by the falling edge of a
  write pulse, by RD7 and by a controller command. What the chips do is unspecified; U9 asks for a fault. Safe. -/
  | bothChipsAddressed
  /-- RD7 while DBDIR = 1: R82 says it is legal only while DBDIR = 0, and the stop is the model's own choice (DESIGN CHOICE,
  log entry 16). Raised by RD7. Safe. -/
  | sampleWhileDriving
deriving DecidableEq, Repr

/-- Refusals. -/
inductive Refusal where
  /-- An operation that has no meaning in the model yet; raised by exec's arm alone. Safe. -/
  | notModelled (mnemonic : String)
  /-- A chip is to act on an enable pulse, latching a byte or answering a status read, and T_E is below the controller's
  minimum pulse width: no rule of the chip model holds then (R200), and U11 says "refuse". Raised by the falling edge of a
  write pulse, by RD7 and by a controller command, where one chip is addressed. Safe. -/
  | enablePulseTooShort
deriving DecidableEq, Repr

/-- What a step answers. -/
abbrev Out := Host.Outcome State Fault Refusal

end Sys2Proof.Machine
end

