-- ==== Sys2Proof/Machine/Flags.lean ====
section
/-! DEFINITION. The diagnostic register DIAG (`10_state.md` R18, `60_exceptions.md` R171 to R173). DPIPE has no other
flag and no condition codes (R220). -/

namespace Sys2Proof.Machine

/-- The four conditions of R171 and R172. -/
inductive DiagBit where
  | COORD | CHSUB | TRUNC | BADCMD
deriving DecidableEq, Repr

/-- The bit number of a condition (R18). -/
def DiagBit.index : DiagBit → Nat
  | .COORD => 0
  | .CHSUB => 1
  | .TRUNC => 2
  | .BADCMD => 3

/-- A value of DIAG with the bit of a condition set; the bits are sticky (R18). -/
def raise (b : DiagBit) (diag : BitVec 4) : BitVec 4 := diag ||| BitVec.twoPow 4 b.index

/-- Whether a condition is recorded. -/
def raised (b : DiagBit) (diag : BitVec 4) : Bool := diag.getLsbD b.index

/-- A value of DIAG with the bit set if the condition holds. -/
def raiseIf (c : Bool) (b : DiagBit) (diag : BitVec 4) : BitVec 4 := if c then raise b diag else diag

end Sys2Proof.Machine
end

