-- ==== Sys2Proof/Machine/Memory.lean ====
section
/-! DEFINITION. Display data RAM (`20_memory.md` R40, R41): the key of a byte, reading and writing one, and the canonical
form. A byte that nothing has written has no value (R31, U2; log entry 7). -/

namespace Sys2Proof.Machine

/-- The chip's place in the RAM's keys. -/
def ChipId.index : ChipId → Nat
  | .chip1 => 0
  | .chip2 => 1

/-- The key of `DDRAM(chip, page, lcol)`: chip, page and column in the order of R41 (log entry 8). -/
def ddramKey (k : ChipId) (page : BitVec 3) (lcol : BitVec 6) : Nat :=
  512 * k.index + 64 * page.toNat + lcol.toNat

/-- The number of bytes of display data RAM (R40). -/
def ddramSize : Nat := 1024

/-- The byte at a key; `none` where it is unspecified. -/
def Memory.read : Memory → Nat → Option Byte
  | [], _ => none
  | (a, v) :: m, b => if a = b then some v else Memory.read m b

/-- `MemWrite` of one byte (R7). -/
def Memory.write : Memory → Nat → Byte → Memory
  | [], a, v => [(a, v)]
  | (b, w) :: m, a, v =>
    if a < b then (a, v) :: (b, w) :: m
    else if a = b then (a, v) :: m
    else (b, w) :: Memory.write m a v

/-- The byte at a key becomes unspecified. -/
def Memory.forget (m : Memory) (a : Nat) : Memory := m.filter fun c => c.1 != a

/-- All 512 bytes of one chip become unspecified. -/
def Memory.forgetChip (m : Memory) (k : ChipId) : Memory := m.filter fun c => c.1 / 512 != k.index

/-- The canonical form: keys strictly rising and inside the RAM. An unlisted byte has no value, so no entry can equal
what an unlisted key reads as. -/
def Memory.wf : Memory → Bool
  | [] => true
  | [(a, _)] => a < ddramSize
  | (a, _) :: (b, w) :: m => a < b && Memory.wf ((b, w) :: m)

end Sys2Proof.Machine
end

