-- ==== Sys2Proof/Machine/Operands.lean ====
section
/-! DEFINITION. Operand forms: the address translation, the glyph index, the assembly of command bytes, the text of a
number, and the operand latches. -/

namespace Sys2Proof.Machine

/-! ## Addressing (`41_addressing.md`) -/

/-- R121: the test GOTO makes before any pin event. -/
def coordsValid (page column : Byte) : Bool := page.toNat < npage && column.toNat < width

/-- R120: the chip of a logical column. -/
def chipOf (column : Byte) : ChipId := if column.toNat < seam then .chip1 else .chip2

/-- R120: the local column of a logical column. -/
def lcolOf (column : Byte) : BitVec 6 :=
  if column.toNat < seam then column.setWidth 6 else (column - 64).setWidth 6

/-- The id operand that selects a chip (R102). -/
def ChipId.id : ChipId → Byte
  | .chip1 => 1
  | .chip2 => 2

/-- R122: the "set page" byte. -/
def setPageByte (cfg : Config) (page : Byte) : Byte := cfg.setPageBase ||| page

/-- R122: the "set column" byte. -/
def setColByte (cfg : Config) (lcol : BitVec 6) : Byte := cfg.setColBase ||| lcol.setWidth 8

/-- R160: the "set start line" byte for line 0. -/
def startLineByte (cfg : Config) : Byte := cfg.startLineBase ||| 0

/-! ## Glyphs and strings (`42_glyph.md`, `43_drawing.md`) -/

/-- R131: whether a character code is in the supported inclusive range. -/
def supported (cfg : Config) (ch : Byte) : Bool :=
  cfg.firstCode.toNat ≤ ch.toNat && ch.toNat ≤ cfg.lastCode.toNat

/-- R131: the glyph-table index of a character code. -/
def glyphIndex (cfg : Config) (ch : Byte) : Byte :=
  if supported cfg ch then ch - cfg.firstCode else cfg.blankIndex

/-- R143: the seam rule, applied before a character is placed. -/
def seamSnap (cur : BitVec 9) : BitVec 9 :=
  if cur.toNat < seam ∧ seam < cur.toNat + adv then BitVec.ofNat 9 seam else cur

/-- R142 step 2e: the nine-bit cursor after a character. -/
def cursorAdvance (cur : BitVec 9) : BitVec 9 := cur + BitVec.ofNat 9 adv

/-- R144: the stop rule, applied after a character is placed. -/
def pastEdge (cur : BitVec 9) : Bool := width ≤ cur.toNat

/-! ## Numbers (`44_system.md`) -/

/-- The digits of R162 with at most `fuel` of them. -/
def decimalAux : Nat → Nat → List Byte
  | 0, _ => []
  | fuel + 1, v =>
    if v < 10 then [digit0 + BitVec.ofNat 8 v]
    else decimalAux fuel (v / 10) ++ [digit0 + BitVec.ofNat 8 (v % 10)]

/-- R162: the character codes of a number in base ten; a 16-bit number has at most five digits. -/
def decimal (v : Nat) : List Byte := decimalAux 5 v

/-! ## Latches (`10_state.md` R15, `30_encoding.md` R74, R75) -/

/-- An operand byte copied unchanged into its latch. -/
def Latches.put (l : Latches) (o : Operand) (b : Byte) : Latches :=
  match o with
  | .PG => { l with PG := b }
  | .COLR => { l with COLR := b }
  | .CH => { l with CH := b }
  | .LEN => { l with LEN := b }
  | .HT => { l with HT := b }
  | .ID => { l with ID := b }
  | .BY => { l with BY := b }
  | .VALlo => { l with VAL := l.VAL.extractLsb' 8 8 ++ b }
  | .VALhi => { l with VAL := b ++ l.VAL.extractLsb' 0 8 }

/-- R72: the operand bytes of an opcode, in stream order. -/
def operandsOf (opcode : Byte) : List Operand :=
  match opcode.toNat with
  | 0x03 => [.PG, .COLR]
  | 0x04 => [.PG, .COLR, .CH]
  | 0x05 => [.PG, .COLR, .LEN]
  | 0x06 => [.LEN]
  | 0x07 => [.HT]
  | 0x08 => [.VALlo, .VALhi]
  | 0x10 => [.ID]
  | 0x11 => [.BY]
  | 0x12 => [.BY]
  | _ => []

/-- The operation that OPC and the operand latches hold once its operands are fetched (R71, R72). -/
def Latches.instr (l : Latches) : Instr :=
  match l.OPC.toNat with
  | 0x01 => .init
  | 0x02 => .clear
  | 0x03 => .goto l.PG l.COLR
  | 0x04 => .wchar l.PG l.COLR l.CH
  | 0x05 => .wstr l.PG l.COLR l.LEN
  | 0x06 => .wpct l.LEN
  | 0x07 => .bar l.HT
  | 0x08 => .itoa l.VAL
  | 0x10 => .selchip l.ID
  | 0x11 => .wcmd l.BY
  | 0x12 => .wdata l.BY
  | _ => .reserved l.OPC

end Sys2Proof.Machine
end

