-- ==== Sys2Proof/Machine/Ops.lean ====
section
/-! DEFINITION. The named operations over registers, chips and display data RAM: updates of State, the addressed chip,
what a chip does with a byte, the two resets. DPIPE raises no exception and takes no trap (`60_exceptions.md` R170,
R178, R179), so there is no exception entry and no return from one here. -/

namespace Sys2Proof.Machine

/-! ## Registers -/

/-- `DIAG.b <- 1` (R18). -/
def State.setDiag (s : State) (b : DiagBit) : State := { s with DIAG := raise b s.DIAG }

/-- Appends an event to the pin trace (R9). -/
def State.record (s : State) (e : PinEvent) : State := { s with trace := e :: s.trace }

/-- The level of a control line. -/
def Pins.get (p : Pins) : PinName → Bool
  | .RS => p.RS
  | .RW => p.RW
  | .E => p.E
  | .CS1 => p.CS1
  | .CS2 => p.CS2
  | .RSTN => p.RSTN

/-- `n <- l` (R82). -/
def Pins.set (p : Pins) (n : PinName) (l : Bool) : Pins :=
  match n with
  | .RS => { p with RS := l }
  | .RW => { p with RW := l }
  | .E => { p with E := l }
  | .CS1 => { p with CS1 := l }
  | .CS2 => { p with CS2 := l }
  | .RSTN => { p with RSTN := l }

/-- Runs a procedure's steps before what is left to do (R8: a call). -/
def State.call (s : State) (body : List Act) : State := { s with todo := body ++ s.todo }

/-- The next byte of the host command stream, if the host has supplied it (R70). -/
def State.nextByte (s : State) : Option Byte := s.stream[s.SP]?

/-! ## The chips -/

/-- The registers of a chip. -/
def State.chip (s : State) : ChipId → Chip
  | .chip1 => s.chip1
  | .chip2 => s.chip2

/-- Writes the registers of a chip. -/
def State.setChip (s : State) (k : ChipId) (c : Chip) : State :=
  match k with
  | .chip1 => { s with chip1 := c }
  | .chip2 => { s with chip2 := c }

/-- The byte `DDRAM(chip, page, lcol)` (R41); `none` where it is unspecified. -/
def State.ddram (s : State) (k : ChipId) (page : BitVec 3) (lcol : BitVec 6) : Option Byte :=
  s.ram.read (ddramKey k page lcol)

/-- Whether a chip's chip-select line is asserted (R45). -/
def Pins.selects (p : Pins) (cfg : Config) : ChipId → Bool
  | .chip1 => p.CS1 == cfg.csActive
  | .chip2 => p.CS2 == cfg.csActive

/-- Which chips are addressed. -/
inductive Addressed where
  | nobody
  | one (k : ChipId)
  | both
deriving DecidableEq, Repr

/-- R45: the chips whose chip-select line is at the level CS_ACTIVE. -/
def addressedBy (active cs1 cs2 : Bool) : Addressed :=
  match cs1 == active, cs2 == active with
  | false, false => .nobody
  | true, false => .one .chip1
  | false, true => .one .chip2
  | true, true => .both

/-- Which chips are addressed in a state (R45). -/
def State.addressed (s : State) : Addressed := addressedBy s.cfg.csActive s.pins.CS1 s.pins.CS2

/-- What every addressed chip does at an enable pulse; nothing when none is addressed (R46), a fault when both are (R45,
U9), a refusal when the pulse is too short for a chip to act on (R200, U11). -/
def State.forAddressed (s : State) (f : ChipId → State → State) : Out :=
  match s.addressed with
  | .nobody => .next s
  | .one k => if s.cfg.pulseValid then .next (f k s) else .refused .enablePulseTooShort
  | .both => .fault .bothChipsAddressed

/-- R48: the column register after a data write at column `y`. -/
def columnAfter (cfg : Config) (y : BitVec 6) : Option (BitVec 6) :=
  if y.toNat < 63 then some (y + 1) else cfg.colAfter63

/-- R48: chip `k` takes the data byte `b`. While its column register is undefined the byte lands at a drawn column and
the register stays undefined. -/
def dataOn (b : Byte) (k : ChipId) (s : State) : State :=
  let c := s.chip k
  match c.Y with
  | some y =>
    { s with ram := s.ram.write (ddramKey k c.X y) b }.setChip k { c with Y := columnAfter s.cfg y }
  | none =>
    { s with ram := s.ram.write (ddramKey k c.X (Config.drawCol s.draws)) b, draws := s.draws + 1 }

/-- R47 and U8: chip `k` takes a command byte that is none of the four commands: any value for its registers, and its
RAM is not promised to stay. An undefined column register stays undefined (R48). -/
def unknownCommandOn (k : ChipId) (s : State) : State :=
  let c := s.chip k
  let n := s.draws
  { s with ram := s.ram.forgetChip k, draws := n + 1 }.setChip k
    { X := Config.drawPage n, Y := c.Y.map fun _ => Config.drawCol n, Z := Config.drawLine n,
      ON := Config.drawOn n, BUSY := c.BUSY }

/-- R31, R161: the panel reset line leaves both chips and all display data RAM unspecified. -/
def State.panelReset (s : State) : State :=
  { s with chip1 := Chip.unspecified s.draws, chip2 := Chip.unspecified (s.draws + 1), ram := [],
           draws := s.draws + 2 }

/-! ## Hardware reset -/

/-- U12: the race of R193 on chip `k` where the byte on the bus names nothing: at most one register of the chip takes any
value, or one byte of its display data RAM becomes unspecified. -/
def raceAnyOn (k : ChipId) (n : Nat) (s : State) : State :=
  let c := s.chip k
  let r : RaceTarget := Config.drawRace n
  let key := ddramKey k (Config.drawPage n) (Config.drawCol n)
  { s with ram := if r = RaceTarget.byte then s.ram.forget key else s.ram }.setChip k
    { X := if r = RaceTarget.X then Config.drawPage n else c.X
      Y := if r = RaceTarget.Y then some (Config.drawCol n) else c.Y
      Z := if r = RaceTarget.Z then Config.drawLine n else c.Z
      ON := if r = RaceTarget.ON then Config.drawOn n else c.ON
      BUSY := c.BUSY }

/-- U12: chip `k` may take the command byte `b` in the race of R193: the one register it names takes any value, or stays. -/
def raceCommandOn (b : Byte) (k : ChipId) (n : Nat) (s : State) : State :=
  let c := s.chip k
  match decodeCommand s.cfg b with
  | some (.setPage _) => s.setChip k { c with X := Config.drawPage n }
  | some (.setCol _) => s.setChip k { c with Y := if Config.drawLatched n then some (Config.drawCol n) else c.Y }
  | some (.startLine _) => s.setChip k { c with Z := Config.drawLine n }
  | some .displayOn => s.setChip k { c with ON := Config.drawOn n }
  | none => raceAnyOn k n s

/-- U12: chip `k` may take the data byte on the bus in the race of R193: the one byte becomes unspecified, and the column
register may advance. -/
def raceDataOn (k : ChipId) (n : Nat) (s : State) : State :=
  let c := s.chip k
  match c.Y with
  | some y =>
    { s with ram := s.ram.forget (ddramKey k c.X y) }.setChip k
      { c with Y := if Config.drawLatched n then columnAfter s.cfg y else some y }
  | none => { s with ram := s.ram.forget (ddramKey k c.X (Config.drawCol n)) }

/-- R193, U12: chip `k`, addressed while hardware reset lets a high enable line fall, in a data write, a command write, or
a status read, whose byte names nothing (log entry 14). -/
def raceOn (k : ChipId) (s : State) : State :=
  let n := s.draws
  let s := { s with draws := n + 1 }
  if s.pins.DBDIR && !s.pins.RW then
    if s.pins.RS then raceDataOn k n s else raceCommandOn s.pins.DBOUT k n s
  else raceAnyOn k n s

/-- The race of R193 on every chip that is addressed while E is high. -/
def resetRace (s : State) : State :=
  if s.pins.E then
    let s1 := if s.pins.selects s.cfg .chip1 then raceOn .chip1 s else s
    if s1.pins.selects s1.cfg .chip2 then raceOn .chip2 s1 else s1
  else s

/-- R30, R190, R193: hardware reset of DPIPE. The operation in progress and the stream are discarded, the pins jump to
their reset levels, the panel is left as it is but for the race of R193; where RSTN was low its rise ends a panel reset
pulse (R161). Latches, working registers and RBUF, which R30 leaves unspecified, take the values of State.reset. -/
def hardReset (s : State) : State :=
  let s := resetRace s
  let s := if s.pins.RSTN then s else s.panelReset
  { s with
    pins := Pins.reset s.cfg, FSM := .idle, SP := 0, RUN := false, todo := [], lat := Latches.reset,
    work := Work.reset, DIAG := 0, RBUF := State.reset.RBUF, RLEN := 0, stream := [], trace := [] }

end Sys2Proof.Machine
end

