-- ==== Sys2Proof/Machine/Lcd.lean ====
section
/-! DEFINITION. The four controller commands (`20_memory.md` R47, `30_encoding.md` R78): what the addressed chip does
with each. A chip fetches a command at the falling edge of a write pulse (`Machine/Pins.lean`). -/

namespace Sys2Proof.Machine

/-- Chip `k` takes "set page": `X_k <- page` (R47). -/
def setPageOn (page : BitVec 3) (k : ChipId) (s : State) : State := s.setChip k { s.chip k with X := page }

/-- Chip `k` takes "set column": `Y_k <- lcol`, and the register is defined from then on (R47). -/
def setColOn (lcol : BitVec 6) (k : ChipId) (s : State) : State := s.setChip k { s.chip k with Y := some lcol }

/-- Chip `k` takes "display on": `ON_k <- 1` (R47). -/
def displayOnOn (k : ChipId) (s : State) : State := s.setChip k { s.chip k with ON := true }

/-- Chip `k` takes "set start line": `Z_k <- line` (R47). -/
def startLineOn (line : BitVec 6) (k : ChipId) (s : State) : State := s.setChip k { s.chip k with Z := line }

/-- LCD_SET_PAGE, carried out by the addressed chip (R47). -/
def execLcdSetPage (page : BitVec 3) (s : State) : Out := s.forAddressed (setPageOn page)

/-- LCD_SET_COL, carried out by the addressed chip (R47). -/
def execLcdSetCol (lcol : BitVec 6) (s : State) : Out := s.forAddressed (setColOn lcol)

/-- LCD_DISPLAY_ON, carried out by the addressed chip (R47). -/
def execLcdDisplayOn (s : State) : Out := s.forAddressed displayOnOn

/-- LCD_START_LINE, carried out by the addressed chip (R47). -/
def execLcdStartLine (line : BitVec 6) (s : State) : Out := s.forAddressed (startLineOn line)

/-- The meaning of a decoded command. -/
def execCommand (c : Command) (s : State) : Out :=
  match c with
  | .setPage p => execLcdSetPage p s
  | .setCol l => execLcdSetCol l s
  | .startLine z => execLcdStartLine z s
  | .displayOn => execLcdDisplayOn s

/-- R47: a byte latched with RS low is decoded and carried out; a byte that is no command has an unspecified effect. -/
def latchCommand (b : Byte) (s : State) : Out :=
  match decodeCommand s.cfg b with
  | some c => execCommand c s
  | none => s.forAddressed unknownCommandOn

end Sys2Proof.Machine
end

