-- ==== Sys2Proof/Machine/Pins.lean ====
section
/-! DEFINITION. The pin events of `30_encoding.md` R82 and what the chips do at them (`20_memory.md` R46, R49). -/

namespace Sys2Proof.Machine

/-- R46: the levels of a write pulse: E high, RW low, the bus driven. -/
def Pins.writePulse (p : Pins) : Bool := p.E && !p.RW && p.DBDIR

/-- R49: the levels at which an addressed chip drives DB7 with its busy flag. -/
def Pins.statusRead (p : Pins) : Bool := p.RW && !p.RS && p.E && !p.DBDIR

/-- R46: every addressed chip takes the byte on the bus, a command with RS low, data with RS high. -/
def latchByte (s : State) : Out :=
  if s.pins.RS then s.forAddressed (dataOn s.pins.DBOUT) else latchCommand s.pins.DBOUT s

/-- `PIN(n, l)`. The chips react to the fall of E that ends a write pulse (R46), and to RSTN: from its fall, and again
at its rise, the chips are unspecified (R31, log entry 19). -/
def drivePin (n : PinName) (l : Bool) (s : State) : Out :=
  let t := { s with pins := s.pins.set n l }.record (.pin n l)
  match n with
  | .E => if !l && s.pins.writePulse then latchByte t else .next t
  | .RSTN => if l && s.pins.RSTN then .next t else .next t.panelReset
  | _ => .next t

/-- `DIR(DB, out)` and `DIR(DB, in)`. -/
def driveDir (out : Bool) (s : State) : State :=
  { s with pins := { s.pins with DBDIR := out } }.record (.dir out)

/-- `DBW(v)`. -/
def driveByte (v : Byte) (s : State) : State :=
  { s with pins := { s.pins with DBOUT := v } }.record (.dbw v)

/-- DB7 at this moment: the environment's next level, or a free value when its list holds none (R49, log entry 5). -/
def State.busLevel (s : State) : Bool := s.db7.headD (Config.drawBusy s.sampled)

/-- A chip at a sample of level `b`: it was its busy flag if the chip drove the line (R49). -/
def Chip.sampled (c : Chip) (drives : Bool) (b : Bool) : Chip := { c with BUSY := if drives then b else c.BUSY }

/-- `b <- RD7()` with the level `b` on DB7: DBIN and SAMP take it (R82), and where one chip is driving the line it is
that chip's busy flag (R49). DB6..DB0 are free (U17). -/
def sense (b : Bool) (s : State) : State :=
  { s with
    DBIN := BitVec.ofBool b ++ Config.drawLow s.sampled, work := { s.work with SAMP := b }
    chip1 := s.chip1.sampled (s.pins.statusRead && s.addressed == Addressed.one .chip1) b
    chip2 := s.chip2.sampled (s.pins.statusRead && s.addressed == Addressed.one .chip2) b
    db7 := s.db7.tail, sampled := s.sampled + 1 }.record (.rd7 b)

end Sys2Proof.Machine
end

