-- ==== Sys2Proof/Machine/Procs.lean ====
section
/-! DEFINITION. The pseudocode of `40_bus_protocol.md` to `44_system.md`, procedure by procedure, as the list of steps
that a call of it performs. The call graph is that of `45_laws.md` R223. -/

namespace Sys2Proof.Machine

/-! ## Bus protocol layer -/

/-- BUSYWAIT (R101): enter, poll, leave. -/
def busyWaitBody : List Act :=
  [.fsm .busyPoll, .dir false, .pin .RW true, .pin .RS false, .poll, .dir true, .pin .RW false]

/-- Steps 4a to 4c of BUSYWAIT (R101). -/
def pollBody : List Act := [.pin .E true, .delay .tE, .rd7]

/-- Step 4d of BUSYWAIT and the test after it: poll again while the sample is 1, without limit (R101, R174). -/
def afterSample (b : Bool) : List Act := .pin .E false :: if b then [.poll] else []

/-- SELCHIP step 2 (R102): the line that `id` asserts, if any. -/
def assertBody (cfg : Config) (id : Byte) : List Act :=
  if id = 1 then [.pin .CS1 cfg.csActive]
  else if id = 2 then [.pin .CS2 cfg.csActive]
  else []

/-- SELCHIP (R102). -/
def selChipBody (cfg : Config) (id : Byte) : List Act :=
  .fsm .selecting :: .pin .CS1 (!cfg.csActive) :: .pin .CS2 (!cfg.csActive) :: assertBody cfg id ++
    [Act.busyWait, Act.fsm .idle]

/-- Steps 2 to 5 of WCMD and WDATA (R103, R104): the register select, write, the byte, one enable pulse (R105). -/
def strobeBody (rs : Bool) (b : Byte) : List Act :=
  [.pin .RS rs, .pin .RW false, .dbw b, .pin .E true, .delay .tE, .pin .E false]

/-- WCMD (R103). -/
def wcmdBody (b : Byte) : List Act :=
  .busyWait :: .fsm .commandWrite :: strobeBody false b ++ [Act.fsm .idle]

/-- WDATA (R104). -/
def wdataBody (b : Byte) : List Act :=
  .busyWait :: .fsm .dataWrite :: strobeBody true b ++ [Act.fsm .idle]

/-! ## Addressing translator and glyph renderer -/

/-- GOTO steps 3 to 5 (R121). -/
def goToBody (cfg : Config) (page column : Byte) : List Act :=
  [.selChip (chipOf column).id, .wcmd (setPageByte cfg page), .wcmd (setColByte cfg (lcolOf column))]

/-- WCHAR step 3 (R130): the glyph's columns, K from 0 to GLYPH_W. -/
def glyphBody : List Act :=
  [.setK 0, .glyphCol, .setK 1, .glyphCol, .setK 2, .glyphCol, .setK 3, .glyphCol, .setK 4, .glyphCol, .setK 5]

/-- WCHAR steps 2 to 4 (R130, R132). -/
def wcharBody (page column : Byte) : List Act :=
  .goTo page column :: glyphBody ++ [.wdata 0x00]

/-! ## Drawing primitives -/

/-- One half of one page of CLEAR (R140). -/
def clearHalf (page : Byte) (half : BitVec 2) (column : Byte) : List Act :=
  [.setHalf half, .goTo page column, .fill 64 0x00]

/-- One page of CLEAR (R140): chip 1, then chip 2. -/
def clearPage (p : Nat) : List Act :=
  .setPgi (BitVec.ofNat 4 p) :: clearHalf (BitVec.ofNat 8 p) 0 0 ++ clearHalf (BitVec.ofNat 8 p) 1 64 ++ [.setHalf 2]

/-- CLEAR (R140). -/
def clearBody : List Act := (List.range npage).flatMap clearPage ++ [.setPgi 8]

/-- WPCT (R146). -/
def wpctBody (cfg : Config) (len : Nat) : List Act :=
  [.goTo labelPage labelCol, .fill cfg.labelEraseLen.toNat 0x00, .string labelPage labelCol len]

/-- BARROW (R148). -/
def barRowBody (cfg : Config) (page base height : Byte) : List Act :=
  [.goTo page base, .fill height.toNat cfg.barOn] ++
    if height.toNat < 64 then
      if 0 < height.toNat then [.wdata cfg.barMark, .fill (63 - height.toNat) cfg.barOff]
      else [.fill 64 cfg.barOff]
    else []

/-- The two nested loops of BAR steps 1 and 3 (R148) around one row's steps. -/
def barRows (row : Byte → Byte → List Act) : List Act :=
  .setHalf 0 :: .setRow 0 :: row barPageA 0 ++ .setRow 1 :: row (barPageA + 1) 0 ++
    .setRow 2 :: .setHalf 1 :: .setRow 0 :: row barPageA 64 ++ .setRow 1 :: row (barPageA + 1) 64 ++
    [.setRow 2, .setHalf 2]

/-- One row of BAR step 3 (R148). -/
def barClearRow (page base : Byte) : List Act := [.goTo page base, .fill 64 0x00]

/-- BAR steps 1 to 3 with a legal height (R148). -/
def barBody (height : Byte) : List Act :=
  barRows (fun page base => [.barRow page base height]) ++ .delay .tHold :: barRows barClearRow

/-! ## System operations -/

/-- INIT steps 4a to 4c for one chip (R160). -/
def initChip (cfg : Config) (k : ChipId) : List Act :=
  [.selChip k.id, .wcmd cfg.displayOnCmd, .wcmd (startLineByte cfg)]

/-- INIT steps 0 to 3 (R160). -/
def initOpening : List Act :=
  [.clearDiag, .pin .RSTN false, .delay .tRst, .pin .RSTN true, .delay .tSettle, .dir true]

/-- INIT (R160). -/
def initBody (cfg : Config) : List Act :=
  initOpening ++ (initChip cfg .chip1 ++ initChip cfg .chip2 ++ [Act.clear])

/-- The steps of a host operation (R72, R223). A controller command is no operation of the stream. -/
def actsOf (cfg : Config) : Instr → List Act
  | .init => initBody cfg
  | .clear => [.clear]
  | .goto page column => [.goTo page column]
  | .wchar page column ch => [.wchar page column ch]
  | .wstr page column len => [.string page column len.toNat]
  | .wpct len => wpctBody cfg len.toNat
  | .bar height => [.bar height]
  | .itoa value => [.itoa value]
  | .selchip id => [.selChip id]
  | .wcmd byte => [.wcmd byte]
  | .wdata byte => [.wdata byte]
  | .reserved _ => [.badCmd]
  | .lcdSetPage _ => []
  | .lcdSetCol _ => []
  | .lcdDisplayOn => []
  | .lcdStartLine _ => []

end Sys2Proof.Machine
end

