-- ==== Sys2Proof/Machine/Sequencer.lean ====
section
/-! DEFINITION. The sequencer (`10_state.md` R10, R13, R14): one step of the operation in progress, at most one pin event,
and the acceptance of an operation (R71). -/

namespace Sys2Proof.Machine

/-! ## Register transfers of the operations -/

/-- `CH <- Next()`-like fetches: consumes the byte at SP, or waits for the host (R70). -/
def withNext (wait : Act) (s : State) (use : Byte → State → Out) : Out :=
  match s.nextByte with
  | none => .next (s.call [wait])
  | some b => use b { s with SP := s.SP + 1 }

/-- GOTO steps 1 and 2 (R121). -/
def startGoTo (page column : Byte) (s : State) : State :=
  if coordsValid page column then
    { s with work := { s.work with CHIPID := (chipOf column).id.setWidth 2, LCOL := lcolOf column } }.call
      (goToBody s.cfg page column)
  else s.setDiag .COORD

/-- WCHAR step 1 (R130, R131). -/
def startWchar (page column ch : Byte) (s : State) : State :=
  { s with
    work := { s.work with IDX := glyphIndex s.cfg ch }
    DIAG := raiseIf (!supported s.cfg ch) .CHSUB s.DIAG }.call (wcharBody page column)

/-- One iteration of `repeat n`, CNT counting down (R8, R16). -/
def stepFill (n : Nat) (b : Byte) (s : State) : State :=
  let s := { s with work := { s.work with CNT := BitVec.ofNat 7 n } }
  match n with
  | 0 => s
  | n + 1 => s.call [.wdata b, .fill n b]

/-- STRING step 1 (R142). -/
def startString (page column : Byte) (n : Nat) (s : State) : State :=
  { s with work := { s.work with CUR := column.setWidth 9, STOP := false, TI := 0 } }.call [.chars page n]

/-- STRING steps 2b to 2d for the text byte `ch`, with `n` bytes to follow (R142 to R144). -/
def placeChar (page : Byte) (n : Nat) (ch : Byte) (s : State) : State :=
  let s := { s with lat := { s.lat with CH := ch } }
  if s.work.STOP then
    { s.setDiag .TRUNC with work := { s.work with TI := s.work.TI + 1 } }.call [.chars page n]
  else
    let cur := seamSnap s.work.CUR
    { s with work := { s.work with CUR := cur } }.call [.wchar page (cur.setWidth 8) ch, .advance, .chars page n]

/-- STRING steps 2e and 2f (R142, R144). -/
def advanceCursor (s : State) : State :=
  let cur := cursorAdvance s.work.CUR
  { s with work := { s.work with CUR := cur, STOP := pastEdge cur, TI := s.work.TI + 1 } }

/-- ITOA (R163). RBUF at RLEN and above is unspecified afterwards; the remaining quotient is 0 (log entry 24). -/
def storeDecimal (v : Word) (s : State) : State :=
  let ds := decimal v.toNat
  let byte (i : Nat) : Byte := ds.getD i (Config.drawByte (s.draws + i))
  { s with
    RLEN := BitVec.ofNat 3 ds.length, RBUF := #v[byte 0, byte 1, byte 2, byte 3, byte 4]
    work := { s.work with Q := 0 }, draws := s.draws + 5 }

/-- `b <- RD7()` inside BUSYWAIT, with steps 4d and the test after it put in front of what is left (R101). A chip that
drives the line within a pulse too short for it is refused (R200, U11). -/
def readDB7 (s : State) : Out :=
  if s.pins.DBDIR then .fault .sampleWhileDriving
  else if s.addressed = .both then .fault .bothChipsAddressed
  else if s.addressed ≠ .nobody ∧ s.cfg.pulseValid = false then .refused .enablePulseTooShort
  else .next ((sense s.busLevel s).call (afterSample s.busLevel))

/-! ## One step of the sequencer -/

/-- One act; `s.todo` is what is left after it. -/
def act (a : Act) (s : State) : Out :=
  match a with
  | .dir out => .next (driveDir out s)
  | .dbw v => .next (driveByte v s)
  | .pin n l => drivePin n l s
  | .rd7 => readDB7 s
  | .delay t => .next (s.record (.delay t))
  | .fsm f => .next { s with FSM := f }
  | .setK k => .next { s with work := { s.work with K := k } }
  | .setPgi p => .next { s with work := { s.work with PGI := p } }
  | .setHalf h => .next { s with work := { s.work with HALF := h } }
  | .setRow r => .next { s with work := { s.work with ROW := r } }
  | .clearDiag => .next { s with DIAG := 0 }
  | .fetch o => withNext (.fetch o) s fun b s => .next { s with lat := s.lat.put o b }
  | .dispatch => .next (s.call (actsOf s.cfg s.lat.instr))
  | .busyWait => .next (s.call busyWaitBody)
  | .poll => .next (s.call pollBody)
  | .selChip id => .next (s.call (selChipBody s.cfg id))
  | .wcmd b => .next (s.call (wcmdBody b))
  | .wdata b => .next (s.call (wdataBody b))
  | .goTo page column => .next (startGoTo page column s)
  | .wchar page column ch => .next (startWchar page column ch s)
  | .glyphCol => .next (s.call [.wdata (s.cfg.fontByte s.work.IDX.toNat s.work.K.toNat)])
  | .fill n b => .next (stepFill n b s)
  | .clear => .next (s.call clearBody)
  | .string page column n => .next (startString page column n s)
  | .chars _ 0 => .next s
  | .chars page (n + 1) => withNext (.chars page (n + 1)) s fun b s => .next (placeChar page n b s)
  | .advance => .next (advanceCursor s)
  | .bar height => .next (if barMax < height.toNat then s.setDiag .BADCMD else s.call (barBody height))
  | .barRow page base height => .next (s.call (barRowBody s.cfg page base height))
  | .itoa v => .next (storeDecimal v s)
  | .badCmd => .next (s.setDiag .BADCMD)
  | .finish => .next { s with RUN := false }

/-- One step of the operation in progress: at most one pin event (R10). -/
def tick (s : State) : Out :=
  match s.todo with
  | [] => .next { s with RUN := false }
  | a :: rest => act a { s with todo := rest }

/-! ## The acceptance of an operation -/

/-- R71: the acceptance of an operation of `n` opcode and operand bytes: the bytes are consumed and latched, RUN is 1,
and the steps `acts` are to do, then `RUN <- 0`. No pin event (R70). -/
def State.accept (s : State) (opcode : Byte) (n : Nat) (lat : Latches) (acts : List Act) : State :=
  { s with lat := { lat with OPC := opcode }, SP := s.SP + n, RUN := true, todo := acts ++ [.finish] }

end Sys2Proof.Machine
end

