-- ==== Sys2Proof/Machine/Bus.lean ====
section
/-! DEFINITION. The bus protocol layer's host operations SELCHIP, WCMD, WDATA (`40_bus_protocol.md`). -/

namespace Sys2Proof.Machine

/-- SELCHIP id (R102). -/
def execSelchip (id : Byte) (s : State) : Out :=
  .next (s.accept 0x10 2 { s.lat with ID := id } (actsOf s.cfg (.selchip id)))

/-- WCMD byte (R103). -/
def execWcmd (byte : Byte) (s : State) : Out :=
  .next (s.accept 0x11 2 { s.lat with BY := byte } (actsOf s.cfg (.wcmd byte)))

/-- WDATA byte (R104). -/
def execWdata (byte : Byte) (s : State) : Out :=
  .next (s.accept 0x12 2 { s.lat with BY := byte } (actsOf s.cfg (.wdata byte)))

end Sys2Proof.Machine
end

