-- ==== Sys2Proof/Machine/Drawing.lean ====
section
/-! DEFINITION. The host operations CLEAR and BAR (`43_drawing.md`). -/

namespace Sys2Proof.Machine

/-- CLEAR (R140). -/
def execClear (s : State) : Out :=
  .next (s.accept 0x02 1 s.lat (actsOf s.cfg .clear))

/-- BAR height (R148, R149). -/
def execBar (height : Byte) (s : State) : Out :=
  .next (s.accept 0x07 2 { s.lat with HT := height } (actsOf s.cfg (.bar height)))

end Sys2Proof.Machine
end

