-- ==== Sys2Proof/Machine/System.lean ====
section
/-! DEFINITION. The system operations INIT, ITOA and RESERVED (`44_system.md`). -/

namespace Sys2Proof.Machine

/-- INIT (R160). -/
def execInit (s : State) : Out :=
  .next (s.accept 0x01 1 s.lat (actsOf s.cfg .init))

/-- ITOA value (R163). -/
def execItoa (value : Word) (s : State) : Out :=
  .next (s.accept 0x08 3 { s.lat with VAL := value } (actsOf s.cfg (.itoa value)))

/-- RESERVED (R80, R165): the opcode byte is consumed alone. -/
def execReserved (opcode : Byte) (s : State) : Out :=
  .next (s.accept opcode 1 s.lat (actsOf s.cfg (.reserved opcode)))

end Sys2Proof.Machine
end

