-- ==== Sys2Proof/Machine/Text.lean ====
section
/-! DEFINITION. The host operations GOTO (`41_addressing.md`), WCHAR (`42_glyph.md`), WSTR and WPCT (`43_drawing.md`). -/

namespace Sys2Proof.Machine

/-- GOTO page, column (R121). -/
def execGoto (page column : Byte) (s : State) : Out :=
  .next (s.accept 0x03 3 { s.lat with PG := page, COLR := column } (actsOf s.cfg (.goto page column)))

/-- WCHAR page, column, ch (R130). -/
def execWchar (page column ch : Byte) (s : State) : Out :=
  .next (s.accept 0x04 4 { s.lat with PG := page, COLR := column, CH := ch } (actsOf s.cfg (.wchar page column ch)))

/-- WSTR page, column, len, text (R142); the text bytes are fetched from the stream as they are placed. -/
def execWstr (page column len : Byte) (s : State) : Out :=
  .next (s.accept 0x05 4 { s.lat with PG := page, COLR := column, LEN := len } (actsOf s.cfg (.wstr page column len)))

/-- WPCT len, text (R146); the text bytes are fetched from the stream as they are placed. -/
def execWpct (len : Byte) (s : State) : Out :=
  .next (s.accept 0x06 2 { s.lat with LEN := len } (actsOf s.cfg (.wpct len)))

end Sys2Proof.Machine
end

