-- ==== Sys2Proof/Machine/Dispatch.lean ====
section
/-! DEFINITION. The meaning of every operation, one arm per constructor of `Instr`. -/

namespace Sys2Proof.Machine

def exec (i : Instr) (s : State) : Host.Outcome State Fault Refusal :=
  match i with
  | .init => Sys2Proof.Machine.execInit s
  | .clear => Sys2Proof.Machine.execClear s
  | .goto page column => Sys2Proof.Machine.execGoto page column s
  | .wchar page column ch => Sys2Proof.Machine.execWchar page column ch s
  | .wstr page column len => Sys2Proof.Machine.execWstr page column len s
  | .wpct len => Sys2Proof.Machine.execWpct len s
  | .bar height => Sys2Proof.Machine.execBar height s
  | .itoa value => Sys2Proof.Machine.execItoa value s
  | .selchip id => Sys2Proof.Machine.execSelchip id s
  | .wcmd byte => Sys2Proof.Machine.execWcmd byte s
  | .wdata byte => Sys2Proof.Machine.execWdata byte s
  | .reserved opcode => Sys2Proof.Machine.execReserved opcode s
  | .lcdSetPage page => Sys2Proof.Machine.execLcdSetPage page s
  | .lcdSetCol lcol => Sys2Proof.Machine.execLcdSetCol lcol s
  | .lcdDisplayOn => Sys2Proof.Machine.execLcdDisplayOn s
  | .lcdStartLine line => Sys2Proof.Machine.execLcdStartLine line s

end Sys2Proof.Machine
end

