-- ==== Sys2Proof/Machine/Fetch.lean ====
section
/-! DEFINITION. Fetching an operation from the host command stream (`30_encoding.md` R70, R71), and placing one there or
on the controller bus from outside. -/

namespace Sys2Proof.Machine

/-- R70, R71: the acceptance of an operation whose operand bytes are not all there yet. The opcode is consumed, RUN is
1, and the operands are fetched as the host supplies them. -/
def State.acceptPartial (s : State) (opcode : Byte) : State :=
  { s with
    lat := { s.lat with OPC := opcode }, SP := s.SP + 1, RUN := true
    todo := (operandsOf opcode).map .fetch ++ [.dispatch, .finish] }

/-- R71: what the idle sequencer does: it accepts the operation that starts at SP, or waits for its first byte (R32). -/
def fetchStep (s : State) : Out :=
  match decode (s.stream.drop s.SP) with
  | .ok (i, _) => exec i s
  | .error .noByte => .next s
  | .error (.operandsMissing opcode) => .next (s.acceptPartial opcode)

/-- The bytes of a host operation whose bits are `w`: opcode, operands, and as many text bytes as its length byte says. -/
def operationBytes (i : Instr) (nbits w : Nat) : List Byte :=
  (List.range ((encode Config.suggested i).length + i.textLen)).map (tableByte nbits w)

/-- `bytes` in the stream from SP on, the sequencer idle and not held in reset. -/
def State.withStreamBytes (s : State) (bytes : List Byte) : State :=
  { s with
    stream := s.stream.take s.SP ++ List.replicate (s.SP - s.stream.length) 0 ++ bytes ++
      s.stream.drop (s.SP + bytes.length)
    RUN := false, todo := [], rst_n := true }

/-- A command byte on the bus with a write pulse about to end, and a chip addressed to take it: chip 1, unless exactly
one is addressed already (R46, log entry 22). -/
def State.withBusCommand (s : State) (b : Byte) : State :=
  let one := s.pins.selects s.cfg .chip1 != s.pins.selects s.cfg .chip2
  { s with
    pins := { s.pins with
      DBOUT := b, DBDIR := true, RS := false, RW := false, E := true
      CS1 := if one then s.pins.CS1 else s.cfg.csActive
      CS2 := if one then s.pins.CS2 else !s.cfg.csActive }
    RUN := true, todo := [.pin .E false, .finish], rst_n := true }

end Sys2Proof.Machine
end

