-- ==== Sys2Proof/Machine/Step.lean ====
section
/-! DEFINITION. One step of the machine. -/

namespace Sys2Proof.Machine

/-- One step. While the reset input is low the machine is held in hardware reset (R30). While an operation is in
progress its next act is done, at most one pin event (R8, R10, R82). When idle, the operation at SP is accepted, without a
pin event (R71; log entry 4). -/
def step (s : State) : Host.Outcome State Fault Refusal :=
  if !s.rst_n then .next (hardReset s)
  else if s.RUN then tick s
  else fetchStep s

/-- `s` with the instruction of an opcode-table word where the next step fetches: in the stream at SP for a host
operation, on the bus at the end of a write pulse for a controller command (log entries 21 and 22). -/
def State.withFetchWord (s : State) (nbits w : Nat) : State :=
  match decodeTableWord nbits w with
  | none => s.withStreamBytes (tableBytes nbits w)
  | some i =>
    if i.isHost then s.withStreamBytes (operationBytes i nbits w)
    else s.withBusCommand (tableByte nbits w 0)

end Sys2Proof.Machine
end

