-- ==== Sys2Proof/Machine/Trace.lean ====
section
/-! DEFINITION. The three levels of observation of `00_scope.md` R9: the pin trace, the bus trace computed from it
(`40_bus_protocol.md` R106), and, for the display effect, the picture (`20_memory.md` R41). -/

namespace Sys2Proof.Machine

/-! ## Pin trace -/

/-- The pin trace since hardware reset, oldest event first. -/
def State.pinTrace (s : State) : List PinEvent := s.trace.reverse

/-- The pin events of `t` that came after `s`, oldest first. -/
def State.eventsSince (t s : State) : List PinEvent := (t.trace.take (t.trace.length - s.trace.length)).reverse

/-- What a pin event does to the pin registers (R82). -/
def Pins.after (p : Pins) : PinEvent → Pins
  | .dir out => { p with DBDIR := out }
  | .dbw v => { p with DBOUT := v }
  | .pin n l => p.set n l
  | .rd7 _ => p
  | .delay _ => p

/-- R201: the half-duplex discipline at one event. RD7 only with the bus an input and E high; a pulse begins only as a
write with the bus driven and RW low, or as a read with the bus released and RW high; DBDIR, RW, RS, DBOUT and the chip
selects change only while E is low (R105). -/
def Pins.disciplined (p : Pins) : PinEvent → Bool
  | .dir _ => !p.E
  | .dbw _ => !p.E
  | .pin .E true => !p.E && (p.DBDIR != p.RW)
  | .pin .E false => p.E
  | .pin _ _ => !p.E
  | .rd7 _ => p.E && !p.DBDIR && p.RW && !p.RS
  | .delay _ => true

/-- The pin registers after a sequence of events, oldest first. -/
def replay (p : Pins) (events : List PinEvent) : Pins := events.foldl Pins.after p

/-- Whether every event of a sequence keeps the discipline. -/
def allDisciplined : Pins → List PinEvent → Bool
  | _, [] => true
  | p, e :: es => p.disciplined e && allDisciplined (p.after e) es

/-! ## Bus trace -/

/-- One entry of the bus trace: `SEL1`, `SEL2` or `SEL-`; `C:xx`; `D:xx` (R9). -/
inductive BusEntry where
  | sel (k : Option ChipId)
  | cmd (b : Byte)
  | data (b : Byte)
deriving DecidableEq, Repr

/-- Whether an entry is a data write. -/
def BusEntry.isData : BusEntry → Bool
  | .sel _ => false
  | .cmd _ => false
  | .data _ => true

/-- What the abstraction of R106 remembers: the pin levels, and whether a chip selection is under way. -/
structure BusScan where
  pins : Pins
  selecting : Bool
deriving DecidableEq, Repr

/-- The chip that the lines select, when exactly one is asserted. -/
def Pins.selected (p : Pins) (cfg : Config) : Option ChipId :=
  match p.selects cfg .chip1, p.selects cfg .chip2 with
  | true, false => some .chip1
  | false, true => some .chip2
  | _, _ => none

/-- The bus-trace entry that an event completes: a SELCHIP at the end of its busy-wait, a transfer at the fall of E. -/
def BusScan.entry (cfg : Config) (b : BusScan) : PinEvent → List BusEntry
  | .pin .RW false => if b.selecting then [.sel (b.pins.selected cfg)] else []
  | .pin .E false =>
    if b.pins.writePulse then [if b.pins.RS then .data b.pins.DBOUT else .cmd b.pins.DBOUT] else []
  | _ => []

/-- The memory of the abstraction after an event. -/
def BusScan.after (b : BusScan) (e : PinEvent) : BusScan where
  pins := b.pins.after e
  selecting :=
    match e with
    | .pin .CS1 _ => true
    | .pin .CS2 _ => true
    | .pin .RW false => false
    | _ => b.selecting

/-- R106: the bus trace of a sequence of pin events, oldest first. -/
def busTrace (cfg : Config) : BusScan → List PinEvent → List BusEntry
  | _, [] => []
  | b, e :: es => b.entry cfg e ++ busTrace cfg (b.after e) es

/-- The bus trace of what happened between `s` and `t`, where no chip selection was under way in `s`. -/
def State.busSince (t s : State) : List BusEntry := busTrace s.cfg ⟨s.pins, false⟩ (t.eventsSince s)

/-- R106: the chip that receives the transfer after a bus trace: the one the last selection names; `k`, the one selected
before, where there is none. -/
def receiver (k : Option ChipId) : List BusEntry → Option ChipId
  | [] => k
  | .sel k' :: es => receiver k' es
  | .cmd _ :: es => receiver k es
  | .data _ :: es => receiver k es

/-! ## Display effect -/

/-- R47, U8: chip `k` takes a command byte. -/
def commandOn (b : Byte) (k : ChipId) (s : State) : State :=
  match decodeCommand s.cfg b with
  | some (.setPage p) => setPageOn p k s
  | some (.setCol l) => setColOn l k s
  | some (.startLine z) => startLineOn z k s
  | some .displayOn => displayOnOn k s
  | none => unknownCommandOn k s

/-- R46: the chip `k`, where one receives at all, takes a transfer. -/
def BusEntry.on (e : BusEntry) (k : Option ChipId) (s : State) : State :=
  match e, k with
  | .sel _, _ => s
  | .cmd b, some k => commandOn b k s
  | .data b, some k => dataOn b k s
  | .cmd _, none => s
  | .data _, none => s

/-- R9 level 3: what the chips do on a bus trace, the first transfers going to `k`. -/
def displayEffect : Option ChipId → List BusEntry → State → State
  | _, [], s => s
  | k, e :: es, s => displayEffect (receiver k [e]) es (e.on k s)

/-- The registers of a chip that a rule fixes: page, column, start line, display on. -/
def Chip.regs (c : Chip) : BitVec 3 × Option (BitVec 6) × BitVec 6 × Bool := (c.X, c.Y, c.Z, c.ON)

/-- What a display effect is about: the chips' registers and display data RAM, and the count of the free values they
have taken. -/
structure Display where
  regs1 : BitVec 3 × Option (BitVec 6) × BitVec 6 × Bool
  regs2 : BitVec 3 × Option (BitVec 6) × BitVec 6 × Bool
  ram : Memory
  draws : Nat
deriving DecidableEq, Repr

/-- The display part of a state. -/
def State.display (s : State) : Display := ⟨s.chip1.regs, s.chip2.regs, s.ram, s.draws⟩

/-! ## Picture -/

/-- R41: the pixel at a row 0..63 and a logical column 0..127 of the panel; `none` where it is unspecified. PIX_LSB_TOP
says which bit of a byte is the top row of its page. -/
def State.pixel (s : State) (row : BitVec 6) (column : BitVec 7) : Option Bool :=
  let k := if column.toNat < seam then ChipId.chip1 else ChipId.chip2
  let i := row.toNat % pageH
  (s.ddram k (BitVec.ofNat 3 (row.toNat / pageH)) (column.setWidth 6)).map fun b =>
    b.getLsbD (if s.cfg.pixLsbTop then i else 7 - i)

end Sys2Proof.Machine
end

