-- ==== Sys2Proof/Machine/Expected.lean ====
section
/-! DEFINITION. The bus trace that the rules of `40_bus_protocol.md` to `44_system.md` give each operation, paragraph
"Bus trace" of each rule. The claims compare the machine with it; the machine does not use it. -/

namespace Sys2Proof.Machine

/-- R102: the chip that an id operand selects; `none` for any id but 1 and 2. -/
def chipOfId (id : Byte) : Option ChipId :=
  if id = 1 then some .chip1 else if id = 2 then some .chip2 else none

/-- R121: a valid GOTO is a selection and two commands, page first; an invalid one is nothing. -/
def gotoBus (cfg : Config) (page column : Byte) : List BusEntry :=
  if coordsValid page column then
    [.sel (some (chipOf column)), .cmd (setPageByte cfg page), .cmd (setColByte cfg (lcolOf column))]
  else []

/-- R130, R132: the six bytes of a character, five glyph columns and the spacing column. -/
def charBytes (cfg : Config) (ch : Byte) : List Byte :=
  let idx := (glyphIndex cfg ch).toNat
  [cfg.fontByte idx 0, cfg.fontByte idx 1, cfg.fontByte idx 2, cfg.fontByte idx 3, cfg.fontByte idx 4, 0x00]

/-- R130, R133 (a): a GOTO that may do nothing, and six data writes whatever it did. -/
def wcharBus (cfg : Config) (page column ch : Byte) : List BusEntry :=
  gotoBus cfg page column ++ (charBytes cfg ch).map .data

/-- R142 to R144: the characters a string places and their columns, from string cursor `cur` on: a character that would
straddle the seam is moved to column 64, and none is placed once the cursor has reached column 128. -/
def placements : Nat → List Byte → List (Nat × Byte)
  | _, [] => []
  | cur, ch :: text =>
    let c := if cur < 64 ∧ 64 < cur + 6 then 64 else cur
    (c, ch) :: if 128 ≤ c + 6 then [] else placements (c + 6) text

/-- R142: a string's bus trace is that of its characters, in order. -/
def stringBus (cfg : Config) (page : Byte) (cur : Nat) (text : List Byte) : List BusEntry :=
  (placements cur text).flatMap fun p => wcharBus cfg page (BitVec.ofNat 8 p.1) p.2

/-- R140: one page of one chip, positioned at its first column and overwritten with one list of 64 bytes. -/
def rowBus (cfg : Config) (page : Nat) (k : ChipId) (bytes : List Byte) : List BusEntry :=
  [.sel (some k), .cmd (setPageByte cfg (BitVec.ofNat 8 page)), .cmd (setColByte cfg 0)] ++ bytes.map .data

/-- R140: 8 pages, chip 1 then chip 2, 64 zero bytes each. -/
def clearBus (cfg : Config) : List BusEntry :=
  (List.range 8).flatMap fun p =>
    rowBus cfg p .chip1 (List.replicate 64 0x00) ++ rowBus cfg p .chip2 (List.replicate 64 0x00)

/-- R146: the erase run, then the string at the same origin. -/
def wpctBus (cfg : Config) (text : List Byte) : List BusEntry :=
  gotoBus cfg labelPage labelCol ++ (List.replicate cfg.labelEraseLen.toNat 0x00).map .data ++
    stringBus cfg labelPage labelCol.toNat text

/-- R148, R150: the 64 bytes of one row of the bar. The marker stands at column `h` when the bar is neither empty nor
full. -/
def barBytes (cfg : Config) (h : Nat) : List Byte :=
  (List.range 64).map fun c => if c < h then cfg.barOn else if c = h ∧ 0 < h then cfg.barMark else cfg.barOff

/-- R148: the four rows of the bar in the order of its trace: chip 1 page 5, chip 1 page 6, chip 2 page 5, chip 2 page 6. -/
def barRowsBus (cfg : Config) (bytes : List Byte) : List BusEntry :=
  rowBus cfg 5 .chip1 bytes ++ rowBus cfg 6 .chip1 bytes ++ rowBus cfg 5 .chip2 bytes ++ rowBus cfg 6 .chip2 bytes

/-- R148: the bar drawn, then (after the hold) erased. -/
def barBus (cfg : Config) (h : Nat) : List BusEntry :=
  barRowsBus cfg (barBytes cfg h) ++ barRowsBus cfg (List.replicate 64 0x00)

/-- R160: display on and start line 0 to chip 1, then to chip 2, then CLEAR. -/
def initBus (cfg : Config) : List BusEntry :=
  .sel (some .chip1) :: .cmd cfg.displayOnCmd :: .cmd cfg.startLineBase ::
    .sel (some .chip2) :: .cmd cfg.displayOnCmd :: .cmd cfg.startLineBase :: clearBus cfg

/-- R100: the pin levels after a bus trace; each entry leaves the bus driven for a write and E low. -/
def exitPins (cfg : Config) : Pins → List BusEntry → Pins
  | p, [] => p
  | p, .sel k :: es =>
    exitPins cfg { p with
      CS1 := if k = some .chip1 then cfg.csActive else !cfg.csActive
      CS2 := if k = some .chip2 then cfg.csActive else !cfg.csActive
      DBDIR := true, RS := false, RW := false, E := false } es
  | p, .cmd b :: es => exitPins cfg { p with DBOUT := b, DBDIR := true, RS := false, RW := false, E := false } es
  | p, .data b :: es => exitPins cfg { p with DBOUT := b, DBDIR := true, RS := true, RW := false, E := false } es

/-- The bus trace of a host operation with the text bytes that follow it. -/
def busOf (cfg : Config) (text : List Byte) : Instr → List BusEntry
  | .init => initBus cfg
  | .clear => clearBus cfg
  | .goto page column => gotoBus cfg page column
  | .wchar page column ch => wcharBus cfg page column ch
  | .wstr page column _ => stringBus cfg page column.toNat text
  | .wpct _ => wpctBus cfg text
  | .bar height => if height.toNat ≤ 64 then barBus cfg height.toNat else []
  | .itoa _ => []
  | .selchip id => [.sel (chipOfId id)]
  | .wcmd byte => [.cmd byte]
  | .wdata byte => [.data byte]
  | .reserved _ => []
  | .lcdSetPage _ => []
  | .lcdSetCol _ => []
  | .lcdDisplayOn => []
  | .lcdStartLine _ => []

end Sys2Proof.Machine
end

