-- ==== Sys2Proof/Machine/HostPort.lean ====
section
/-! DEFINITION. What the host and the environment can do to the machine and see of it (`10_state.md` R10, R21): the
ports of the host side, and the inputs. -/

namespace Sys2Proof.Machine

/-- The host appends bytes to the command stream (R10, R70). -/
def State.offer (s : State) (bytes : List Byte) : State := { s with stream := s.stream ++ bytes }

/-- The host drives the hardware reset input (R10, R21). -/
def State.driveReset (s : State) (level : Bool) : State := { s with rst_n := level }

/-- The environment fixes the levels DB7 will show at the next samples that nothing has fixed yet (R49). -/
def State.supply (s : State) (levels : List Bool) : State := { s with db7 := s.db7 ++ levels }

/-- `cmd_ready`: 1 when DPIPE will take a stream byte, idle or in an operand or text fetch (R21). -/
def State.cmdReady (s : State) : Bool :=
  s.rst_n &&
    match s.todo with
    | [] => !s.RUN
    | .fetch _ :: _ => true
    | .chars _ (_ + 1) :: _ => true
    | _ => false

/-- `run` (R17, R21). -/
def State.runPort (s : State) : Bool := s.RUN

/-- `diag` (R18, R21). -/
def State.diagPort (s : State) : BitVec 4 := s.DIAG

/-- `rlen` (R19, R21). -/
def State.rlenPort (s : State) : BitVec 3 := s.RLEN

/-- `rbuf_data` for an `rbuf_addr` below 5; nothing is said of the others (R21). -/
def State.rbufPort (s : State) (addr : BitVec 3) : Option Byte := s.RBUF[addr.toNat]?

/-- `db_oe` and the byte DPIPE drives while it is 1 (R21). -/
def State.busOut (s : State) : Option Byte := if s.pins.DBDIR then some s.pins.DBOUT else none

end Sys2Proof.Machine
end

