-- ==== Sys2Proof/Safety.lean ====
section
/-! DEFINITION. What counts as a safe state and a safe host, in the terms the claims use: the bus discipline of R100,
R105, R201 and R202 as an invariant, and the host's duties of `70_reset_and_hazards.md` section 3. -/

namespace Sys2Proof.Machine

/-! ## The discipline of what is left to do -/

/-- What is known of the pins at a point of the operation in progress. -/
structure Known where
  fsm : Fsm
  e : Bool
  rstn : Bool
  dbdir : Option Bool
  rw : Option Bool
  rs : Option Bool
  /-- Which chip selects are asserted; `none` when it is only known that not both are. -/
  cs : Option (Bool × Bool)
deriving DecidableEq, Repr

/-- Everything is known of the pins of a state. -/
def State.known (s : State) : Known where
  fsm := s.FSM
  e := s.pins.E
  rstn := s.pins.RSTN
  dbdir := some s.pins.DBDIR
  rw := some s.pins.RW
  rs := some s.pins.RS
  cs := some (s.pins.selects s.cfg .chip1, s.pins.selects s.cfg .chip2)

/-- Between procedures: E is low, the panel is not held in reset, the bus layer is idle. -/
def Known.rest (k : Known) : Bool := !k.e && k.rstn && k.fsm == .idle

/-- After a procedure that may have done nothing. -/
def Known.blur (k : Known) : Known := { k with dbdir := none, rw := none, rs := none, cs := none }

/-- What is known after a `PIN` event; `none` where it would break the discipline. Lines change while E is low; a pulse
begins as a write or as a read, never with both sides driving the bus; a line is asserted only beside a deasserted one. -/
def Known.afterPin (active : Bool) (k : Known) (n : PinName) (l : Bool) : Option Known :=
  match n with
  | .RS => if k.e then none else some { k with rs := some l }
  | .RW => if k.e then none else some { k with rw := some l }
  | .RSTN => if k.e then none else some { k with rstn := l }
  | .E =>
    if l then
      match k.dbdir, k.rw with
      | some d, some w => if !k.e && d != w then some { k with e := true } else none
      | _, _ => none
    else if k.e then some { k with e := false } else none
  | .CS1 =>
    match k.cs with
    | some (_, b) => if !k.e && !(l == active && b) then some { k with cs := some (l == active, b) } else none
    | none => none
  | .CS2 =>
    match k.cs with
    | some (a, _) => if !k.e && !(l == active && a) then some { k with cs := some (a, l == active) } else none
    | none => none

/-- The levels at which the status of a chip may be sampled, but for E (R49, R101). -/
def Known.polling (k : Known) : Bool := k.dbdir == some false && k.rw == some true && k.rs == some false

/-- What is known after a busy-wait, or a transfer that leaves RS at `rs` (R100). -/
def Known.afterBus (k : Known) (f : Fsm) (rs : Bool) : Known :=
  { k with fsm := f, dbdir := some true, rw := some false, rs := some rs }

/-- What is known after an act; `none` where the act would break the discipline. -/
def Act.flow (active : Bool) (a : Act) (k : Known) : Option Known :=
  match a with
  | .dir out => if k.e then none else some { k with dbdir := some out }
  | .dbw _ => if k.e then none else some k
  | .pin n l => k.afterPin active n l
  | .rd7 => if k.e && k.polling then some { k with e := false } else none
  | .delay _ => some k
  | .fsm f => some { k with fsm := f }
  | .setK _ => some k
  | .setPgi _ => some k
  | .setHalf _ => some k
  | .setRow _ => some k
  | .clearDiag => some k
  | .fetch _ => some k
  | .dispatch => if k.rest then some k.blur else none
  | .busyWait => if k.e then none else some (k.afterBus .busyPoll false)
  | .poll => if !k.e && k.polling then some k else none
  | .selChip _ => if k.rest then some { k.afterBus .idle false with cs := none } else none
  | .wcmd _ => if k.rest then some (k.afterBus .idle false) else none
  | .wdata _ => if k.rest then some (k.afterBus .idle true) else none
  | .goTo _ _ => if k.rest then some k.blur else none
  | .wchar _ _ _ => if k.rest then some k.blur else none
  | .glyphCol => if k.rest then some (k.afterBus .idle true) else none
  | .fill _ _ => if k.rest then some k.blur else none
  | .clear => if k.rest then some k.blur else none
  | .string _ _ _ => if k.rest then some k.blur else none
  | .chars _ _ => if k.rest then some k.blur else none
  | .advance => some k
  | .bar _ => if k.rest then some k.blur else none
  | .barRow _ _ _ => if k.rest then some k.blur else none
  | .itoa _ => some k
  | .badCmd => some k
  | .finish => if k.rest then some k else none

/-- What is known after a list of acts. -/
def flows (active : Bool) : List Act → Known → Option Known
  | [], k => some k
  | a :: l, k => (a.flow active k).bind (flows active l)

/-- The invariant of the machine: T_E is large enough (the configuration premise of R200), the chip selects are exclusive
(R45, R202), what is left to do keeps the bus discipline, display data RAM is in its canonical form, and between operations
nothing is left to do, E is low, the panel is not held in reset and the bus layer is idle (R13, R17, R100). -/
structure State.Inv (s : State) : Prop where
  pulse : s.cfg.pulseValid = true
  exclusive : s.addressed ≠ .both
  flow : (flows s.cfg.csActive s.todo s.known).isSome
  ramWf : s.ram.wf
  running : s.RUN = true → ∃ l, s.todo = l ++ [.finish] ∧ Act.finish ∉ l
  idle : s.RUN = false → s.todo = [] ∧ s.known.rest

/-- The pin trace is the history of the pin registers, and every event of it kept the bus discipline (R201). -/
structure State.TraceInv (s : State) : Prop where
  history : replay (Pins.reset s.cfg) s.pinTrace = s.pins
  discipline : allDisciplined (Pins.reset s.cfg) s.pinTrace

/-! ## Runs -/

/-- `n` steps in a row. -/
def stepN : Nat → State → Out
  | 0, s => .next s
  | n + 1, s =>
    match step s with
    | .next t => stepN n t
    | .fault r => .fault r
    | .refused r => .refused r

/-- The machine, stepping on from `s`, comes to `t`. -/
def State.stepsTo (s t : State) : Prop := ∃ n, stepN n s = .next t

/-- Enough samples at hand for `n` busy-waits to end: each ends at the first sample that is 0 (R175). Where there is a
busy-wait, T_E is large enough for a chip to answer it (R200). -/
def State.answers (s : State) (n : Nat) : Prop := n ≤ s.db7.count false ∧ (0 < n → s.cfg.pulseValid = true)

/-! ## What a completed operation leaves -/

/-- The operation of opcode `opcode` and `n` stream bytes that began in `s` has ended in `t` with the bus trace
`entries`: RUN is 0 again (R71), SP has advanced by the operation's length (R14, R71), the pins have their exit levels
(R100), the bus layer is idle (R13), and the chips show what the bus trace does to them (R9). The result buffer, the
stream, the inputs and the parameters are as before. -/
structure State.Performed (s t : State) (opcode : Byte) (n : Nat) (entries : List BusEntry) : Prop where
  run : t.RUN = false
  todo : t.todo = []
  opc : t.lat.OPC = opcode
  sp : t.SP = s.SP + n
  bus : t.busSince s = entries
  pins : t.pins = exitPins s.cfg s.pins entries
  fsm : t.FSM = if entries = [] then s.FSM else .idle
  display : t.display = (displayEffect (s.pins.selected s.cfg) entries s).display
  db7 : t.db7.count false = s.db7.count false - entries.length
  result : t.RBUF = s.RBUF ∧ t.RLEN = s.RLEN
  stream : t.stream = s.stream
  rst : t.rst_n = s.rst_n
  cfg : t.cfg = s.cfg

/-- Every byte of display data RAM reads as before. -/
def State.SameBytes (s t : State) : Prop := ∀ k page lcol, t.ddram k page lcol = s.ddram k page lcol

/-- Every byte of display data RAM outside a set reads as before. -/
def State.BytesOutside (s t : State) (stored : ChipId → BitVec 3 → BitVec 6 → Prop) : Prop :=
  ∀ k page lcol, ¬ stored k page lcol → t.ddram k page lcol = s.ddram k page lcol

/-- A chip's fixed registers are as before (its busy flag is a draw at every sample, R49). -/
def State.SameChip (s t : State) (k : ChipId) : Prop := (t.chip k).regs = (s.chip k).regs

/-- R48: the local column of byte `i` of a run of data writes that starts at column `y`; `none` where it is undefined. -/
def runColumn (cfg : Config) (y : BitVec 6) : Nat → Option (BitVec 6)
  | 0 => some y
  | i + 1 => (runColumn cfg y i).bind (columnAfter cfg)

/-- The working registers that only CLEAR, BAR and fills use are as before (R16). -/
def Work.SameLoops (w v : Work) : Prop :=
  v.CNT = w.CNT ∧ v.PGI = w.PGI ∧ v.HALF = w.HALF ∧ v.ROW = w.ROW

/-- The working registers that only strings, characters and ITOA use are as before (R16). -/
def Work.SameText (w v : Work) : Prop :=
  v.CUR = w.CUR ∧ v.TI = w.TI ∧ v.STOP = w.STOP ∧ v.IDX = w.IDX ∧ v.K = w.K ∧ v.Q = w.Q

/-- The text bytes of an operation with `n` opcode and operand bytes are in the stream. -/
def State.holdsText (s : State) (n : Nat) (text : List Byte) : Prop := text <+: s.stream.drop (s.SP + n)

/-- The two states differ at most in what DPIPE never reads: the chips, display data RAM, DIAG, the result buffer, and the
count of free values drawn for them (R7, R22, R173). -/
structure State.Agree (s u : State) : Prop where
  cfg : u.cfg = s.cfg
  pins : u.pins = s.pins
  DBIN : u.DBIN = s.DBIN
  FSM : u.FSM = s.FSM
  SP : u.SP = s.SP
  RUN : u.RUN = s.RUN
  todo : u.todo = s.todo
  lat : u.lat = s.lat
  work : u.work = s.work
  stream : u.stream = s.stream
  rst_n : u.rst_n = s.rst_n
  db7 : u.db7 = s.db7
  sampled : u.sampled = s.sampled
  trace : u.trace = s.trace

/-! ## The host's duties (R195, R203, R204, R207) -/

/-- R204, R203: what a host may issue: no character or string at invalid coordinates, no single character across the
seam or the right edge, no bar above 64, no raw byte that is no command, no reserved opcode. -/
def hostMayIssue (cfg : Config) : Instr → Bool
  | .wchar page column _ => coordsValid page column && (lcolOf column).toNat + adv ≤ 64
  | .wstr page column _ => coordsValid page column
  | .bar height => height.toNat ≤ barMax
  | .wcmd b => (decodeCommand cfg b).isSome
  | .reserved _ => false
  | _ => true

end Sys2Proof.Machine
end

