-- ==== Sys2Proof/Certificates/Slice0/Obligations.lean ====
section
/-! DEFINITION. The statements for the provers. `exec` of a host operation is its acceptance (R71), one step without a pin
event; `u.stepsTo t` says that the machine's own steps, each at most one pin event, lead on from there to `t`. -/

open Sys2Proof Sys2Proof.Machine

/-! ## Encodings -/

/-- R71 to R76: reading the bytes of a well-formed host operation gives it back, text included, and leaves what follows. -/
def Obligations.OperationRoundTrip : Prop :=
  ∀ (cfg : Config) (o : Operation) (rest : List Byte), o.wf = true →
    decodeOperation (encodeOperation cfg o ++ rest) = some (o, rest)

/-- The other direction: whatever the stream decoder reads is well formed and is the encoding of the bytes it consumed. -/
def Obligations.OperationDecodedIsEncoded : Prop :=
  ∀ (cfg : Config) (bytes rest : List Byte) (o : Operation), decodeOperation bytes = some (o, rest) →
    o.wf = true ∧ encodeOperation cfg o ++ rest = bytes

/-- R77: any byte sequence is a sequence of whole operations and then the bytes of at most one incomplete operation. -/
def Obligations.StreamDecodingTotal : Prop :=
  ∀ (cfg : Config) (bytes : List Byte),
    (∀ o ∈ (decodeStream bytes).1, o.wf = true) ∧
    (decodeStream bytes).1.flatMap (encodeOperation cfg) ++ (decodeStream bytes).2 = bytes ∧
    decodeOperation (decodeStream bytes).2 = none

/-- R47, R78, R79: with bases as R4 asks, a chip reads each command byte back as the command it was made from. -/
def Obligations.CommandRoundTrip : Prop :=
  ∀ (cfg : Config) (c : Command), cfg.basesValid = true → decodeCommand cfg (encodeCommand cfg c) = some c

/-- R47: whatever byte a chip reads as a command is that command's byte, so that no byte is two commands. -/
def Obligations.CommandDecodedIsEncoded : Prop :=
  ∀ (cfg : Config) (b : Byte) (c : Command), cfg.basesValid = true → decodeCommand cfg b = some c →
    encodeCommand cfg c = b

/-- R72, R73, R78: words written out from the encoding tables. -/
def Obligations.WordsDecode : Prop :=
  decodeTableWord 8 0x01 = some .init ∧ decodeTableWord 24 0x460303 = some (.goto 3 70) ∧
  decodeTableWord 32 0x4F020004 = some (.wchar 0 2 0x4F) ∧ decodeTableWord 16 0x0A07 = some (.bar 10) ∧
  decodeTableWord 16 0x3F11 = some (.wcmd 0x3F) ∧ decodeTableWord 8 0xBB = some (.lcdSetPage 3)

/-- R75: byte 1 is the low byte of ITOA's operand and byte 2 the high byte. -/
def Obligations.ItoaOperand : Prop :=
  ∀ (lo hi : Byte) (rest : List Byte), decode (0x08 :: lo :: hi :: rest) = .ok (.itoa (hi ++ lo), rest)

/-! ## The step -/

/-- R71: when idle, a step is exec of the operation that starts at SP. -/
def Obligations.StepRunsOperation : Prop :=
  ∀ (s : State) (i : Instr) (rest : List Byte), s.rst_n = true → s.RUN = false →
    decode (s.stream.drop s.SP) = .ok (i, rest) → step s = exec i s

/-- R46, R47: the step that ends a command write pulse carries out, on the pins with E low and the event recorded, the
command on the bus. -/
def Obligations.StepRunsCommand : Prop :=
  ∀ (s : State) (c : Command) (rest : List Act), s.rst_n = true → s.RUN = true → s.todo = .pin .E false :: rest →
    s.pins.E = true → s.pins.RW = false → s.pins.DBDIR = true → s.pins.RS = false →
    decodeCommand s.cfg s.pins.DBOUT = some c →
    step s = exec c.toInstr { s with
      todo := rest, pins := { s.pins with E := false }, trace := .pin .E false :: s.trace }

/-- R32, R70: a machine with no byte at SP stays as it is where it is idle, where it waits for an operand byte, and where it
waits for a text byte. -/
def Obligations.StepWaitsForTheHost : Prop :=
  ∀ s : State, s.rst_n = true → s.stream[s.SP]? = none →
    (s.RUN = false → step s = .next s) ∧
    (∀ o rest, s.RUN = true → s.todo = .fetch o :: rest → step s = .next s) ∧
    (∀ page n rest, s.RUN = true → s.todo = .chars page (n + 1) :: rest → step s = .next s)

/-- R70, R71: an operation whose operand bytes are fetched one by one comes to the state in which one whose bytes were all
there is accepted. -/
def Obligations.OperandsFetchedOneByOne : Prop :=
  ∀ (s : State) (i : Instr) (rest : List Byte) (opcode : Byte), s.rst_n = true → s.stream[s.SP]? = some opcode →
    decode (s.stream.drop s.SP) = .ok (i, rest) → ∃ u, exec i s = .next u ∧ (s.acceptPartial opcode).stepsTo u

/-! ## Reset -/

/-- R30: the values the rule gives for the state after hardware reset. -/
def Obligations.ResetValues : Prop :=
  let s := State.reset
  s.pins = { DBOUT := 0x00, DBDIR := false, RS := false, RW := false, E := false, CS1 := !s.cfg.csActive,
             CS2 := !s.cfg.csActive, RSTN := true } ∧
  s.FSM = .idle ∧ s.RUN = false ∧ s.DIAG = 0 ∧ s.RLEN = 0 ∧ s.SP = 0 ∧ s.stream = [] ∧ s.todo = []

/-- R30, R190: while `rst_n` is low a step leaves the reset state of DPIPE, whatever was in progress; the panel is not
touched when E is low and the panel reset line is released. -/
def Obligations.HardwareReset : Prop :=
  ∀ s : State, s.rst_n = false → ∃ t, step s = .next t ∧
    t.pins = { DBOUT := 0x00, DBDIR := false, RS := false, RW := false, E := false, CS1 := !s.cfg.csActive,
               CS2 := !s.cfg.csActive, RSTN := true } ∧
    t.FSM = .idle ∧ t.RUN = false ∧ t.DIAG = 0 ∧ t.RLEN = 0 ∧ t.SP = 0 ∧ t.stream = [] ∧ t.todo = [] ∧
    t.cfg = s.cfg ∧ t.rst_n = false ∧
    (s.pins.E = false → s.pins.RSTN = true → s.SameChip t .chip1 ∧ s.SameChip t .chip2 ∧ s.SameBytes t)

/-- R193, U12: what a hardware reset in the middle of an enable pulse can change of the panel, all of it on the addressed
chip. A command write: the one register the byte names, and no byte of display data RAM. A data write: the one byte at the
cursor, which becomes unspecified; that its column register may advance as well, and that with an undefined column the byte
is at a free column, are log entries 14 and 12. Where the byte on the bus names nothing, a status read or a byte that is no
command: one register or one byte or nothing, which of them the free value `Config.drawRace` says (log entry 14). -/
def Obligations.HardwareResetRace : Prop :=
  ∀ (s : State) (k : ChipId), s.rst_n = false → s.pins.RSTN = true → s.addressed = .one k → s.pins.E = true →
    let c := s.chip k
    let n := s.draws
    let stored (page : BitVec 3) (lcol : BitVec 6) (j : ChipId) (p : BitVec 3) (l : BitVec 6) : Prop :=
      j = k ∧ p = page ∧ l = lcol
    ∃ t, step s = .next t ∧ (∀ j, j ≠ k → s.SameChip t j) ∧
      (∀ y, s.pins.DBDIR = true → s.pins.RW = false → s.pins.RS = true → c.Y = some y →
        s.BytesOutside t (stored c.X y) ∧ t.ddram k c.X y = none ∧
        ((t.chip k).regs = (c.X, some y, c.Z, c.ON) ∨ (t.chip k).regs = (c.X, columnAfter s.cfg y, c.Z, c.ON))) ∧
      (s.pins.DBDIR = true → s.pins.RW = false → s.pins.RS = true → c.Y = none →
        s.BytesOutside t (stored c.X (Config.drawCol n)) ∧ t.ddram k c.X (Config.drawCol n) = none ∧ s.SameChip t k) ∧
      (∀ command, s.pins.DBDIR = true → s.pins.RW = false → s.pins.RS = false →
        decodeCommand s.cfg s.pins.DBOUT = some command →
        s.SameBytes t ∧ (t.chip k).regs =
          match command with
          | .setPage _ => ((t.chip k).X, c.Y, c.Z, c.ON)
          | .setCol _ => (c.X, (t.chip k).Y, c.Z, c.ON)
          | .startLine _ => (c.X, c.Y, (t.chip k).Z, c.ON)
          | .displayOn => (c.X, c.Y, c.Z, (t.chip k).ON)) ∧
      (s.pins.DBDIR = false ∨ s.pins.RW = true ∨
          (s.pins.RS = false ∧ decodeCommand s.cfg s.pins.DBOUT = none) →
        match Config.drawRace n with
        | .nothing => s.SameBytes t ∧ s.SameChip t k
        | .byte => s.BytesOutside t (stored (Config.drawPage n) (Config.drawCol n)) ∧
            t.ddram k (Config.drawPage n) (Config.drawCol n) = none ∧ s.SameChip t k
        | .X => s.SameBytes t ∧ (t.chip k).regs = ((t.chip k).X, c.Y, c.Z, c.ON)
        | .Y => s.SameBytes t ∧ (t.chip k).regs = (c.X, (t.chip k).Y, c.Z, c.ON)
        | .Z => s.SameBytes t ∧ (t.chip k).regs = (c.X, c.Y, (t.chip k).Z, c.ON)
        | .ON => s.SameBytes t ∧ (t.chip k).regs = (c.X, c.Y, c.Z, (t.chip k).ON))

/-! ## Invariants -/

/-- The reset state meets the machine's invariant and the invariant of its pin trace. -/
def Obligations.InvariantsAtReset : Prop := State.reset.Inv ∧ State.reset.TraceInv

/-- Every step keeps the invariant: the chip selects are exclusive (R45, R202), what is left to do keeps the bus
discipline (R100, R105, R201), display data RAM stays canonical, an operation ends once. -/
def Obligations.StepKeepsInvariant : Prop :=
  ∀ s t : State, s.Inv → step s = .next t → t.Inv

/-- R170: from every state that meets the invariant a step has a next state; no operation with any operands faults or is
refused. -/
def Obligations.NoStepFaults : Prop := ∀ s : State, s.Inv → ∃ t, step s = .next t

/-- R201, R105: every step keeps the half-duplex discipline of the pin trace, and the pin trace is the history of the pin
registers. R8, R10, R82: a step adds at most one event to it, so that a hardware reset can fall between any two (R193). -/
def Obligations.StepKeepsBusDiscipline : Prop :=
  ∀ s t : State, s.Inv → s.TraceInv → step s = .next t →
    t.TraceInv ∧ (s.rst_n = true → t.pinTrace = s.pinTrace ∨ ∃ e, t.pinTrace = s.pinTrace ++ [e])

/-- R11 (d), R58: no step writes a parameter, and none writes the stream; only hardware reset discards it. -/
def Obligations.ParametersAndStreamNotWritten : Prop :=
  ∀ s t : State, step s = .next t → t.cfg = s.cfg ∧ t.rst_n = s.rst_n ∧ (s.rst_n = true →
    t.stream = s.stream ∧ s.SP ≤ t.SP)

/-- R18: a bit of DIAG, once set, stays set through every step but the one act of INIT that clears the register, and nothing
but the acceptance of INIT puts that act among what is left to do. -/
def Obligations.DiagIsSticky : Prop :=
  ∀ s t : State, s.rst_n = true → step s = .next t →
    (∀ n, s.todo.head? ≠ some .clearDiag → s.DIAG.getLsbD n = true → t.DIAG.getLsbD n = true) ∧
    (.clearDiag ∉ s.todo → .clearDiag ∈ t.todo → t.lat.OPC = 0x01)

/-- R82, R49: what a sample does. In a status read DBIN[7] and SAMP take the level of DB7 (at hand here: its first entry) and
so does the busy flag of the chip that is addressed, whose line it is; the other chip's, and both where none is addressed,
stay. That no other register of a chip changes is R49's sentence marked general knowledge (PRESUMED, log entry 18).
R200, U11 (log entry 27): where a chip is addressed and T_E is too short for it, the sample is refused. That a sample while
DPIPE drives the bus is the fault `sampleWhileDriving` is the model's own choice (DESIGN CHOICE, log entry 16): R82 says only
that RD7 is legal while DBDIR = 0, and no rule gives the stop. -/
def Obligations.SampleReadsBusyFlag : Prop :=
  ∀ (s : State) (b : Bool) (l : List Bool) (rest : List Act), s.rst_n = true → s.RUN = true → s.todo = .rd7 :: rest →
    s.db7 = b :: l → s.pins.E = true → s.pins.RW = true → s.pins.RS = false →
    (s.pins.DBDIR = true → step s = .fault .sampleWhileDriving) ∧
    (s.pins.DBDIR = false → s.addressed ≠ .both → s.addressed = .nobody ∨ s.cfg.pulseValid = true →
      ∃ t, step s = .next t ∧ t.DBIN.getLsbD 7 = b ∧ t.work = { s.work with SAMP := b } ∧ t.db7 = l ∧
        t.trace = .rd7 b :: s.trace ∧ t.pins = s.pins ∧ t.ram = s.ram ∧ t.DIAG = s.DIAG ∧
        (∀ k, s.addressed = .one k → t.chip k = { s.chip k with BUSY := b }) ∧
        (∀ k, s.addressed ≠ .one k → t.chip k = s.chip k)) ∧
    (∀ k, s.pins.DBDIR = false → s.addressed = .one k → s.cfg.pulseValid = false →
      step s = .refused .enablePulseTooShort)

/-- R7, R22, R82: while an operation runs, the chips' registers and display data RAM change only at a falling edge of E
or at an event of the panel reset line. -/
def Obligations.DisplayChangesAtPinEvents : Prop :=
  ∀ (s t : State) (a : Act) (rest : List Act), s.rst_n = true → s.RUN = true → s.todo = a :: rest →
    a ≠ .pin .E false → (∀ l, a ≠ .pin .RSTN l) → step s = .next t →
    s.SameChip t .chip1 ∧ s.SameChip t .chip2 ∧ s.SameBytes t

/-- R7, R22, R173: DPIPE reads nothing back. Two states that differ only in the chips, display data RAM, DIAG and the
result buffer step alike, event for event. -/
def Obligations.NothingIsReadBack : Prop :=
  ∀ s u t : State, s.Agree u → step s = .next t → ∃ v, step u = .next v ∧ t.Agree v

/-! ## Bus protocol layer -/

/-- R102: SELCHIP completes, selects the chip its operand names or none, and changes nothing else but the lines of its
busy-wait. -/
def Obligations.SelchipSelects : Prop :=
  ∀ (id : Byte) (s : State), s.rst_n = true → s.answers 1 →
    ∃ u t, exec (.selchip id) s = .next u ∧ u.stepsTo t ∧ s.Performed t 0x10 2 [.sel (chipOfId id)] ∧
      t.addressed = (if id = 1 then .one .chip1 else if id = 2 then .one .chip2 else .nobody) ∧
      t.lat = { s.lat with OPC := 0x10, ID := id } ∧ t.work = { s.work with SAMP := false } ∧ t.DIAG = s.DIAG ∧
      s.SameChip t .chip1 ∧ s.SameChip t .chip2 ∧ s.SameBytes t

/-- R101, R102: the pin trace of SELCHIP 2 with a chip that is busy for `n` polls. -/
def Obligations.BusyWaitPinTrace : Prop :=
  ∀ (s : State) (n : Nat) (l : List Bool), s.rst_n = true → s.cfg.pulseValid = true →
    s.db7 = List.replicate n true ++ false :: l →
    let select : List PinEvent :=
      [.pin .CS1 (!s.cfg.csActive), .pin .CS2 (!s.cfg.csActive), .pin .CS2 s.cfg.csActive]
    let enter : List PinEvent := [.dir false, .pin .RW true, .pin .RS false]
    let poll (b : Bool) : List PinEvent := [.pin .E true, .delay .tE, .rd7 b, .pin .E false]
    let leave : List PinEvent := [.dir true, .pin .RW false]
    ∃ u t, exec (.selchip 2) s = .next u ∧ u.stepsTo t ∧ t.RUN = false ∧ t.db7 = l ∧ t.eventsSince s =
      select ++ enter ++ (List.replicate n (poll true)).flatten ++ poll false ++ leave

/-- R103, R104: the pin traces of WCMD and WDATA with a chip that is not busy. -/
def Obligations.TransferPinTrace : Prop :=
  ∀ (s : State) (b : Byte) (l : List Bool), s.rst_n = true → s.cfg.pulseValid = true → s.addressed ≠ .both →
    s.db7 = false :: l →
    let wait : List PinEvent := [.dir false, .pin .RW true, .pin .RS false, .pin .E true, .delay .tE, .rd7 false,
      .pin .E false, .dir true, .pin .RW false]
    let transfer (rs : Bool) : List PinEvent :=
      [.pin .RS rs, .pin .RW false, .dbw b, .pin .E true, .delay .tE, .pin .E false]
    (∃ u t, exec (.wcmd b) s = .next u ∧ u.stepsTo t ∧ t.RUN = false ∧ t.eventsSince s = wait ++ transfer false) ∧
    (∃ u t, exec (.wdata b) s = .next u ∧ u.stepsTo t ∧ t.RUN = false ∧ t.eventsSince s = wait ++ transfer true)

/-- R103, R47: WCMD completes; a command byte changes the one register of the addressed chip that it names. -/
def Obligations.WcmdCommands : Prop :=
  ∀ (b : Byte) (c : Command) (k : ChipId) (s : State), s.rst_n = true → s.answers 1 → s.addressed = .one k →
    decodeCommand s.cfg b = some c →
    ∃ u t, exec (.wcmd b) s = .next u ∧ u.stepsTo t ∧ s.Performed t 0x11 2 [.cmd b] ∧
      t.lat = { s.lat with OPC := 0x11, BY := b } ∧ t.work = { s.work with SAMP := false } ∧ t.DIAG = s.DIAG ∧
      s.SameBytes t ∧ (∀ j, j ≠ k → s.SameChip t j) ∧
      (t.chip k).regs =
        match c with
        | .setPage p => (p, (s.chip k).Y, (s.chip k).Z, (s.chip k).ON)
        | .setCol l => ((s.chip k).X, some l, (s.chip k).Z, (s.chip k).ON)
        | .startLine z => ((s.chip k).X, (s.chip k).Y, z, (s.chip k).ON)
        | .displayOn => ((s.chip k).X, (s.chip k).Y, (s.chip k).Z, true)

/-- R103, R47: WCMD with a byte that is no command completes too. What the addressed chip does is unspecified; the other
chip keeps its registers and its bytes. -/
def Obligations.WcmdUnknown : Prop :=
  ∀ (b : Byte) (k : ChipId) (s : State), s.rst_n = true → s.answers 1 → s.addressed = .one k →
    decodeCommand s.cfg b = none →
    ∃ u t, exec (.wcmd b) s = .next u ∧ u.stepsTo t ∧ s.Performed t 0x11 2 [.cmd b] ∧
      t.lat = { s.lat with OPC := 0x11, BY := b } ∧ t.work = { s.work with SAMP := false } ∧ t.DIAG = s.DIAG ∧
      (∀ j, j ≠ k → s.SameChip t j) ∧ s.BytesOutside t (fun j _ _ => j = k)

/-- R104, R48: WDATA completes; the byte is stored at the addressed chip's cursor, whose column advances by one, or after
column 63 to COL_AFTER_63. -/
def Obligations.WdataStores : Prop :=
  ∀ (b : Byte) (k : ChipId) (y : BitVec 6) (s : State), s.rst_n = true → s.answers 1 → s.addressed = .one k →
    (s.chip k).Y = some y →
    ∃ u t, exec (.wdata b) s = .next u ∧ u.stepsTo t ∧ s.Performed t 0x12 2 [.data b] ∧
      t.lat = { s.lat with OPC := 0x12, BY := b } ∧ t.work = { s.work with SAMP := false } ∧ t.DIAG = s.DIAG ∧
      t.ddram k (s.chip k).X y = some b ∧
      s.BytesOutside t (fun j p l => j = k ∧ p = (s.chip k).X ∧ l = y) ∧ (∀ j, j ≠ k → s.SameChip t j) ∧
      (t.chip k).regs = ((s.chip k).X, if y.toNat < 63 then some (y + 1) else s.cfg.colAfter63, (s.chip k).Z, (s.chip k).ON)

/-- R48: a data byte that arrives while the column register is undefined is stored at one column of the chip's page, any
column, and leaves the register undefined. -/
def Obligations.WdataUndefinedColumn : Prop :=
  ∀ (b : Byte) (k : ChipId) (s : State), s.rst_n = true → s.answers 1 → s.addressed = .one k →
    (s.chip k).Y = none →
    ∃ u t y, exec (.wdata b) s = .next u ∧ u.stepsTo t ∧ s.Performed t 0x12 2 [.data b] ∧
      t.lat = { s.lat with OPC := 0x12, BY := b } ∧ t.work = { s.work with SAMP := false } ∧ t.DIAG = s.DIAG ∧
      t.ddram k (s.chip k).X y = some b ∧
      s.BytesOutside t (fun j p l => j = k ∧ p = (s.chip k).X ∧ l = y) ∧ s.SameChip t .chip1 ∧ s.SameChip t .chip2

/-- R46, R206: with no chip addressed, the byte of WCMD or WDATA is lost and no chip changes. -/
def Obligations.TransferToNobody : Prop :=
  ∀ (b : Byte) (s : State), s.rst_n = true → s.answers 1 → s.addressed = .nobody →
    (∃ u t, exec (.wcmd b) s = .next u ∧ u.stepsTo t ∧ s.Performed t 0x11 2 [.cmd b] ∧
      t.lat = { s.lat with OPC := 0x11, BY := b } ∧ t.work = { s.work with SAMP := false } ∧ t.DIAG = s.DIAG ∧
      s.SameChip t .chip1 ∧ s.SameChip t .chip2 ∧ s.SameBytes t) ∧
    (∃ u t, exec (.wdata b) s = .next u ∧ u.stepsTo t ∧ s.Performed t 0x12 2 [.data b] ∧
      t.lat = { s.lat with OPC := 0x12, BY := b } ∧ t.work = { s.work with SAMP := false } ∧ t.DIAG = s.DIAG ∧
      s.SameChip t .chip1 ∧ s.SameChip t .chip2 ∧ s.SameBytes t)

/-- R174, R178: a busy-wait whose samples are all 1 does not end: after any number of busy answers SELCHIP, WCMD and WDATA
are still in it, RUN is 1, and the chips are as before. -/
def Obligations.BusyPanelHangs : Prop :=
  ∀ (i : Instr) (b : Byte) (s : State), s.rst_n = true → s.cfg.pulseValid = true →
    i = .selchip b ∨ i = .wcmd b ∨ i = .wdata b → false ∉ s.db7 → s.addressed ≠ .both →
    ∃ u t, exec i s = .next u ∧ u.stepsTo t ∧ t.RUN = true ∧ t.FSM = .busyPoll ∧ t.db7 = [] ∧ t.SP = s.SP + 2 ∧
      t.cmdReady = false ∧ t.todo.head? = some .rd7 ∧ t.sampled = s.sampled + s.db7.length ∧
      s.SameChip t .chip1 ∧ s.SameChip t .chip2 ∧ s.SameBytes t

/-- R101, R174: a poll that reads 1 comes back, after its four events, to the same place with nothing else done; there is
no limit and no timeout. That the chips' registers and display data RAM are as before is R49's sentence "A status read
changes no chip state", which the spec marks as general knowledge (PRESUMED, log entry 18). -/
def Obligations.PollRepeats : Prop :=
  ∀ (s : State) (rest : List Act) (l : List Bool), s.rst_n = true → s.cfg.pulseValid = true → s.RUN = true →
    s.todo = .poll :: rest → s.db7 = true :: l → s.pins.DBDIR = false → s.pins.RW = true → s.pins.RS = false →
    s.addressed ≠ .both →
    ∃ t, stepN 5 s = .next t ∧ t.todo = .poll :: rest ∧ t.db7 = l ∧
      t.eventsSince s = [.pin .E true, .delay .tE, .rd7 true, .pin .E false] ∧
      t.RUN = true ∧ t.FSM = s.FSM ∧ t.SP = s.SP ∧ t.pins = { s.pins with E := false } ∧
      s.SameChip t .chip1 ∧ s.SameChip t .chip2 ∧ s.SameBytes t

/-! ## Controller commands -/

/-- R47: each of the four commands changes its own register of the addressed chip and nothing else in the machine. T_E large
enough is the configuration premise of R200. -/
def Obligations.CommandsSetOneRegister : Prop :=
  ∀ (k : ChipId) (s : State), s.cfg.pulseValid = true → s.addressed = .one k →
    (∀ page, exec (.lcdSetPage page) s = .next (s.setChip k { s.chip k with X := page })) ∧
    (∀ lcol, exec (.lcdSetCol lcol) s = .next (s.setChip k { s.chip k with Y := some lcol })) ∧
    exec .lcdDisplayOn s = .next (s.setChip k { s.chip k with ON := true }) ∧
    (∀ line, exec (.lcdStartLine line) s = .next (s.setChip k { s.chip k with Z := line }))

/-- R46: a command that arrives while no chip is addressed changes nothing. R45, U9 (log entry 15, the model's choice):
while both are, it stops. R200, U11 (log entry 27): where one is and T_E is below the controller's minimum, it is
refused. -/
def Obligations.CommandsNeedOneChip : Prop :=
  ∀ (c : Command) (s : State),
    (s.addressed = .nobody → exec c.toInstr s = .next s) ∧
    (s.addressed = .both → exec c.toInstr s = .fault .bothChipsAddressed) ∧
    (∀ k, s.addressed = .one k → s.cfg.pulseValid = false → exec c.toInstr s = .refused .enablePulseTooShort)

/-! ## Addressing translator -/

/-- R42, R120: logical columns 0..127 and the pairs of a chip and a local column correspond one to one, and column `c` is
column `64 (chip - 1) + lcol`. -/
def Obligations.ColumnMapping : Prop :=
  (∀ c : Byte, c.toNat < 128 → c.toNat = 64 * (chipOf c).index + (lcolOf c).toNat) ∧
  (∀ (k : ChipId) (l : BitVec 6), ∃! c : Byte, c.toNat < 128 ∧ chipOf c = k ∧ lcolOf c = l)

/-- R121, R122: GOTO with valid coordinates completes: one selection and two commands, page first; the selected chip's
cursor is the page and the local column, and nothing else of the chips changes. -/
def Obligations.GotoPositions : Prop :=
  ∀ (page column : Byte) (s : State), s.rst_n = true → page.toNat < 8 → column.toNat < 128 →
    s.cfg.basesValid = true → s.answers 3 →
    ∃ u t, exec (.goto page column) s = .next u ∧ u.stepsTo t ∧
      s.Performed t 0x03 3 [.sel (some (chipOf column)), .cmd (s.cfg.setPageBase ||| page),
        .cmd (s.cfg.setColBase ||| (lcolOf column).setWidth 8)] ∧
      t.lat = { s.lat with OPC := 0x03, PG := page, COLR := column } ∧ t.DIAG = s.DIAG ∧
      s.work.SameLoops t.work ∧ s.work.SameText t.work ∧
      t.work.CHIPID.toNat = (chipOf column).index + 1 ∧ t.work.LCOL = lcolOf column ∧
      t.addressed = .one (chipOf column) ∧
      (t.chip (chipOf column)).X.toNat = page.toNat ∧ (t.chip (chipOf column)).Y = some (lcolOf column) ∧
      (t.chip (chipOf column)).Z = (s.chip (chipOf column)).Z ∧
      (t.chip (chipOf column)).ON = (s.chip (chipOf column)).ON ∧
      (∀ j, j ≠ chipOf column → s.SameChip t j) ∧ s.SameBytes t

/-- R121: GOTO with an invalid page or column causes no pin event at all; it is recorded in DIAG.COORD and consumed. -/
def Obligations.GotoInvalidIgnored : Prop :=
  ∀ (page column : Byte) (s : State), s.rst_n = true → 8 ≤ page.toNat ∨ 128 ≤ column.toNat →
    ∃ u, exec (.goto page column) s = .next u ∧ u.stepsTo { s with
      lat := { s.lat with OPC := 0x03, PG := page, COLR := column }, SP := s.SP + 3
      DIAG := raise .COORD s.DIAG, RUN := false, todo := [] }

/-- R123: a data write that follows a valid GOTO stores its byte at the logical position GOTO named, and nowhere else. -/
def Obligations.GotoThenWdata : Prop :=
  ∀ (page column b : Byte) (s : State), s.rst_n = true → page.toNat < 8 → column.toNat < 128 →
    s.cfg.basesValid = true → s.answers 4 →
    ∃ u t v w, exec (.goto page column) s = .next u ∧ u.stepsTo t ∧ t.RUN = false ∧ t.SP = s.SP + 3 ∧
      exec (.wdata b) t = .next v ∧ v.stepsTo w ∧ w.RUN = false ∧ w.SP = s.SP + 5 ∧
      w.ddram (chipOf column) (page.setWidth 3) (lcolOf column) = some b ∧
      s.BytesOutside w (fun k p l => k = chipOf column ∧ p = page.setWidth 3 ∧ l = lcolOf column)

/-! ## Glyph renderer -/

/-- R130 to R133: WCHAR completes whatever its operands: a GOTO, which may do nothing, then exactly six data writes, the
last 0x00; an unsupported code sends the glyph BLANK_INDEX and sets CHSUB, invalid coordinates set COORD. -/
def Obligations.WcharSendsSixBytes : Prop :=
  ∀ (page column ch : Byte) (s : State), s.rst_n = true → s.addressed ≠ .both →
    s.answers (if page.toNat < 8 ∧ column.toNat < 128 then 9 else 6) →
    let idx := (if s.cfg.firstCode.toNat ≤ ch.toNat ∧ ch.toNat ≤ s.cfg.lastCode.toNat then ch - s.cfg.firstCode
      else s.cfg.blankIndex)
    let column' (j : Nat) : BusEntry := .data (s.cfg.fontByte idx.toNat j)
    ∃ u t, exec (.wchar page column ch) s = .next u ∧ u.stepsTo t ∧
      s.Performed t 0x04 4 (gotoBus s.cfg page column ++
        [column' 0, column' 1, column' 2, column' 3, column' 4, .data 0x00]) ∧
      t.lat = { s.lat with OPC := 0x04, PG := page, COLR := column, CH := ch } ∧
      t.DIAG = raiseIf (8 ≤ page.toNat || 128 ≤ column.toNat) .COORD
        (raiseIf (!(s.cfg.firstCode.toNat ≤ ch.toNat && ch.toNat ≤ s.cfg.lastCode.toNat)) .CHSUB s.DIAG) ∧
      t.work.IDX = idx ∧ s.work.SameLoops t.work ∧ t.work.CUR = s.work.CUR ∧ t.work.TI = s.work.TI ∧
      t.work.STOP = s.work.STOP ∧ t.work.Q = s.work.Q

/-- R130: the display effect of WCHAR on valid coordinates where the six columns fit: the five glyph columns and the zero
column, nothing else. -/
def Obligations.WcharDraws : Prop :=
  ∀ (page column ch : Byte) (s : State), s.rst_n = true → page.toNat < 8 → column.toNat < 128 →
    (lcolOf column).toNat ≤ 58 →
    s.cfg.basesValid = true → s.answers 9 →
    let k := chipOf column
    ∃ u t, exec (.wchar page column ch) s = .next u ∧ u.stepsTo t ∧
      (∀ i (h : i < 6), t.ddram k (page.setWidth 3) (lcolOf column + BitVec.ofNat 6 i) =
        some ((charBytes s.cfg ch)[i]'(by simpa [charBytes] using h))) ∧
      s.BytesOutside t (fun j p l => j = k ∧ p = page.setWidth 3 ∧
        (lcolOf column).toNat ≤ l.toNat ∧ l.toNat < (lcolOf column).toNat + 6) ∧
      (∀ j, j ≠ k → s.SameChip t j) ∧ t.addressed = .one k ∧
      (t.chip k).regs = (page.setWidth 3,
        if (lcolOf column).toNat = 58 then s.cfg.colAfter63 else some (lcolOf column + 6), (s.chip k).Z, (s.chip k).ON)

/-- R133 (b), (c), R51: near the seam and the right edge the surplus bytes of a character go where COL_AFTER_63 sends
them on the same chip and page; where two bytes fall on one column the later one stays. -/
def Obligations.WcharSurplus : Prop :=
  ∀ (page column ch : Byte) (n : BitVec 6) (s : State), s.rst_n = true → page.toNat < 8 → column.toNat < 128 →
    s.cfg.colAfter63 = some n → s.cfg.basesValid = true → s.answers 9 →
    let k := chipOf column
    let col (i : Nat) := runColumn s.cfg (lcolOf column) i
    ∃ u t, exec (.wchar page column ch) s = .next u ∧ u.stepsTo t ∧
      (∀ i (h : i < 6) (l : BitVec 6), col i = some l → (∀ j, i < j → j < 6 → col j ≠ some l) →
        t.ddram k (page.setWidth 3) l = some ((charBytes s.cfg ch)[i]'(by simpa [charBytes] using h))) ∧
      s.BytesOutside t (fun j p l => j = k ∧ p = page.setWidth 3 ∧ ∃ i, i < 6 ∧ col i = some l) ∧
      (∀ j, j ≠ k → s.SameChip t j)

/-- R131: on the bus an unsupported character is indistinguishable from the blank glyph's own character. -/
def Obligations.UnsupportedDrawsBlank : Prop :=
  ∀ (page column bad blank : Byte) (s : State), s.rst_n = true → s.addressed ≠ .both → s.answers 9 →
    supported s.cfg bad = false → supported s.cfg blank = true → blank - s.cfg.firstCode = s.cfg.blankIndex →
    ∃ t' t u' u, exec (.wchar page column bad) s = .next t' ∧ t'.stepsTo t ∧ t.RUN = false ∧ t.SP = s.SP + 4 ∧
      exec (.wchar page column blank) s = .next u' ∧ u'.stepsTo u ∧ u.RUN = false ∧ u.SP = s.SP + 4 ∧
      t.eventsSince s = u.eventsSince s ∧ t.display = u.display ∧ raised .CHSUB t.DIAG = true

/-! ## Drawing primitives -/

/-- R140, R141: CLEAR completes with its 1072 bus entries: every byte of display data RAM is zero, both page registers
are 7, both column registers COL_AFTER_63, chip 2 is selected. -/
def Obligations.ClearZeroesAll : Prop :=
  ∀ s : State, s.rst_n = true → s.cfg.basesValid = true → s.answers 1072 →
    ∃ u t, exec .clear s = .next u ∧ u.stepsTo t ∧ s.Performed t 0x02 1 (clearBus s.cfg) ∧
      t.lat = { s.lat with OPC := 0x02 } ∧
      t.DIAG = s.DIAG ∧ s.work.SameText t.work ∧ (∀ k p l, t.ddram k p l = some 0x00) ∧
      t.addressed = .one .chip2 ∧ (∀ k, (t.chip k).regs = (7, s.cfg.colAfter63, (s.chip k).Z, (s.chip k).ON))

/-- R142 to R145: WSTR completes with its text in the stream: it consumes its whole length, places the characters that
the seam rule and the stop rule give, sets TRUNC exactly when a byte is dropped, and on valid coordinates changes no
other page. -/
def Obligations.WstrPlacesText : Prop :=
  ∀ (page column len : Byte) (text : List Byte) (s : State), s.rst_n = true → text.length = len.toNat →
    s.holdsText 4 text →
    s.addressed ≠ .both → s.cfg.basesValid = true → s.answers (stringBus s.cfg page column.toNat text).length →
    let placed := placements column.toNat text
    ∃ u t, exec (.wstr page column len) s = .next u ∧ u.stepsTo t ∧
      s.Performed t 0x05 (4 + len.toNat) (stringBus s.cfg page column.toNat text) ∧
      t.lat = { s.lat with OPC := 0x05, PG := page, COLR := column, LEN := len, CH := t.lat.CH } ∧
      s.work.SameLoops t.work ∧ t.work.Q = s.work.Q ∧
      t.DIAG = raiseIf (placed.length < text.length) .TRUNC
        (raiseIf (placed.any fun p => !supported s.cfg p.2) .CHSUB
          (raiseIf (placed.any fun p => !coordsValid page (BitVec.ofNat 8 p.1)) .COORD s.DIAG)) ∧
      (page.toNat < 8 → column.toNat < 128 → s.BytesOutside t (fun _ p _ => p = page.setWidth 3))

/-- R130, R142: the picture of a string all of whose characters fit: each placed character stands at its columns, and
every other byte is as before. -/
def Obligations.WstrPicture : Prop :=
  ∀ (page column len : Byte) (text : List Byte) (s : State), s.rst_n = true → text.length = len.toNat →
    s.holdsText 4 text →
    page.toNat < 8 → column.toNat < 128 → (∀ p ∈ placements column.toNat text, p.1 ≤ 122) →
    s.addressed ≠ .both → s.cfg.basesValid = true → s.answers (stringBus s.cfg page column.toNat text).length →
    ∃ u t, exec (.wstr page column len) s = .next u ∧ u.stepsTo t ∧
      (∀ c ch, (c, ch) ∈ placements column.toNat text → ∀ i (h : i < 6),
        t.ddram (chipOf (BitVec.ofNat 8 c)) (page.setWidth 3) (lcolOf (BitVec.ofNat 8 (c + i))) =
          some ((charBytes s.cfg ch)[i]'(by simpa [charBytes] using h))) ∧
      s.BytesOutside t (fun k p l => p = page.setWidth 3 ∧ ∃ c ch i, (c, ch) ∈ placements column.toNat text ∧ i < 6 ∧
        k = chipOf (BitVec.ofNat 8 c) ∧ l = lcolOf (BitVec.ofNat 8 (c + i)))

/-- R142 to R145, on the bus of the machine: where WSTR places its characters. There is a list of columns, one for each
character placed, such that the bus trace positions at exactly those columns, in order, and sends six data bytes for each.
R143: the first is the start column, or 64 when that is 59 to 63, and each later one is six columns after the one before,
or 64 when six further would be 59 to 63; so none straddles the seam. R144, R145: a text that is not empty places its first
character, placing goes on exactly as long as text is left and the cursor, six columns after the last, is below 128; from
column 0 at most 21 are placed. -/
def Obligations.StringLayout : Prop :=
  ∀ (page column len : Byte) (text : List Byte) (s : State), s.rst_n = true → text.length = len.toNat →
    s.holdsText 4 text → s.addressed ≠ .both → s.answers (stringBus s.cfg page column.toNat text).length →
    let snap (c : Nat) : Nat := if 59 ≤ c ∧ c ≤ 63 then 64 else c
    ∃ u t, exec (.wstr page column len) s = .next u ∧ u.stepsTo t ∧ t.RUN = false ∧ t.SP = s.SP + 4 + len.toNat ∧
      ∃ columns : List Nat,
        (t.busSince s).filter (fun e => !e.isData) =
          columns.flatMap (fun c => gotoBus s.cfg page (BitVec.ofNat 8 c)) ∧
        (t.busSince s).countP BusEntry.isData = 6 * columns.length ∧
        (text ≠ [] → columns.head? = some (snap column.toNat)) ∧
        columns.IsChain (fun c d => d = snap (c + 6)) ∧
        (∀ c ∈ columns.dropLast, c + 6 < 128) ∧
        columns.length ≤ text.length ∧
        (columns.length < text.length → ∀ c ∈ columns.getLast?, 128 ≤ c + 6) ∧
        (∀ c ∈ columns, c < 64 → c + 6 ≤ 64) ∧
        (column = 0 → columns.length ≤ 21)

/-- R70, R142: WSTR whose text is not all there yet places what is there and waits in the operation; it has consumed the
bytes it was given. -/
def Obligations.WstrWaitsForText : Prop :=
  ∀ (page column len : Byte) (text : List Byte) (s : State), s.rst_n = true → s.stream.drop (s.SP + 4) = text →
    s.SP + 4 ≤ s.stream.length →
    text.length < len.toNat →
    s.addressed ≠ .both → s.answers (stringBus s.cfg page column.toNat text).length →
    ∃ u t, exec (.wstr page column len) s = .next u ∧ u.stepsTo t ∧ t.RUN = true ∧ t.SP = s.SP + 4 + text.length ∧
      t.busSince s = stringBus s.cfg page column.toNat text ∧ t.cmdReady = true ∧ step t = .next t

/-- R146: WPCT completes with its text in the stream: the erase run from (0, 100), then the string at the same origin;
chip 1 and the other pages of chip 2 are as before. -/
def Obligations.WpctDrawsLabel : Prop :=
  ∀ (len : Byte) (text : List Byte) (s : State), s.rst_n = true → text.length = len.toNat → s.holdsText 2 text →
    s.cfg.basesValid = true → s.answers (103 + 9 * (placements 100 text).length) → s.cfg.labelEraseLen = 100 →
    ∃ u t, exec (.wpct len) s = .next u ∧ u.stepsTo t ∧ s.Performed t 0x06 (2 + len.toNat) (wpctBus s.cfg text) ∧
      t.lat = { s.lat with OPC := 0x06, LEN := len, CH := t.lat.CH } ∧
      t.work.PGI = s.work.PGI ∧ t.work.HALF = s.work.HALF ∧ t.work.ROW = s.work.ROW ∧ t.work.Q = s.work.Q ∧
      t.DIAG = raiseIf ((placements 100 text).length < text.length) .TRUNC
        (raiseIf ((placements 100 text).any fun p => !supported s.cfg p.2) .CHSUB s.DIAG) ∧
      s.BytesOutside t (fun k p _ => k = .chip2 ∧ p = 0) ∧ s.SameChip t .chip1 ∧ t.addressed = .one .chip2

/-- R147 (a), (c): the erase run of an empty label with a numeric COL_AFTER_63 zeroes local columns min(n, 36) to 63 of
page 0 of chip 2, and nothing else. -/
def Obligations.WpctEraseRun : Prop :=
  ∀ (n : BitVec 6) (s : State), s.rst_n = true → s.cfg.basesValid = true → s.answers 103 → s.cfg.labelEraseLen = 100 →
    s.cfg.colAfter63 = some n →
    ∃ u t, exec (.wpct 0) s = .next u ∧ u.stepsTo t ∧ t.RUN = false ∧
      (∀ l : BitVec 6, min n.toNat 36 ≤ l.toNat → t.ddram .chip2 0 l = some 0x00) ∧
      s.BytesOutside t (fun k p l => k = .chip2 ∧ p = 0 ∧ min n.toNat 36 ≤ l.toNat) ∧
      (n = 0 → (t.chip2).Y = some 8)

/-- R148: BAR with a legal height completes: its 536 bus entries; at its end pages 5 and 6 of both chips are zero and
every other byte is as before. -/
def Obligations.BarCompletes : Prop :=
  ∀ (height : Byte) (s : State), s.rst_n = true → height.toNat ≤ 64 → s.cfg.basesValid = true → s.answers 536 →
    ∃ u t, exec (.bar height) s = .next u ∧ u.stepsTo t ∧ s.Performed t 0x07 2 (barBus s.cfg height.toNat) ∧
      t.lat = { s.lat with OPC := 0x07, HT := height } ∧ t.DIAG = s.DIAG ∧ s.work.SameText t.work ∧
      (∀ k p l, p = 5 ∨ p = 6 → t.ddram k p l = some 0x00) ∧
      s.BytesOutside t (fun _ p _ => p = 5 ∨ p = 6) ∧ t.addressed = .one .chip2 ∧
      (∀ k, (t.chip k).regs = (6, s.cfg.colAfter63, (s.chip k).Z, (s.chip k).ON))

/-- R148, R150: the picture during the hold, when the drawing's 268 busy-waits have been answered: on each chip, pages 5
and 6, the bar, its marker, the rest. -/
def Obligations.BarDuringHold : Prop :=
  ∀ (height : Byte) (s : State), s.rst_n = true → height.toNat ≤ 64 → s.cfg.basesValid = true → s.answers 268 →
    ∃ u t, exec (.bar height) s = .next u ∧ u.stepsTo t ∧ t.RUN = true ∧ t.trace.head? = some (.delay .tHold) ∧
      t.SP = s.SP + 2 ∧
      (∀ k p l, p = 5 ∨ p = 6 → t.ddram k p l = some
        (if l.toNat < height.toNat then s.cfg.barOn
         else if l.toNat = height.toNat ∧ 0 < height.toNat then s.cfg.barMark else s.cfg.barOff)) ∧
      s.BytesOutside t (fun _ p _ => p = 5 ∨ p = 6)

/-- R149: BAR with a height above 64 causes no pin event; it is recorded in DIAG.BADCMD and consumed. -/
def Obligations.BarAbove64Ignored : Prop :=
  ∀ (height : Byte) (s : State), s.rst_n = true → 64 < height.toNat →
    ∃ u, exec (.bar height) s = .next u ∧ u.stepsTo { s with
      lat := { s.lat with OPC := 0x07, HT := height }, SP := s.SP + 2
      DIAG := raise .BADCMD s.DIAG, RUN := false, todo := [] }

/-! ## System operations -/

/-- R160, R196: INIT completes: the reset pulse with its two delays and the bus made an output, then its 1078 bus entries;
and it leaves the launch state. -/
def Obligations.InitLaunchState : Prop :=
  ∀ s : State, s.rst_n = true → s.cfg.basesValid = true → s.answers 1078 →
    ∃ u t, exec .init s = .next u ∧ u.stepsTo t ∧
      [.pin .RSTN false, .delay .tRst, .pin .RSTN true, .delay .tSettle, .dir true] <+: t.eventsSince s ∧
      t.busSince s = initBus s.cfg ∧
      t.RUN = false ∧ t.todo = [] ∧ t.FSM = .idle ∧ t.SP = s.SP + 1 ∧ t.DIAG = 0 ∧
      t.pins = { DBOUT := 0x00, DBDIR := true, RS := true, RW := false, E := false, CS1 := !s.cfg.csActive,
                 CS2 := s.cfg.csActive, RSTN := true } ∧
      (∀ k, (t.chip k).regs = (7, s.cfg.colAfter63, 0, true)) ∧ (∀ k p l, t.ddram k p l = some 0x00) ∧
      t.lat = { s.lat with OPC := 0x01 } ∧ s.work.SameText t.work ∧ t.RBUF = s.RBUF ∧ t.RLEN = s.RLEN ∧
      t.cfg = s.cfg ∧ t.stream = s.stream

/-- R162: `decimal` on 16-bit numbers: its two defining equations, one to five digits, no leading zero. -/
def Obligations.DecimalDigits : Prop :=
  ∀ v : Nat, v < 65536 →
    (v < 10 → decimal v = [0x30 + BitVec.ofNat 8 v]) ∧
    (10 ≤ v → decimal v = decimal (v / 10) ++ [0x30 + BitVec.ofNat 8 (v % 10)]) ∧
    1 ≤ (decimal v).length ∧ (decimal v).length ≤ 5 ∧ (10 ≤ v → (decimal v).head? ≠ some 0x30)

/-- R163: ITOA completes from every state: RLEN and RBUF hold the decimal text, and no pin, no chip, no byte of display
data RAM and no diagnostic bit changes. -/
def Obligations.ItoaWritesDecimal : Prop :=
  ∀ (value : Word) (s : State), s.rst_n = true →
    ∃ u t, exec (.itoa value) s = .next u ∧ u.stepsTo t ∧
      t.RLEN.toNat = (decimal value.toNat).length ∧
      (∀ i, i < (decimal value.toNat).length → t.RBUF[i]? = (decimal value.toNat)[i]?) ∧
      t.RUN = false ∧ t.todo = [] ∧ t.SP = s.SP + 3 ∧ t.lat = { s.lat with OPC := 0x08, VAL := value } ∧
      t.work = { s.work with Q := t.work.Q } ∧ t.pins = s.pins ∧ t.trace = s.trace ∧ t.FSM = s.FSM ∧ t.DIAG = s.DIAG ∧
      t.chip1 = s.chip1 ∧ t.chip2 = s.chip2 ∧ s.SameBytes t ∧ t.db7 = s.db7 ∧ t.DBIN = s.DBIN ∧
      t.stream = s.stream ∧ t.cfg = s.cfg ∧ t.rst_n = s.rst_n

/-- R80, R165: a reserved opcode is consumed alone, causes no pin event and sets DIAG.BADCMD. -/
def Obligations.ReservedConsumed : Prop :=
  ∀ (opcode : Byte) (s : State), s.rst_n = true →
    ∃ u, exec (.reserved opcode) s = .next u ∧ u.stepsTo { s with
      lat := { s.lat with OPC := opcode }, SP := s.SP + 1, DIAG := raise .BADCMD s.DIAG, RUN := false, todo := [] }

/-! ## The whole machine -/

/-- R9, R106, R175: every host operation, with its text in the stream and one answer for each entry, completes and puts
on the bus exactly the trace its rule gives, and the chips show what that trace does to them; INIT's trace comes after its
panel reset pulse, whose fall and rise leave the chips unspecified (R31, R160, log entry 19). What a WCMD byte that is no
command does to them is log entry 13. -/
def Obligations.EveryOperationFollowsItsBusTrace : Prop :=
  ∀ (i : Instr) (text : List Byte) (s : State), s.rst_n = true → i.isHost = true → text.length = i.textLen →
    s.holdsText (encode s.cfg i).length text → s.addressed ≠ .both → s.answers (busOf s.cfg text i).length →
    let before := if i = .init then s.panelReset.panelReset else s
    let effect := displayEffect (s.pins.selected s.cfg) (busOf s.cfg text i) before
    ∃ u t, exec i s = .next u ∧ u.stepsTo t ∧ t.RUN = false ∧ t.todo = [] ∧
      t.SP = s.SP + (encode s.cfg i).length + text.length ∧ t.busSince s = busOf s.cfg text i ∧
      t.chip1.regs = effect.chip1.regs ∧ t.chip2.regs = effect.chip2.regs ∧ t.ram = effect.ram

/-- R175: the number of busy-waits of each operation is its number of bus-trace entries: the machine has used up that many
0 samples, one to end each, when the operation is complete. -/
def Obligations.BusyWaitCounts : Prop :=
  (∀ (i : Instr) (text : List Byte) (s : State), s.rst_n = true → i.isHost = true → text.length = i.textLen →
    s.holdsText (encode s.cfg i).length text → s.addressed ≠ .both → s.answers (busOf s.cfg text i).length →
    ∃ u t, exec i s = .next u ∧ u.stepsTo t ∧ t.RUN = false ∧
      t.SP = s.SP + (encode s.cfg i).length + text.length ∧
      t.db7.count false + (busOf s.cfg text i).length = s.db7.count false) ∧
  ∀ (cfg : Config) (text : List Byte),
    (∀ b, (busOf cfg text (.selchip b)).length = 1 ∧ (busOf cfg text (.wcmd b)).length = 1 ∧
      (busOf cfg text (.wdata b)).length = 1 ∧ (busOf cfg text (.reserved b)).length = 0) ∧
    (∀ value, (busOf cfg text (.itoa value)).length = 0) ∧
    (∀ page column, (busOf cfg text (.goto page column)).length = if coordsValid page column then 3 else 0) ∧
    (∀ page column ch, (busOf cfg text (.wchar page column ch)).length = if coordsValid page column then 9 else 6) ∧
    (busOf cfg text .clear).length = 1072 ∧ (busOf cfg text .init).length = 1078 ∧
    (∀ height, (busOf cfg text (.bar height)).length = if height.toNat ≤ 64 then 536 else 0) ∧
    (∀ len, cfg.labelEraseLen = 100 → (busOf cfg text (.wpct len)).length = 103 + 9 * (placements 100 text).length)

/-- R41: pixel (8 page + i, 64 (chip - 1) + lcol) is bit i of its byte, or bit 7 - i, as PIX_LSB_TOP says. -/
def Obligations.PixelLayout : Prop :=
  ∀ (s : State) (k : ChipId) (page : BitVec 3) (lcol : BitVec 6) (i : Nat), i < 8 →
    s.pixel (BitVec.ofNat 6 (8 * page.toNat + i)) (BitVec.ofNat 7 (64 * k.index + lcol.toNat)) =
      (s.ddram k page lcol).map fun b => b.getLsbD (if s.cfg.pixLsbTop then i else 7 - i)
end

