-- ==== Sys2Proof/Laws/State.lean ====
section
/-! SUPPORT. One lemma per field and update of State. -/

namespace Sys2Proof.Machine

/-! ## `record` -/

@[simp] theorem record_cfg (s : State) (e : PinEvent) : (s.record e).cfg = s.cfg := rfl
@[simp] theorem record_pins (s : State) (e : PinEvent) : (s.record e).pins = s.pins := rfl
@[simp] theorem record_DBIN (s : State) (e : PinEvent) : (s.record e).DBIN = s.DBIN := rfl
@[simp] theorem record_FSM (s : State) (e : PinEvent) : (s.record e).FSM = s.FSM := rfl
@[simp] theorem record_SP (s : State) (e : PinEvent) : (s.record e).SP = s.SP := rfl
@[simp] theorem record_RUN (s : State) (e : PinEvent) : (s.record e).RUN = s.RUN := rfl
@[simp] theorem record_todo (s : State) (e : PinEvent) : (s.record e).todo = s.todo := rfl
@[simp] theorem record_lat (s : State) (e : PinEvent) : (s.record e).lat = s.lat := rfl
@[simp] theorem record_work (s : State) (e : PinEvent) : (s.record e).work = s.work := rfl
@[simp] theorem record_DIAG (s : State) (e : PinEvent) : (s.record e).DIAG = s.DIAG := rfl
@[simp] theorem record_RBUF (s : State) (e : PinEvent) : (s.record e).RBUF = s.RBUF := rfl
@[simp] theorem record_RLEN (s : State) (e : PinEvent) : (s.record e).RLEN = s.RLEN := rfl
@[simp] theorem record_chip1 (s : State) (e : PinEvent) : (s.record e).chip1 = s.chip1 := rfl
@[simp] theorem record_chip2 (s : State) (e : PinEvent) : (s.record e).chip2 = s.chip2 := rfl
@[simp] theorem record_ram (s : State) (e : PinEvent) : (s.record e).ram = s.ram := rfl
@[simp] theorem record_stream (s : State) (e : PinEvent) : (s.record e).stream = s.stream := rfl
@[simp] theorem record_rst_n (s : State) (e : PinEvent) : (s.record e).rst_n = s.rst_n := rfl
@[simp] theorem record_db7 (s : State) (e : PinEvent) : (s.record e).db7 = s.db7 := rfl
@[simp] theorem record_sampled (s : State) (e : PinEvent) : (s.record e).sampled = s.sampled := rfl
@[simp] theorem record_draws (s : State) (e : PinEvent) : (s.record e).draws = s.draws := rfl
@[simp] theorem record_trace (s : State) (e : PinEvent) : (s.record e).trace = e :: s.trace := rfl

/-! ## `setDiag` -/

@[simp] theorem setDiag_cfg (s : State) (b : DiagBit) : (s.setDiag b).cfg = s.cfg := rfl
@[simp] theorem setDiag_pins (s : State) (b : DiagBit) : (s.setDiag b).pins = s.pins := rfl
@[simp] theorem setDiag_DBIN (s : State) (b : DiagBit) : (s.setDiag b).DBIN = s.DBIN := rfl
@[simp] theorem setDiag_FSM (s : State) (b : DiagBit) : (s.setDiag b).FSM = s.FSM := rfl
@[simp] theorem setDiag_SP (s : State) (b : DiagBit) : (s.setDiag b).SP = s.SP := rfl
@[simp] theorem setDiag_RUN (s : State) (b : DiagBit) : (s.setDiag b).RUN = s.RUN := rfl
@[simp] theorem setDiag_todo (s : State) (b : DiagBit) : (s.setDiag b).todo = s.todo := rfl
@[simp] theorem setDiag_lat (s : State) (b : DiagBit) : (s.setDiag b).lat = s.lat := rfl
@[simp] theorem setDiag_work (s : State) (b : DiagBit) : (s.setDiag b).work = s.work := rfl
@[simp] theorem setDiag_DIAG (s : State) (b : DiagBit) : (s.setDiag b).DIAG = raise b s.DIAG := rfl
@[simp] theorem setDiag_RBUF (s : State) (b : DiagBit) : (s.setDiag b).RBUF = s.RBUF := rfl
@[simp] theorem setDiag_RLEN (s : State) (b : DiagBit) : (s.setDiag b).RLEN = s.RLEN := rfl
@[simp] theorem setDiag_chip1 (s : State) (b : DiagBit) : (s.setDiag b).chip1 = s.chip1 := rfl
@[simp] theorem setDiag_chip2 (s : State) (b : DiagBit) : (s.setDiag b).chip2 = s.chip2 := rfl
@[simp] theorem setDiag_ram (s : State) (b : DiagBit) : (s.setDiag b).ram = s.ram := rfl
@[simp] theorem setDiag_stream (s : State) (b : DiagBit) : (s.setDiag b).stream = s.stream := rfl
@[simp] theorem setDiag_rst_n (s : State) (b : DiagBit) : (s.setDiag b).rst_n = s.rst_n := rfl
@[simp] theorem setDiag_db7 (s : State) (b : DiagBit) : (s.setDiag b).db7 = s.db7 := rfl
@[simp] theorem setDiag_sampled (s : State) (b : DiagBit) : (s.setDiag b).sampled = s.sampled := rfl
@[simp] theorem setDiag_draws (s : State) (b : DiagBit) : (s.setDiag b).draws = s.draws := rfl
@[simp] theorem setDiag_trace (s : State) (b : DiagBit) : (s.setDiag b).trace = s.trace := rfl

/-! ## `call` -/

@[simp] theorem call_cfg (s : State) (l : List Act) : (s.call l).cfg = s.cfg := rfl
@[simp] theorem call_pins (s : State) (l : List Act) : (s.call l).pins = s.pins := rfl
@[simp] theorem call_DBIN (s : State) (l : List Act) : (s.call l).DBIN = s.DBIN := rfl
@[simp] theorem call_FSM (s : State) (l : List Act) : (s.call l).FSM = s.FSM := rfl
@[simp] theorem call_SP (s : State) (l : List Act) : (s.call l).SP = s.SP := rfl
@[simp] theorem call_RUN (s : State) (l : List Act) : (s.call l).RUN = s.RUN := rfl
@[simp] theorem call_todo (s : State) (l : List Act) : (s.call l).todo = l ++ s.todo := rfl
@[simp] theorem call_lat (s : State) (l : List Act) : (s.call l).lat = s.lat := rfl
@[simp] theorem call_work (s : State) (l : List Act) : (s.call l).work = s.work := rfl
@[simp] theorem call_DIAG (s : State) (l : List Act) : (s.call l).DIAG = s.DIAG := rfl
@[simp] theorem call_RBUF (s : State) (l : List Act) : (s.call l).RBUF = s.RBUF := rfl
@[simp] theorem call_RLEN (s : State) (l : List Act) : (s.call l).RLEN = s.RLEN := rfl
@[simp] theorem call_chip1 (s : State) (l : List Act) : (s.call l).chip1 = s.chip1 := rfl
@[simp] theorem call_chip2 (s : State) (l : List Act) : (s.call l).chip2 = s.chip2 := rfl
@[simp] theorem call_ram (s : State) (l : List Act) : (s.call l).ram = s.ram := rfl
@[simp] theorem call_stream (s : State) (l : List Act) : (s.call l).stream = s.stream := rfl
@[simp] theorem call_rst_n (s : State) (l : List Act) : (s.call l).rst_n = s.rst_n := rfl
@[simp] theorem call_db7 (s : State) (l : List Act) : (s.call l).db7 = s.db7 := rfl
@[simp] theorem call_sampled (s : State) (l : List Act) : (s.call l).sampled = s.sampled := rfl
@[simp] theorem call_draws (s : State) (l : List Act) : (s.call l).draws = s.draws := rfl
@[simp] theorem call_trace (s : State) (l : List Act) : (s.call l).trace = s.trace := rfl

/-! ## `driveDir` -/

@[simp] theorem driveDir_cfg (s : State) (b : Bool) : (driveDir b s).cfg = s.cfg := rfl
@[simp] theorem driveDir_pins (s : State) (b : Bool) : (driveDir b s).pins = { s.pins with DBDIR := b } := rfl
@[simp] theorem driveDir_DBIN (s : State) (b : Bool) : (driveDir b s).DBIN = s.DBIN := rfl
@[simp] theorem driveDir_FSM (s : State) (b : Bool) : (driveDir b s).FSM = s.FSM := rfl
@[simp] theorem driveDir_SP (s : State) (b : Bool) : (driveDir b s).SP = s.SP := rfl
@[simp] theorem driveDir_RUN (s : State) (b : Bool) : (driveDir b s).RUN = s.RUN := rfl
@[simp] theorem driveDir_todo (s : State) (b : Bool) : (driveDir b s).todo = s.todo := rfl
@[simp] theorem driveDir_lat (s : State) (b : Bool) : (driveDir b s).lat = s.lat := rfl
@[simp] theorem driveDir_work (s : State) (b : Bool) : (driveDir b s).work = s.work := rfl
@[simp] theorem driveDir_DIAG (s : State) (b : Bool) : (driveDir b s).DIAG = s.DIAG := rfl
@[simp] theorem driveDir_RBUF (s : State) (b : Bool) : (driveDir b s).RBUF = s.RBUF := rfl
@[simp] theorem driveDir_RLEN (s : State) (b : Bool) : (driveDir b s).RLEN = s.RLEN := rfl
@[simp] theorem driveDir_chip1 (s : State) (b : Bool) : (driveDir b s).chip1 = s.chip1 := rfl
@[simp] theorem driveDir_chip2 (s : State) (b : Bool) : (driveDir b s).chip2 = s.chip2 := rfl
@[simp] theorem driveDir_ram (s : State) (b : Bool) : (driveDir b s).ram = s.ram := rfl
@[simp] theorem driveDir_stream (s : State) (b : Bool) : (driveDir b s).stream = s.stream := rfl
@[simp] theorem driveDir_rst_n (s : State) (b : Bool) : (driveDir b s).rst_n = s.rst_n := rfl
@[simp] theorem driveDir_db7 (s : State) (b : Bool) : (driveDir b s).db7 = s.db7 := rfl
@[simp] theorem driveDir_sampled (s : State) (b : Bool) : (driveDir b s).sampled = s.sampled := rfl
@[simp] theorem driveDir_draws (s : State) (b : Bool) : (driveDir b s).draws = s.draws := rfl
@[simp] theorem driveDir_trace (s : State) (b : Bool) : (driveDir b s).trace = .dir b :: s.trace := rfl

/-! ## `driveByte` -/

@[simp] theorem driveByte_cfg (s : State) (b : Byte) : (driveByte b s).cfg = s.cfg := rfl
@[simp] theorem driveByte_pins (s : State) (b : Byte) : (driveByte b s).pins = { s.pins with DBOUT := b } := rfl
@[simp] theorem driveByte_DBIN (s : State) (b : Byte) : (driveByte b s).DBIN = s.DBIN := rfl
@[simp] theorem driveByte_FSM (s : State) (b : Byte) : (driveByte b s).FSM = s.FSM := rfl
@[simp] theorem driveByte_SP (s : State) (b : Byte) : (driveByte b s).SP = s.SP := rfl
@[simp] theorem driveByte_RUN (s : State) (b : Byte) : (driveByte b s).RUN = s.RUN := rfl
@[simp] theorem driveByte_todo (s : State) (b : Byte) : (driveByte b s).todo = s.todo := rfl
@[simp] theorem driveByte_lat (s : State) (b : Byte) : (driveByte b s).lat = s.lat := rfl
@[simp] theorem driveByte_work (s : State) (b : Byte) : (driveByte b s).work = s.work := rfl
@[simp] theorem driveByte_DIAG (s : State) (b : Byte) : (driveByte b s).DIAG = s.DIAG := rfl
@[simp] theorem driveByte_RBUF (s : State) (b : Byte) : (driveByte b s).RBUF = s.RBUF := rfl
@[simp] theorem driveByte_RLEN (s : State) (b : Byte) : (driveByte b s).RLEN = s.RLEN := rfl
@[simp] theorem driveByte_chip1 (s : State) (b : Byte) : (driveByte b s).chip1 = s.chip1 := rfl
@[simp] theorem driveByte_chip2 (s : State) (b : Byte) : (driveByte b s).chip2 = s.chip2 := rfl
@[simp] theorem driveByte_ram (s : State) (b : Byte) : (driveByte b s).ram = s.ram := rfl
@[simp] theorem driveByte_stream (s : State) (b : Byte) : (driveByte b s).stream = s.stream := rfl
@[simp] theorem driveByte_rst_n (s : State) (b : Byte) : (driveByte b s).rst_n = s.rst_n := rfl
@[simp] theorem driveByte_db7 (s : State) (b : Byte) : (driveByte b s).db7 = s.db7 := rfl
@[simp] theorem driveByte_sampled (s : State) (b : Byte) : (driveByte b s).sampled = s.sampled := rfl
@[simp] theorem driveByte_draws (s : State) (b : Byte) : (driveByte b s).draws = s.draws := rfl
@[simp] theorem driveByte_trace (s : State) (b : Byte) : (driveByte b s).trace = .dbw b :: s.trace := rfl

/-! ## `sense` -/

@[simp] theorem sense_cfg (s : State) (b : Bool) : (sense b s).cfg = s.cfg := rfl
@[simp] theorem sense_pins (s : State) (b : Bool) : (sense b s).pins = s.pins := rfl
@[simp] theorem sense_DBIN (s : State) (b : Bool) : (sense b s).DBIN = BitVec.ofBool b ++ Config.drawLow s.sampled := rfl
@[simp] theorem sense_FSM (s : State) (b : Bool) : (sense b s).FSM = s.FSM := rfl
@[simp] theorem sense_SP (s : State) (b : Bool) : (sense b s).SP = s.SP := rfl
@[simp] theorem sense_RUN (s : State) (b : Bool) : (sense b s).RUN = s.RUN := rfl
@[simp] theorem sense_todo (s : State) (b : Bool) : (sense b s).todo = s.todo := rfl
@[simp] theorem sense_lat (s : State) (b : Bool) : (sense b s).lat = s.lat := rfl
@[simp] theorem sense_work (s : State) (b : Bool) : (sense b s).work = { s.work with SAMP := b } := rfl
@[simp] theorem sense_DIAG (s : State) (b : Bool) : (sense b s).DIAG = s.DIAG := rfl
@[simp] theorem sense_RBUF (s : State) (b : Bool) : (sense b s).RBUF = s.RBUF := rfl
@[simp] theorem sense_RLEN (s : State) (b : Bool) : (sense b s).RLEN = s.RLEN := rfl
@[simp] theorem sense_ram (s : State) (b : Bool) : (sense b s).ram = s.ram := rfl
@[simp] theorem sense_stream (s : State) (b : Bool) : (sense b s).stream = s.stream := rfl
@[simp] theorem sense_rst_n (s : State) (b : Bool) : (sense b s).rst_n = s.rst_n := rfl
@[simp] theorem sense_db7 (s : State) (b : Bool) : (sense b s).db7 = s.db7.tail := rfl
@[simp] theorem sense_sampled (s : State) (b : Bool) : (sense b s).sampled = s.sampled + 1 := rfl
@[simp] theorem sense_draws (s : State) (b : Bool) : (sense b s).draws = s.draws := rfl
@[simp] theorem sense_trace (s : State) (b : Bool) : (sense b s).trace = .rd7 b :: s.trace := rfl

/-! ## `panelReset` -/

@[simp] theorem panelReset_cfg (s : State) : (s.panelReset).cfg = s.cfg := rfl
@[simp] theorem panelReset_pins (s : State) : (s.panelReset).pins = s.pins := rfl
@[simp] theorem panelReset_DBIN (s : State) : (s.panelReset).DBIN = s.DBIN := rfl
@[simp] theorem panelReset_FSM (s : State) : (s.panelReset).FSM = s.FSM := rfl
@[simp] theorem panelReset_SP (s : State) : (s.panelReset).SP = s.SP := rfl
@[simp] theorem panelReset_RUN (s : State) : (s.panelReset).RUN = s.RUN := rfl
@[simp] theorem panelReset_todo (s : State) : (s.panelReset).todo = s.todo := rfl
@[simp] theorem panelReset_lat (s : State) : (s.panelReset).lat = s.lat := rfl
@[simp] theorem panelReset_work (s : State) : (s.panelReset).work = s.work := rfl
@[simp] theorem panelReset_DIAG (s : State) : (s.panelReset).DIAG = s.DIAG := rfl
@[simp] theorem panelReset_RBUF (s : State) : (s.panelReset).RBUF = s.RBUF := rfl
@[simp] theorem panelReset_RLEN (s : State) : (s.panelReset).RLEN = s.RLEN := rfl
@[simp] theorem panelReset_chip1 (s : State) : (s.panelReset).chip1 = Chip.unspecified s.draws := rfl
@[simp] theorem panelReset_chip2 (s : State) : (s.panelReset).chip2 = Chip.unspecified (s.draws + 1) := rfl
@[simp] theorem panelReset_ram (s : State) : (s.panelReset).ram = [] := rfl
@[simp] theorem panelReset_stream (s : State) : (s.panelReset).stream = s.stream := rfl
@[simp] theorem panelReset_rst_n (s : State) : (s.panelReset).rst_n = s.rst_n := rfl
@[simp] theorem panelReset_db7 (s : State) : (s.panelReset).db7 = s.db7 := rfl
@[simp] theorem panelReset_sampled (s : State) : (s.panelReset).sampled = s.sampled := rfl
@[simp] theorem panelReset_draws (s : State) : (s.panelReset).draws = s.draws + 2 := rfl
@[simp] theorem panelReset_trace (s : State) : (s.panelReset).trace = s.trace := rfl

/-! ## `accept` -/

@[simp] theorem accept_cfg (s : State) (b : Byte) (n : Nat) (l : Latches) (acts : List Act) : (s.accept b n l acts).cfg = s.cfg := rfl
@[simp] theorem accept_pins (s : State) (b : Byte) (n : Nat) (l : Latches) (acts : List Act) : (s.accept b n l acts).pins = s.pins := rfl
@[simp] theorem accept_DBIN (s : State) (b : Byte) (n : Nat) (l : Latches) (acts : List Act) : (s.accept b n l acts).DBIN = s.DBIN := rfl
@[simp] theorem accept_FSM (s : State) (b : Byte) (n : Nat) (l : Latches) (acts : List Act) : (s.accept b n l acts).FSM = s.FSM := rfl
@[simp] theorem accept_SP (s : State) (b : Byte) (n : Nat) (l : Latches) (acts : List Act) : (s.accept b n l acts).SP = s.SP + n := rfl
@[simp] theorem accept_RUN (s : State) (b : Byte) (n : Nat) (l : Latches) (acts : List Act) : (s.accept b n l acts).RUN = true := rfl
@[simp] theorem accept_todo (s : State) (b : Byte) (n : Nat) (l : Latches) (acts : List Act) : (s.accept b n l acts).todo = acts ++ [.finish] := rfl
@[simp] theorem accept_lat (s : State) (b : Byte) (n : Nat) (l : Latches) (acts : List Act) : (s.accept b n l acts).lat = { l with OPC := b } := rfl
@[simp] theorem accept_work (s : State) (b : Byte) (n : Nat) (l : Latches) (acts : List Act) : (s.accept b n l acts).work = s.work := rfl
@[simp] theorem accept_DIAG (s : State) (b : Byte) (n : Nat) (l : Latches) (acts : List Act) : (s.accept b n l acts).DIAG = s.DIAG := rfl
@[simp] theorem accept_RBUF (s : State) (b : Byte) (n : Nat) (l : Latches) (acts : List Act) : (s.accept b n l acts).RBUF = s.RBUF := rfl
@[simp] theorem accept_RLEN (s : State) (b : Byte) (n : Nat) (l : Latches) (acts : List Act) : (s.accept b n l acts).RLEN = s.RLEN := rfl
@[simp] theorem accept_chip1 (s : State) (b : Byte) (n : Nat) (l : Latches) (acts : List Act) : (s.accept b n l acts).chip1 = s.chip1 := rfl
@[simp] theorem accept_chip2 (s : State) (b : Byte) (n : Nat) (l : Latches) (acts : List Act) : (s.accept b n l acts).chip2 = s.chip2 := rfl
@[simp] theorem accept_ram (s : State) (b : Byte) (n : Nat) (l : Latches) (acts : List Act) : (s.accept b n l acts).ram = s.ram := rfl
@[simp] theorem accept_stream (s : State) (b : Byte) (n : Nat) (l : Latches) (acts : List Act) : (s.accept b n l acts).stream = s.stream := rfl
@[simp] theorem accept_rst_n (s : State) (b : Byte) (n : Nat) (l : Latches) (acts : List Act) : (s.accept b n l acts).rst_n = s.rst_n := rfl
@[simp] theorem accept_db7 (s : State) (b : Byte) (n : Nat) (l : Latches) (acts : List Act) : (s.accept b n l acts).db7 = s.db7 := rfl
@[simp] theorem accept_sampled (s : State) (b : Byte) (n : Nat) (l : Latches) (acts : List Act) : (s.accept b n l acts).sampled = s.sampled := rfl
@[simp] theorem accept_draws (s : State) (b : Byte) (n : Nat) (l : Latches) (acts : List Act) : (s.accept b n l acts).draws = s.draws := rfl
@[simp] theorem accept_trace (s : State) (b : Byte) (n : Nat) (l : Latches) (acts : List Act) : (s.accept b n l acts).trace = s.trace := rfl

/-! ## `setChip` -/

@[simp] theorem setChip_cfg (s : State) (k : ChipId) (c : Chip) : (s.setChip k c).cfg = s.cfg := by cases k <;> rfl
@[simp] theorem setChip_pins (s : State) (k : ChipId) (c : Chip) : (s.setChip k c).pins = s.pins := by cases k <;> rfl
@[simp] theorem setChip_DBIN (s : State) (k : ChipId) (c : Chip) : (s.setChip k c).DBIN = s.DBIN := by cases k <;> rfl
@[simp] theorem setChip_FSM (s : State) (k : ChipId) (c : Chip) : (s.setChip k c).FSM = s.FSM := by cases k <;> rfl
@[simp] theorem setChip_SP (s : State) (k : ChipId) (c : Chip) : (s.setChip k c).SP = s.SP := by cases k <;> rfl
@[simp] theorem setChip_RUN (s : State) (k : ChipId) (c : Chip) : (s.setChip k c).RUN = s.RUN := by cases k <;> rfl
@[simp] theorem setChip_todo (s : State) (k : ChipId) (c : Chip) : (s.setChip k c).todo = s.todo := by cases k <;> rfl
@[simp] theorem setChip_lat (s : State) (k : ChipId) (c : Chip) : (s.setChip k c).lat = s.lat := by cases k <;> rfl
@[simp] theorem setChip_work (s : State) (k : ChipId) (c : Chip) : (s.setChip k c).work = s.work := by cases k <;> rfl
@[simp] theorem setChip_DIAG (s : State) (k : ChipId) (c : Chip) : (s.setChip k c).DIAG = s.DIAG := by cases k <;> rfl
@[simp] theorem setChip_RBUF (s : State) (k : ChipId) (c : Chip) : (s.setChip k c).RBUF = s.RBUF := by cases k <;> rfl
@[simp] theorem setChip_RLEN (s : State) (k : ChipId) (c : Chip) : (s.setChip k c).RLEN = s.RLEN := by cases k <;> rfl
@[simp] theorem setChip_ram (s : State) (k : ChipId) (c : Chip) : (s.setChip k c).ram = s.ram := by cases k <;> rfl
@[simp] theorem setChip_stream (s : State) (k : ChipId) (c : Chip) : (s.setChip k c).stream = s.stream := by cases k <;> rfl
@[simp] theorem setChip_rst_n (s : State) (k : ChipId) (c : Chip) : (s.setChip k c).rst_n = s.rst_n := by cases k <;> rfl
@[simp] theorem setChip_db7 (s : State) (k : ChipId) (c : Chip) : (s.setChip k c).db7 = s.db7 := by cases k <;> rfl
@[simp] theorem setChip_sampled (s : State) (k : ChipId) (c : Chip) : (s.setChip k c).sampled = s.sampled := by cases k <;> rfl
@[simp] theorem setChip_draws (s : State) (k : ChipId) (c : Chip) : (s.setChip k c).draws = s.draws := by cases k <;> rfl
@[simp] theorem setChip_trace (s : State) (k : ChipId) (c : Chip) : (s.setChip k c).trace = s.trace := by cases k <;> rfl
@[simp] theorem setChip_chip_same (s : State) (k : ChipId) (c : Chip) : (s.setChip k c).chip k = c := by
  cases k <;> rfl
theorem setChip_chip_other (s : State) {k j : ChipId} (h : k ≠ j) (c : Chip) : (s.setChip k c).chip j = s.chip j := by
  cases k <;> cases j <;> first | rfl | exact absurd rfl h

/-! ## The pin registers -/

@[simp] theorem Pins.get_set_same (p : Pins) (n : PinName) (l : Bool) : (p.set n l).get n = l := by cases n <;> rfl
theorem Pins.get_set_other (p : Pins) {n m : PinName} (h : n ≠ m) (l : Bool) : (p.set n l).get m = p.get m := by
  cases n <;> cases m <;> first | rfl | exact absurd rfl h
@[simp] theorem Pins.set_DBOUT (p : Pins) (n : PinName) (l : Bool) : (p.set n l).DBOUT = p.DBOUT := by cases n <;> rfl
@[simp] theorem Pins.set_DBDIR (p : Pins) (n : PinName) (l : Bool) : (p.set n l).DBDIR = p.DBDIR := by cases n <;> rfl

end Sys2Proof.Machine
end

