-- ==== Sys2Proof/Laws/Run.lean ====
section
/-! SUPPORT. Runs of the sequencer: one act after another, as long as something is left to do. `Runs.stepsTo` (in
`Laws/Act.lean`) says that the machine's steps are such a run. -/

namespace Sys2Proof.Machine

/-- One act of the operation in progress. -/
def Ticks (s t : State) : Prop := s.todo ≠ [] ∧ tick s = .next t

/-- Act after act, `s` leads to `t`. -/
def Runs : State → State → Prop := Relation.ReflTransGen Ticks

theorem Runs.refl (s : State) : Runs s s := Relation.ReflTransGen.refl

theorem Runs.of_eq {s t : State} (h : s = t) : Runs s t := h ▸ Runs.refl s

theorem Runs.trans {s t u : State} (h1 : Runs s t) (h2 : Runs t u) : Runs s u := Relation.ReflTransGen.trans h1 h2

/-- A run up to a state written another way. -/
theorem Runs.to {s t u : State} (h : Runs s t) (e : t = u) : Runs s u := e ▸ h

/-- `s` with `l` left to do. -/
def State.doing (s : State) (l : List Act) : State := { s with todo := l }

/-- While an operation is in progress and the reset input is high, a step is the next act (R10). -/
theorem step_act {s : State} {a : Act} {rest : List Act} (hr : s.rst_n = true) (hrun : s.RUN = true)
    (htodo : s.todo = a :: rest) : step s = act a (s.doing rest) := by
  have h : step s = tick s := by simp [step, hr, hrun]
  rw [h]
  unfold tick
  split <;> rename_i h <;> rw [htodo] at h <;> cases h
  rfl

theorem runs_act {s t : State} {a : Act} {rest : List Act} (h : act a (s.doing rest) = .next t) :
    Runs (s.doing (a :: rest)) t :=
  Relation.ReflTransGen.single ⟨List.cons_ne_nil _ _, h⟩

end Sys2Proof.Machine
end

