-- ==== Sys2Proof/Laws/BigStep.lean ====
section
/-! SUPPORT. The run of each procedure as one stretch: what a call of BUSYWAIT, SELCHIP, WCMD, WDATA and of the procedures
above them leaves, once every busy-wait of it has been answered (R101 to R104, R121, R130, R140, R142, R146, R148). -/

namespace Sys2Proof.Machine

@[simp] theorem doing_cfg (s : State) (l : List Act) : (s.doing l).cfg = s.cfg := rfl
@[simp] theorem doing_pins (s : State) (l : List Act) : (s.doing l).pins = s.pins := rfl
@[simp] theorem doing_DBIN (s : State) (l : List Act) : (s.doing l).DBIN = s.DBIN := rfl
@[simp] theorem doing_FSM (s : State) (l : List Act) : (s.doing l).FSM = s.FSM := rfl
@[simp] theorem doing_SP (s : State) (l : List Act) : (s.doing l).SP = s.SP := rfl
@[simp] theorem doing_RUN (s : State) (l : List Act) : (s.doing l).RUN = s.RUN := rfl
@[simp] theorem doing_todo (s : State) (l : List Act) : (s.doing l).todo = l := rfl
@[simp] theorem doing_lat (s : State) (l : List Act) : (s.doing l).lat = s.lat := rfl
@[simp] theorem doing_work (s : State) (l : List Act) : (s.doing l).work = s.work := rfl
@[simp] theorem doing_DIAG (s : State) (l : List Act) : (s.doing l).DIAG = s.DIAG := rfl
@[simp] theorem doing_RBUF (s : State) (l : List Act) : (s.doing l).RBUF = s.RBUF := rfl
@[simp] theorem doing_RLEN (s : State) (l : List Act) : (s.doing l).RLEN = s.RLEN := rfl
@[simp] theorem doing_chip1 (s : State) (l : List Act) : (s.doing l).chip1 = s.chip1 := rfl
@[simp] theorem doing_chip2 (s : State) (l : List Act) : (s.doing l).chip2 = s.chip2 := rfl
@[simp] theorem doing_ram (s : State) (l : List Act) : (s.doing l).ram = s.ram := rfl
@[simp] theorem doing_stream (s : State) (l : List Act) : (s.doing l).stream = s.stream := rfl
@[simp] theorem doing_rst_n (s : State) (l : List Act) : (s.doing l).rst_n = s.rst_n := rfl
@[simp] theorem doing_db7 (s : State) (l : List Act) : (s.doing l).db7 = s.db7 := rfl
@[simp] theorem doing_sampled (s : State) (l : List Act) : (s.doing l).sampled = s.sampled := rfl
@[simp] theorem doing_draws (s : State) (l : List Act) : (s.doing l).draws = s.draws := rfl
@[simp] theorem doing_trace (s : State) (l : List Act) : (s.doing l).trace = s.trace := rfl
@[simp] theorem doing_doing (s : State) (l m : List Act) : (s.doing l).doing m = s.doing m := rfl
@[simp] theorem doing_addressed (s : State) (l : List Act) : (s.doing l).addressed = s.addressed := rfl
@[simp] theorem doing_chip (s : State) (l : List Act) (k : ChipId) : (s.doing l).chip k = s.chip k := by cases k <;> rfl
theorem doing_self (s : State) : s.doing s.todo = s := rfl

/-! ## One act of a run -/

/-- `n <- l` and its event, where no chip reacts. -/
def State.line (s : State) (n : PinName) (l : Bool) : State :=
  State.record { s with pins := s.pins.set n l } (.pin n l)

section
variable (s : State) (rest : List Act)

theorem runs_dir (out : Bool) : Runs (s.doing (.dir out :: rest)) ((driveDir out s).doing rest) := runs_act rfl
theorem runs_dbw (v : Byte) : Runs (s.doing (.dbw v :: rest)) ((driveByte v s).doing rest) := runs_act rfl
theorem runs_delay (t : TimeName) : Runs (s.doing (.delay t :: rest)) ((s.record (.delay t)).doing rest) :=
  runs_act rfl
theorem runs_RS (l : Bool) : Runs (s.doing (.pin .RS l :: rest)) ((s.line .RS l).doing rest) := runs_act rfl
theorem runs_RW (l : Bool) : Runs (s.doing (.pin .RW l :: rest)) ((s.line .RW l).doing rest) := runs_act rfl
theorem runs_CS1 (l : Bool) : Runs (s.doing (.pin .CS1 l :: rest)) ((s.line .CS1 l).doing rest) := runs_act rfl
theorem runs_CS2 (l : Bool) : Runs (s.doing (.pin .CS2 l :: rest)) ((s.line .CS2 l).doing rest) := runs_act rfl
theorem runs_E_rise : Runs (s.doing (.pin .E true :: rest)) ((s.line .E true).doing rest) := runs_act rfl
theorem runs_E_fall (h : s.pins.writePulse = false) :
    Runs (s.doing (.pin .E false :: rest)) ((s.line .E false).doing rest) := by
  refine runs_act ?_
  simp [act, drivePin, h]
  rfl
theorem runs_RSTN_fall : Runs (s.doing (.pin .RSTN false :: rest)) ((s.line .RSTN false).panelReset.doing rest) :=
  runs_act rfl
theorem runs_RSTN_rise (h : s.pins.RSTN = false) :
    Runs (s.doing (.pin .RSTN true :: rest)) ((s.line .RSTN true).panelReset.doing rest) := by
  refine runs_act ?_
  simp [act, drivePin, h]
  rfl
theorem runs_fsm (f : Fsm) : Runs (s.doing (.fsm f :: rest)) (State.doing { s with FSM := f } rest) := runs_act rfl
theorem runs_setK (k : BitVec 3) :
    Runs (s.doing (.setK k :: rest)) (State.doing { s with work := { s.work with K := k } } rest) := runs_act rfl
theorem runs_setPgi (p : BitVec 4) :
    Runs (s.doing (.setPgi p :: rest)) (State.doing { s with work := { s.work with PGI := p } } rest) := runs_act rfl
theorem runs_setHalf (h : BitVec 2) :
    Runs (s.doing (.setHalf h :: rest)) (State.doing { s with work := { s.work with HALF := h } } rest) := runs_act rfl
theorem runs_setRow (r : BitVec 2) :
    Runs (s.doing (.setRow r :: rest)) (State.doing { s with work := { s.work with ROW := r } } rest) := runs_act rfl
theorem runs_clearDiag : Runs (s.doing (.clearDiag :: rest)) (State.doing { s with DIAG := 0 } rest) := runs_act rfl
theorem runs_badCmd : Runs (s.doing (.badCmd :: rest)) ((s.setDiag .BADCMD).doing rest) := runs_act rfl
theorem runs_advance : Runs (s.doing (.advance :: rest)) ((advanceCursor s).doing rest) := runs_act rfl
theorem runs_itoa (v : Word) : Runs (s.doing (.itoa v :: rest)) ((storeDecimal v s).doing rest) := runs_act rfl
theorem runs_finish : Runs (s.doing (.finish :: rest)) (State.doing { s with RUN := false } rest) := runs_act rfl
theorem runs_busyWait : Runs (s.doing (.busyWait :: rest)) (s.doing (busyWaitBody ++ rest)) := runs_act rfl
theorem runs_poll : Runs (s.doing (.poll :: rest)) (s.doing (pollBody ++ rest)) := runs_act rfl
theorem runs_selChip (id : Byte) : Runs (s.doing (.selChip id :: rest)) (s.doing (selChipBody s.cfg id ++ rest)) :=
  runs_act rfl
theorem runs_wcmd (b : Byte) : Runs (s.doing (.wcmd b :: rest)) (s.doing (wcmdBody b ++ rest)) := runs_act rfl
theorem runs_wdata (b : Byte) : Runs (s.doing (.wdata b :: rest)) (s.doing (wdataBody b ++ rest)) := runs_act rfl
theorem runs_clear : Runs (s.doing (.clear :: rest)) (s.doing (clearBody ++ rest)) := runs_act rfl
theorem runs_glyphCol : Runs (s.doing (.glyphCol :: rest))
    (s.doing (.wdata (s.cfg.fontByte s.work.IDX.toNat s.work.K.toNat) :: rest)) := runs_act rfl
theorem runs_barRow (p b h : Byte) : Runs (s.doing (.barRow p b h :: rest)) (s.doing (barRowBody s.cfg p b h ++ rest)) :=
  runs_act rfl
theorem runs_dispatch : Runs (s.doing (.dispatch :: rest)) (s.doing (actsOf s.cfg s.lat.instr ++ rest)) := runs_act rfl
theorem runs_fill_zero (b : Byte) :
    Runs (s.doing (.fill 0 b :: rest)) (State.doing { s with work := { s.work with CNT := 0 } } rest) := runs_act rfl
theorem runs_fill_succ (n : Nat) (b : Byte) : Runs (s.doing (.fill (n + 1) b :: rest))
    (State.doing { s with work := { s.work with CNT := BitVec.ofNat 7 (n + 1) } } (.wdata b :: .fill n b :: rest)) :=
  runs_act rfl
theorem runs_string (p c : Byte) (n : Nat) : Runs (s.doing (.string p c n :: rest))
    (State.doing { s with work := { s.work with CUR := c.setWidth 9, STOP := false, TI := 0 } } (.chars p n :: rest)) :=
  runs_act rfl
theorem runs_chars_zero (p : Byte) : Runs (s.doing (.chars p 0 :: rest)) (s.doing rest) := runs_act rfl
theorem runs_goTo_valid {p c : Byte} (h : coordsValid p c = true) : Runs (s.doing (.goTo p c :: rest))
    (State.doing { s with work := { s.work with CHIPID := (chipOf c).id.setWidth 2, LCOL := lcolOf c } }
      (goToBody s.cfg p c ++ rest)) := by
  refine runs_act ?_
  simp [act, startGoTo, h]; rfl
theorem runs_goTo_invalid {p c : Byte} (h : coordsValid p c = false) :
    Runs (s.doing (.goTo p c :: rest)) ((s.setDiag .COORD).doing rest) := by
  refine runs_act ?_
  simp [act, startGoTo, h]; rfl
theorem runs_wchar (p c ch : Byte) : Runs (s.doing (.wchar p c ch :: rest))
    (State.doing { s with
      work := { s.work with IDX := glyphIndex s.cfg ch }
      DIAG := raiseIf (!supported s.cfg ch) .CHSUB s.DIAG } (wcharBody p c ++ rest)) := runs_act rfl
theorem runs_bar_legal {h : Byte} (hh : h.toNat ≤ barMax) :
    Runs (s.doing (.bar h :: rest)) (s.doing (barBody h ++ rest)) := by
  refine runs_act ?_
  simp only [act, Nat.not_lt.mpr hh, if_false]; rfl
theorem runs_bar_illegal {h : Byte} (hh : barMax < h.toNat) :
    Runs (s.doing (.bar h :: rest)) ((s.setDiag .BADCMD).doing rest) := by
  refine runs_act ?_
  simp only [act, hh, if_true]; rfl
theorem runs_chars_stop {p : Byte} {n : Nat} {b : Byte} (hb : s.nextByte = some b) (hs : s.work.STOP = true) :
    Runs (s.doing (.chars p (n + 1) :: rest))
      (State.doing { s with
        SP := s.SP + 1, lat := { s.lat with CH := b }, DIAG := raise .TRUNC s.DIAG
        work := { s.work with TI := s.work.TI + 1 } } (.chars p n :: rest)) := by
  have h2 : (s.doing rest).nextByte = some b := hb
  refine runs_act ?_
  simp only [act, withNext, h2, placeChar, doing_work, hs, if_true]; rfl
theorem runs_chars_place {p : Byte} {n : Nat} {b : Byte} (hb : s.nextByte = some b) (hs : s.work.STOP = false) :
    Runs (s.doing (.chars p (n + 1) :: rest))
      (State.doing { s with
        SP := s.SP + 1, lat := { s.lat with CH := b }
        work := { s.work with CUR := seamSnap s.work.CUR } }
          (.wchar p ((seamSnap s.work.CUR).setWidth 8) b :: .advance :: .chars p n :: rest)) := by
  have h2 : (s.doing rest).nextByte = some b := hb
  refine runs_act ?_
  simp only [act, withNext, h2, placeChar, doing_work, hs]; rfl
end

/-! ## Samples and the busy-wait -/

theorem sense_doing (b : Bool) (s : State) (l : List Act) : sense b (s.doing l) = (sense b s).doing l := rfl

theorem runs_rd7 {s : State} {rest : List Act} {b : Bool} {l : List Bool} (h : s.db7 = b :: l)
    (hp : s.cfg.pulseValid = true) (hd : s.pins.DBDIR = false) (ha : s.addressed ≠ .both) :
    Runs (s.doing (.rd7 :: rest)) ((sense b s).doing (afterSample b ++ rest)) := by
  refine runs_act ?_
  have hl : (s.doing rest).busLevel = b := by simp [State.busLevel, h]
  simp only [act, readDB7, doing_pins, hd, doing_addressed, doing_cfg, hp, ha, if_false, hl, sense_doing]
  simp [State.call, State.doing]

/-- Busy answers before the first answer that is not (R101: n − 1 polls). -/
def polls (l : List Bool) : Nat := (l.takeWhile id).length

/-- The samples left after a busy-wait that ends. -/
def afterAnswer (l : List Bool) : List Bool := (l.dropWhile id).tail

/-- The samples left after `n` busy-waits that end. -/
def afterAnswers : Nat → List Bool → List Bool
  | 0, l => l
  | n + 1, l => afterAnswers n (afterAnswer l)

/-- The pin events of one poll (R101 step 4). -/
def pollEvents (b : Bool) : List PinEvent := [.pin .E true, .delay .tE, .rd7 b, .pin .E false]

/-- The pin events of a busy-wait with `n` busy answers (R101). -/
def waitEvents (n : Nat) : List PinEvent :=
  .dir false :: .pin .RW true :: .pin .RS false ::
    ((List.replicate n (pollEvents true)).flatten ++ pollEvents false ++ [PinEvent.dir true, PinEvent.pin .RW false])

/-- The busy flag of a chip after a busy-wait (R49): the addressed chip has answered that it is not busy. -/
def Chip.answered (c : Chip) (k : ChipId) (a : Addressed) : Chip :=
  { c with BUSY := if a = .one k then false else c.BUSY }

/-- The state after the poll loop of R101, started with the bus released. -/
def polled (s : State) : State :=
  { s with
    pins := { s.pins with E := false }
    DBIN := BitVec.ofBool false ++ Config.drawLow (s.sampled + polls s.db7)
    work := { s.work with SAMP := false }
    chip1 := s.chip1.answered .chip1 s.addressed
    chip2 := s.chip2.answered .chip2 s.addressed
    db7 := afterAnswer s.db7
    sampled := s.sampled + polls s.db7 + 1
    trace := ((List.replicate (polls s.db7) (pollEvents true)).flatten ++ pollEvents false).reverse ++ s.trace }

/-- The state after BUSYWAIT (R101). -/
def waited (s : State) : State :=
  { s with
    FSM := .busyPoll
    pins := { s.pins with DBDIR := true, RS := false, RW := false, E := false }
    DBIN := BitVec.ofBool false ++ Config.drawLow (s.sampled + polls s.db7)
    work := { s.work with SAMP := false }
    chip1 := s.chip1.answered .chip1 s.addressed
    chip2 := s.chip2.answered .chip2 s.addressed
    db7 := afterAnswer s.db7
    sampled := s.sampled + polls s.db7 + 1
    trace := (waitEvents (polls s.db7)).reverse ++ s.trace }

/-- One poll. -/
def pollOnce (b : Bool) (s : State) : State := (sense b ((s.line .E true).record (.delay .tE))).line .E false

theorem runs_pollOnce {s : State} {rest : List Act} {b : Bool} {l : List Bool} (h : s.db7 = b :: l)
    (hp : s.cfg.pulseValid = true) (hd : s.pins.DBDIR = false) (ha : s.addressed ≠ .both) :
    Runs (s.doing (.poll :: rest)) ((pollOnce b s).doing ((if b then [.poll] else []) ++ rest)) := by
  have hw : (s.line .E true).pins.DBDIR = false := hd
  refine (runs_poll s rest).trans <| (runs_E_rise s _).trans <| (runs_delay _ _ .tE).trans <|
    (runs_rd7 (b := b) (l := l) (by exact h) (by exact hp) (by exact hw) (by exact ha)).trans ?_
  refine (runs_E_fall _ _ ?_).to rfl
  simp [Pins.writePulse, sense, State.record, hw]

theorem pollOnce_eq {s : State} (hd : s.pins.DBDIR = false) (hw : s.pins.RW = true) (hr : s.pins.RS = false) (b : Bool) :
    pollOnce b s =
    { s with
      pins := { s.pins with E := false }
      DBIN := BitVec.ofBool b ++ Config.drawLow s.sampled
      work := { s.work with SAMP := b }
      chip1 := { s.chip1 with BUSY := if s.addressed = .one .chip1 then b else s.chip1.BUSY }
      chip2 := { s.chip2 with BUSY := if s.addressed = .one .chip2 then b else s.chip2.BUSY }
      db7 := s.db7.tail
      sampled := s.sampled + 1
      trace := (pollEvents b).reverse ++ s.trace } := by
  simp [pollOnce, sense, Chip.sampled, State.line, State.record, Pins.set, Pins.statusRead, pollEvents, State.addressed, hd, hw, hr]
  by_cases h1 : addressedBy s.cfg.csActive s.pins.CS1 s.pins.CS2 = .one .chip1 <;>
    by_cases h2 : addressedBy s.cfg.csActive s.pins.CS1 s.pins.CS2 = .one .chip2 <;> simp [h1, h2]

theorem runs_poll_all {s : State} {rest : List Act} (h : false ∈ s.db7) (hp : s.cfg.pulseValid = true)
    (hd : s.pins.DBDIR = false) (hw : s.pins.RW = true) (hr : s.pins.RS = false) (ha : s.addressed ≠ .both) :
    Runs (s.doing (.poll :: rest)) ((polled s).doing rest) := by
  generalize hl : s.db7 = l at h
  induction l generalizing s with
  | nil => simp at h
  | cons b l ih =>
    refine (runs_pollOnce hl hp hd ha).trans ?_
    rw [pollOnce_eq hd hw hr]
    cases b with
    | false => exact Runs.of_eq (by simp [polled, polls, afterAnswer, hl, Chip.answered])
    | true =>
      have hm : false ∈ l := by simpa using h
      simp only [if_true, List.cons_append, List.nil_append]
      refine (ih (by exact hp) (by exact hd) (by exact hw) (by exact hr) (by exact ha) (by simp [hl]) hm).to ?_
      congr 1
      simp [polled, polls, afterAnswer, hl, Chip.answered, List.replicate_succ, State.addressed]
      refine ⟨?_, ?_, ?_, ?_⟩
      · congr 2; omega
      · by_cases h1 : addressedBy s.cfg.csActive s.pins.CS1 s.pins.CS2 = .one .chip1 <;> simp [h1]
      · by_cases h1 : addressedBy s.cfg.csActive s.pins.CS1 s.pins.CS2 = .one .chip2 <;> simp [h1]
      · omega

theorem runs_busyWait_waited {s : State} {rest : List Act} (h : false ∈ s.db7) (hp : s.cfg.pulseValid = true)
    (ha : s.addressed ≠ .both) : Runs (s.doing (.busyWait :: rest)) ((waited s).doing rest) := by
  refine (runs_busyWait s rest).trans <| (runs_fsm _ _ _).trans <| (runs_dir _ _ _).trans <|
    (runs_RW _ _ _).trans <| (runs_RS _ _ _).trans <| (runs_poll_all (by exact h) (by exact hp) (by rfl) (by rfl) (by rfl) (by exact ha)).trans <|
    (runs_dir _ _ _).trans <| (runs_RW _ _ _).to ?_
  congr 1
  simp [polled, waited, driveDir, State.line, State.record, Pins.set, waitEvents, State.addressed]

/-! ## SELCHIP -/

/-- The chip-select events of SELCHIP (R102). -/
def selEvents (cfg : Config) (id : Byte) : List PinEvent :=
  [.pin .CS1 (!cfg.csActive), .pin .CS2 (!cfg.csActive)] ++
    if id = 1 then [.pin .CS1 cfg.csActive] else if id = 2 then [.pin .CS2 cfg.csActive] else []

/-- The state after steps 1 and 2 of SELCHIP (R102). -/
def chosen (id : Byte) (s : State) : State :=
  { s with
    FSM := .selecting
    pins := { s.pins with
      CS1 := if id = 1 then s.cfg.csActive else !s.cfg.csActive
      CS2 := if id = 2 then s.cfg.csActive else !s.cfg.csActive }
    trace := (selEvents s.cfg id).reverse ++ s.trace }

/-- The state after SELCHIP (R102). -/
def selected (id : Byte) (s : State) : State := { waited (chosen id s) with FSM := .idle }

theorem addressed_chosen (id : Byte) (s : State) :
    (chosen id s).addressed = match chipOfId id with | some k => .one k | none => .nobody := by
  unfold chipOfId chosen State.addressed
  by_cases h1 : id = 1#8
  · subst h1; simp [addressedBy]
  · by_cases h2 : id = 2#8
    · subst h2; simp [addressedBy]
    · simp [h1, h2, addressedBy]

theorem chosen_not_both (id : Byte) (s : State) : (chosen id s).addressed ≠ .both := by
  rw [addressed_chosen]; split <;> simp

theorem runs_selected {s : State} {rest : List Act} (id : Byte) (h : false ∈ s.db7) (hp : s.cfg.pulseValid = true) :
    Runs (s.doing (.selChip id :: rest)) ((selected id s).doing rest) := by
  have key : Runs (s.doing (.selChip id :: rest)) ((chosen id s).doing (.busyWait :: .fsm .idle :: rest)) := by
    refine (runs_selChip s _ id).trans <| (runs_fsm _ _ _).trans <| (runs_CS1 _ _ _).trans <|
      (runs_CS2 _ _ _).trans ?_
    unfold assertBody
    by_cases h1 : id = 1#8
    · subst h1
      refine (runs_CS1 _ _ _).to ?_
      simp [chosen, selEvents, State.line, State.record, Pins.set, State.doing]
    · by_cases h2 : id = 2#8
      · subst h2
        refine (runs_CS2 _ _ _).to ?_
        simp [chosen, selEvents, State.line, State.record, Pins.set, State.doing]
      · exact Runs.of_eq (by simp [h1, h2, chosen, selEvents, State.line, State.record, Pins.set, State.doing])
  exact key.trans <| (runs_busyWait_waited (s := chosen id s) h hp (chosen_not_both id s)).trans (runs_fsm _ _ _)

/-! ## WCMD and WDATA -/

/-- What the addressed chip does, where at most one is addressed. -/
def State.onChip (s : State) (f : ChipId → State → State) : State :=
  match s.addressed with
  | .one k => f k s
  | _ => s

theorem forAddressed_eq {s : State} (hp : s.cfg.pulseValid = true) (h : s.addressed ≠ .both)
    (f : ChipId → State → State) : s.forAddressed f = .next (s.onChip f) := by
  unfold State.forAddressed State.onChip
  split <;> simp_all

theorem latchCommand_eq {s : State} (hp : s.cfg.pulseValid = true) (h : s.addressed ≠ .both) (b : Byte) :
    latchCommand b s = .next (s.onChip (commandOn b)) := by
  unfold latchCommand
  cases hd : decodeCommand s.cfg b with
  | none =>
    simp only []
    rw [forAddressed_eq hp h]
    unfold State.onChip commandOn
    simp only [hd]
  | some c =>
    cases c <;> simp only [execCommand, execLcdSetPage, execLcdSetCol, execLcdStartLine, execLcdDisplayOn] <;>
      rw [forAddressed_eq hp h] <;> unfold State.onChip commandOn <;> simp only [hd]

/-- Where the chips react at all, they react so. -/
theorem forAddressed_next {s t : State} {f : ChipId → State → State} (h : s.forAddressed f = .next t) :
    t = s.onChip f := by
  unfold State.forAddressed at h
  unfold State.onChip
  split at h
  · cases h; simp [*]
  · split at h <;> cases h; simp [*]
  · cases h

theorem latchCommand_next {s t : State} {b : Byte} (h : latchCommand b s = .next t) : t = s.onChip (commandOn b) := by
  unfold latchCommand at h
  split at h
  · rename_i c hc
    cases c <;> rw [forAddressed_next h] <;> unfold State.onChip commandOn <;> simp only [hc]
  · rename_i hc
    rw [forAddressed_next h]; unfold State.onChip commandOn; simp only [hc]

/-- What the chips do with a byte: R46 for both kinds of transfer. -/
def transferOn (rs : Bool) (b : Byte) : ChipId → State → State := if rs then dataOn b else commandOn b

theorem latchByte_next {s t : State} (h : latchByte s = .next t) : t = s.onChip (transferOn s.pins.RS s.pins.DBOUT) := by
  unfold latchByte at h
  unfold transferOn
  split at h
  · rename_i hr; rw [hr]; exact forAddressed_next h
  · rename_i hr; rw [if_neg hr]; exact latchCommand_next h

@[simp] theorem dataOn_cfg (b : Byte) (k : ChipId) (s : State) : (dataOn b k s).cfg = s.cfg := by
  unfold dataOn; simp only; split <;> cases k <;> rfl
@[simp] theorem dataOn_pins (b : Byte) (k : ChipId) (s : State) : (dataOn b k s).pins = s.pins := by
  unfold dataOn; simp only; split <;> cases k <;> rfl
@[simp] theorem dataOn_DBIN (b : Byte) (k : ChipId) (s : State) : (dataOn b k s).DBIN = s.DBIN := by
  unfold dataOn; simp only; split <;> cases k <;> rfl
@[simp] theorem dataOn_FSM (b : Byte) (k : ChipId) (s : State) : (dataOn b k s).FSM = s.FSM := by
  unfold dataOn; simp only; split <;> cases k <;> rfl
@[simp] theorem dataOn_SP (b : Byte) (k : ChipId) (s : State) : (dataOn b k s).SP = s.SP := by
  unfold dataOn; simp only; split <;> cases k <;> rfl
@[simp] theorem dataOn_RUN (b : Byte) (k : ChipId) (s : State) : (dataOn b k s).RUN = s.RUN := by
  unfold dataOn; simp only; split <;> cases k <;> rfl
@[simp] theorem dataOn_todo (b : Byte) (k : ChipId) (s : State) : (dataOn b k s).todo = s.todo := by
  unfold dataOn; simp only; split <;> cases k <;> rfl
@[simp] theorem dataOn_lat (b : Byte) (k : ChipId) (s : State) : (dataOn b k s).lat = s.lat := by
  unfold dataOn; simp only; split <;> cases k <;> rfl
@[simp] theorem dataOn_work (b : Byte) (k : ChipId) (s : State) : (dataOn b k s).work = s.work := by
  unfold dataOn; simp only; split <;> cases k <;> rfl
@[simp] theorem dataOn_DIAG (b : Byte) (k : ChipId) (s : State) : (dataOn b k s).DIAG = s.DIAG := by
  unfold dataOn; simp only; split <;> cases k <;> rfl
@[simp] theorem dataOn_RBUF (b : Byte) (k : ChipId) (s : State) : (dataOn b k s).RBUF = s.RBUF := by
  unfold dataOn; simp only; split <;> cases k <;> rfl
@[simp] theorem dataOn_RLEN (b : Byte) (k : ChipId) (s : State) : (dataOn b k s).RLEN = s.RLEN := by
  unfold dataOn; simp only; split <;> cases k <;> rfl
@[simp] theorem dataOn_stream (b : Byte) (k : ChipId) (s : State) : (dataOn b k s).stream = s.stream := by
  unfold dataOn; simp only; split <;> cases k <;> rfl
@[simp] theorem dataOn_rst_n (b : Byte) (k : ChipId) (s : State) : (dataOn b k s).rst_n = s.rst_n := by
  unfold dataOn; simp only; split <;> cases k <;> rfl
@[simp] theorem dataOn_db7 (b : Byte) (k : ChipId) (s : State) : (dataOn b k s).db7 = s.db7 := by
  unfold dataOn; simp only; split <;> cases k <;> rfl
@[simp] theorem dataOn_sampled (b : Byte) (k : ChipId) (s : State) : (dataOn b k s).sampled = s.sampled := by
  unfold dataOn; simp only; split <;> cases k <;> rfl
@[simp] theorem dataOn_trace (b : Byte) (k : ChipId) (s : State) : (dataOn b k s).trace = s.trace := by
  unfold dataOn; simp only; split <;> cases k <;> rfl
@[simp] theorem commandOn_cfg (b : Byte) (k : ChipId) (s : State) : (commandOn b k s).cfg = s.cfg := by
  unfold commandOn setPageOn setColOn displayOnOn startLineOn unknownCommandOn; split <;> cases k <;> rfl
@[simp] theorem commandOn_pins (b : Byte) (k : ChipId) (s : State) : (commandOn b k s).pins = s.pins := by
  unfold commandOn setPageOn setColOn displayOnOn startLineOn unknownCommandOn; split <;> cases k <;> rfl
@[simp] theorem commandOn_DBIN (b : Byte) (k : ChipId) (s : State) : (commandOn b k s).DBIN = s.DBIN := by
  unfold commandOn setPageOn setColOn displayOnOn startLineOn unknownCommandOn; split <;> cases k <;> rfl
@[simp] theorem commandOn_FSM (b : Byte) (k : ChipId) (s : State) : (commandOn b k s).FSM = s.FSM := by
  unfold commandOn setPageOn setColOn displayOnOn startLineOn unknownCommandOn; split <;> cases k <;> rfl
@[simp] theorem commandOn_SP (b : Byte) (k : ChipId) (s : State) : (commandOn b k s).SP = s.SP := by
  unfold commandOn setPageOn setColOn displayOnOn startLineOn unknownCommandOn; split <;> cases k <;> rfl
@[simp] theorem commandOn_RUN (b : Byte) (k : ChipId) (s : State) : (commandOn b k s).RUN = s.RUN := by
  unfold commandOn setPageOn setColOn displayOnOn startLineOn unknownCommandOn; split <;> cases k <;> rfl
@[simp] theorem commandOn_todo (b : Byte) (k : ChipId) (s : State) : (commandOn b k s).todo = s.todo := by
  unfold commandOn setPageOn setColOn displayOnOn startLineOn unknownCommandOn; split <;> cases k <;> rfl
@[simp] theorem commandOn_lat (b : Byte) (k : ChipId) (s : State) : (commandOn b k s).lat = s.lat := by
  unfold commandOn setPageOn setColOn displayOnOn startLineOn unknownCommandOn; split <;> cases k <;> rfl
@[simp] theorem commandOn_work (b : Byte) (k : ChipId) (s : State) : (commandOn b k s).work = s.work := by
  unfold commandOn setPageOn setColOn displayOnOn startLineOn unknownCommandOn; split <;> cases k <;> rfl
@[simp] theorem commandOn_DIAG (b : Byte) (k : ChipId) (s : State) : (commandOn b k s).DIAG = s.DIAG := by
  unfold commandOn setPageOn setColOn displayOnOn startLineOn unknownCommandOn; split <;> cases k <;> rfl
@[simp] theorem commandOn_RBUF (b : Byte) (k : ChipId) (s : State) : (commandOn b k s).RBUF = s.RBUF := by
  unfold commandOn setPageOn setColOn displayOnOn startLineOn unknownCommandOn; split <;> cases k <;> rfl
@[simp] theorem commandOn_RLEN (b : Byte) (k : ChipId) (s : State) : (commandOn b k s).RLEN = s.RLEN := by
  unfold commandOn setPageOn setColOn displayOnOn startLineOn unknownCommandOn; split <;> cases k <;> rfl
@[simp] theorem commandOn_stream (b : Byte) (k : ChipId) (s : State) : (commandOn b k s).stream = s.stream := by
  unfold commandOn setPageOn setColOn displayOnOn startLineOn unknownCommandOn; split <;> cases k <;> rfl
@[simp] theorem commandOn_rst_n (b : Byte) (k : ChipId) (s : State) : (commandOn b k s).rst_n = s.rst_n := by
  unfold commandOn setPageOn setColOn displayOnOn startLineOn unknownCommandOn; split <;> cases k <;> rfl
@[simp] theorem commandOn_db7 (b : Byte) (k : ChipId) (s : State) : (commandOn b k s).db7 = s.db7 := by
  unfold commandOn setPageOn setColOn displayOnOn startLineOn unknownCommandOn; split <;> cases k <;> rfl
@[simp] theorem commandOn_sampled (b : Byte) (k : ChipId) (s : State) : (commandOn b k s).sampled = s.sampled := by
  unfold commandOn setPageOn setColOn displayOnOn startLineOn unknownCommandOn; split <;> cases k <;> rfl
@[simp] theorem commandOn_trace (b : Byte) (k : ChipId) (s : State) : (commandOn b k s).trace = s.trace := by
  unfold commandOn setPageOn setColOn displayOnOn startLineOn unknownCommandOn; split <;> cases k <;> rfl

/-- What an act of a chip leaves alone. -/
theorem onChip_keeps {β : Type} (g : State → β) (f : ChipId → State → State) (hf : ∀ k s, g (f k s) = g s) (s : State) :
    g (s.onChip f) = g s := by
  unfold State.onChip
  split
  · exact hf _ _
  · rfl

/-- An update that the acting chip does not look at and does not touch. -/
theorem onChip_comm {f : ChipId → State → State} {u : State → State} (ha : ∀ s, (u s).addressed = s.addressed)
    (hf : ∀ k s, f k (u s) = u (f k s)) (s : State) : (u s).onChip f = u (s.onChip f) := by
  unfold State.onChip
  rw [ha]
  split
  · exact hf _ _
  · rfl

theorem dataOn_doing (b : Byte) (k : ChipId) (s : State) (l : List Act) :
    dataOn b k (s.doing l) = (dataOn b k s).doing l := by
  unfold dataOn; simp only [doing_chip]; split <;> cases k <;> rfl
theorem commandOn_doing (b : Byte) (k : ChipId) (s : State) (l : List Act) :
    commandOn b k (s.doing l) = (commandOn b k s).doing l := by
  unfold commandOn setPageOn setColOn displayOnOn startLineOn unknownCommandOn; simp only [doing_chip, doing_cfg]; split <;> cases k <;> rfl
theorem dataOn_FSM_set (b : Byte) (k : ChipId) (s : State) (x : Fsm) :
    dataOn b k { s with FSM := x } = { dataOn b k s with FSM := x } := by
  unfold dataOn
  have : State.chip { s with FSM := x } k = s.chip k := by cases k <;> rfl
  simp only [this]; split <;> cases k <;> rfl
theorem commandOn_FSM_set (b : Byte) (k : ChipId) (s : State) (x : Fsm) :
    commandOn b k { s with FSM := x } = { commandOn b k s with FSM := x } := by
  unfold commandOn setPageOn setColOn displayOnOn startLineOn unknownCommandOn
  have : State.chip { s with FSM := x } k = s.chip k := by cases k <;> rfl
  simp only [this]; split <;> cases k <;> rfl

/-- The pin events of a transfer after its busy-wait (R103, R104). -/
def strobeEvents (rs : Bool) (b : Byte) : List PinEvent :=
  [.pin .RS rs, .pin .RW false, .dbw b, .pin .E true, .delay .tE, .pin .E false]

/-- The state after steps 2 to 5 of a transfer and before the chip acts, the bus layer idle again. -/
def strobed (rs : Bool) (b : Byte) (s : State) : State :=
  { s with
    FSM := .idle
    pins := { s.pins with RS := rs, RW := false, DBOUT := b, E := false }
    trace := (strobeEvents rs b).reverse ++ s.trace }

/-- The state after WCMD (R103). -/
def commanded (b : Byte) (s : State) : State := (strobed false b (waited s)).onChip (commandOn b)

/-- The state after WDATA (R104). -/
def written (b : Byte) (s : State) : State := (strobed true b (waited s)).onChip (dataOn b)

theorem runs_E_strobe {s : State} {rest : List Act} (hw : s.pins.writePulse = true) (hp : s.cfg.pulseValid = true)
    (ha : s.addressed ≠ .both) : Runs (s.doing (.pin .E false :: rest))
      (((s.line .E false).onChip (if s.pins.RS then dataOn s.pins.DBOUT else commandOn s.pins.DBOUT)).doing rest) := by
  have ha2 : ((s.line .E false).doing rest).addressed ≠ .both := ha
  have hp2 : ((s.line .E false).doing rest).cfg.pulseValid = true := hp
  refine runs_act ?_
  have h1 : act (.pin .E false) (s.doing rest) = latchByte ((s.line .E false).doing rest) := by
    simp [act, drivePin, hw]; rfl
  have h2 : ((s.line .E false).doing rest).pins.RS = s.pins.RS := rfl
  have h3 : ((s.line .E false).doing rest).pins.DBOUT = s.pins.DBOUT := rfl
  rw [h1, latchByte, h2, h3]
  cases s.pins.RS with
  | true =>
    simp only [if_true]
    rw [forAddressed_eq hp2 ha2, onChip_comm (u := fun s => s.doing rest) (fun _ => rfl) (fun k s => dataOn_doing _ k s rest)]
  | false =>
    simp only [Bool.false_eq_true, if_false]
    rw [latchCommand_eq hp2 ha2,
      onChip_comm (u := fun s => s.doing rest) (fun _ => rfl) (fun k s => commandOn_doing _ k s rest)]

/-- Steps 2 to 5 of a transfer (R103, R104), the bus layer idle again. -/
theorem runs_strobe {s : State} {rest : List Act} (rs : Bool) (b : Byte) (f : Fsm) (hd : s.pins.DBDIR = true)
    (hp : s.cfg.pulseValid = true) (ha : s.addressed ≠ .both) :
    Runs (s.doing (.fsm f :: (strobeBody rs b ++ (.fsm .idle :: rest))))
      (((strobed rs b s).onChip (if rs then dataOn b else commandOn b)).doing rest) := by
  refine (runs_fsm _ _ _).trans <| (runs_RS _ _ _).trans <| (runs_RW _ _ _).trans <| (runs_dbw _ _ _).trans <|
    (runs_E_rise _ _).trans <| (runs_delay _ _ _).trans <|
    (runs_E_strobe (by simp [Pins.writePulse, State.record, State.line, Pins.set, driveByte, hd]) (by exact hp) (by exact ha)).trans <|
    (runs_fsm _ _ _).to ?_
  congr 1
  have e : strobed rs b s =
      { (((driveByte b ((State.line { s with FSM := f } .RS rs).line .RW false)).line .E true).record
        (.delay .tE)).line .E false with FSM := .idle } := by
    simp [strobed, driveByte, State.line, State.record, Pins.set, strobeEvents]
  rw [e, onChip_comm (u := fun s => { s with FSM := .idle }) (fun _ => rfl)]
  · rfl
  · intro k s
    cases rs
    · exact commandOn_FSM_set _ k s _
    · exact dataOn_FSM_set _ k s _

theorem runs_commanded {s : State} {rest : List Act} (b : Byte) (h : false ∈ s.db7) (hp : s.cfg.pulseValid = true)
    (ha : s.addressed ≠ .both) : Runs (s.doing (.wcmd b :: rest)) ((commanded b s).doing rest) :=
  (runs_wcmd s rest b).trans <| (runs_busyWait_waited h hp ha).trans <|
    runs_strobe (s := waited s) false b .commandWrite rfl hp ha

theorem runs_written {s : State} {rest : List Act} (b : Byte) (h : false ∈ s.db7) (hp : s.cfg.pulseValid = true)
    (ha : s.addressed ≠ .both) : Runs (s.doing (.wdata b :: rest)) ((written b s).doing rest) :=
  (runs_wdata s rest b).trans <| (runs_busyWait_waited h hp ha).trans <|
    runs_strobe (s := waited s) true b .dataWrite rfl hp ha


end Sys2Proof.Machine
end

