-- ==== Sys2Proof/Laws/Bus.lean ====
section
/-! SUPPORT. The bus level of a run: the bus trace of each procedure (R106), the pin levels it leaves (R100) and its
display effect (R9), composed along a run. -/


namespace Sys2Proof.Machine

/-! ## Bus trace -/

/-- The abstraction's memory after a sequence of events. -/
def scan (b : BusScan) (events : List PinEvent) : BusScan := events.foldl BusScan.after b

theorem busTrace_append (cfg : Config) (b : BusScan) (xs ys : List PinEvent) :
    busTrace cfg b (xs ++ ys) = busTrace cfg b xs ++ busTrace cfg (scan b xs) ys := by
  induction xs generalizing b with
  | nil => rfl
  | cons x xs ih => simp [busTrace, ih, scan]

theorem scan_append (b : BusScan) (xs ys : List PinEvent) : scan b (xs ++ ys) = scan (scan b xs) ys := by
  simp [scan]

theorem busTrace_polls (cfg : Config) (b : BusScan) (h1 : b.pins.DBDIR = false) (n : Nat) :
    busTrace cfg b ((List.replicate n (pollEvents true)).flatten ++ pollEvents false) = [] ∧
    scan b ((List.replicate n (pollEvents true)).flatten ++ pollEvents false) =
      { b with pins := { b.pins with E := false } } := by
  have step : ∀ (c : Bool) (b : BusScan), b.pins.DBDIR = false → busTrace cfg b (pollEvents c) = [] ∧
      scan b (pollEvents c) = { b with pins := { b.pins with E := false } } := by
    intro c b h
    simp [pollEvents, busTrace, BusScan.entry, BusScan.after, Pins.after, Pins.set, Pins.writePulse, scan, h]
  induction n generalizing b with
  | zero => exact step false b h1
  | succ n ih =>
    have hs := step true b h1
    have := ih { b with pins := { b.pins with E := false } } h1
    simp only [List.replicate_succ, List.flatten_cons, List.append_assoc]
    rw [busTrace_append, scan_append, hs.1, hs.2]
    exact ⟨by simpa using this.1, by simpa using this.2⟩

theorem busTrace_wait (cfg : Config) (b : BusScan) (n : Nat) :
    busTrace cfg b (waitEvents n) = (if b.selecting then [.sel (b.pins.selected cfg)] else []) ∧
    scan b (waitEvents n) =
      ⟨{ b.pins with DBDIR := true, RS := false, RW := false, E := false }, false⟩ := by
  have e : waitEvents n = [.dir false, .pin .RW true, .pin .RS false] ++
      (((List.replicate n (pollEvents true)).flatten ++ pollEvents false) ++ [.dir true, .pin .RW false]) := by
    simp [waitEvents]
  set b1 : BusScan := ⟨{ b.pins with DBDIR := false, RW := true, RS := false }, b.selecting⟩ with hb1
  have h1 : busTrace cfg b [.dir false, .pin .RW true, .pin .RS false] = [] ∧
      scan b [.dir false, .pin .RW true, .pin .RS false] = b1 := by
    simp [busTrace, BusScan.entry, BusScan.after, Pins.after, Pins.set, scan, hb1]
  have h2 := busTrace_polls cfg b1 rfl n
  generalize (List.replicate n (pollEvents true)).flatten ++ pollEvents false = mid at e h2
  rw [e, busTrace_append, scan_append, h1.1, h1.2, busTrace_append, scan_append, h2.1, h2.2]
  constructor
  · simp [busTrace, BusScan.entry, BusScan.after, Pins.after, Pins.selected, Pins.selects, hb1]
  · simp [scan, BusScan.after, Pins.after, Pins.set, hb1]

theorem busTrace_strobe (cfg : Config) (p : Pins) (hd : p.DBDIR = true) (rs : Bool) (b : Byte) :
    busTrace cfg ⟨p, false⟩ (strobeEvents rs b) = [if rs then .data b else .cmd b] ∧
    scan ⟨p, false⟩ (strobeEvents rs b) =
      ⟨{ p with RS := rs, RW := false, DBOUT := b, E := false }, false⟩ := by
  simp [strobeEvents, busTrace, BusScan.entry, BusScan.after, Pins.after, Pins.set, Pins.writePulse, scan, hd]

theorem busTrace_sel (cfg : Config) (p : Pins) (id : Byte) :
    busTrace cfg ⟨p, false⟩ (selEvents cfg id) = [] ∧
    scan ⟨p, false⟩ (selEvents cfg id) =
      ⟨{ p with CS1 := if id = 1 then cfg.csActive else !cfg.csActive
                CS2 := if id = 2 then cfg.csActive else !cfg.csActive }, true⟩ := by
  unfold selEvents
  by_cases h1 : id = 1#8
  · subst h1; simp [busTrace, BusScan.entry, BusScan.after, Pins.after, Pins.set, scan]
  · by_cases h2 : id = 2#8
    · subst h2; simp [busTrace, BusScan.entry, BusScan.after, Pins.after, Pins.set, scan]
    · simp [busTrace, BusScan.entry, BusScan.after, Pins.after, Pins.set, scan, h1, h2]


/-! ## Display effect -/

theorem onChip_selected (s : State) (f : ChipId → State → State) :
    s.onChip f = match s.pins.selected s.cfg with | some k => f k s | none => s := by
  unfold State.onChip State.addressed addressedBy Pins.selected Pins.selects
  cases s.pins.CS1 == s.cfg.csActive <;> cases s.pins.CS2 == s.cfg.csActive <;> rfl

theorem display_iff {s u : State} : u.display = s.display ↔
    (u.chip1.regs = s.chip1.regs ∧ u.chip2.regs = s.chip2.regs ∧ u.ram = s.ram ∧ u.draws = s.draws) := by
  simp [State.display]

theorem regs_chip {s u : State} (h : u.display = s.display) (k : ChipId) : (u.chip k).regs = (s.chip k).regs := by
  rw [display_iff] at h
  cases k
  · exact h.1
  · exact h.2.1

theorem display_setChip {s u : State} (h : u.display = s.display) (k : ChipId) {c d : Chip} (hc : c.regs = d.regs) :
    (u.setChip k c).display = (s.setChip k d).display := by
  rw [display_iff] at *
  cases k <;> simp [State.setChip, h, hc]

theorem dataOn_congr {s u : State} (h : u.display = s.display) (hc : u.cfg = s.cfg) (b : Byte) (k : ChipId) :
    (dataOn b k u).display = (dataOn b k s).display := by
  have hr := regs_chip h k
  simp only [Chip.regs, Prod.mk.injEq] at hr
  obtain ⟨hx, hy, hz, ho⟩ := hr
  have hd : u.draws = s.draws := (display_iff.mp h).2.2.2
  unfold dataOn
  simp only [hx, hy, hd, hc]
  split
  · refine display_setChip ?_ k (by simp [Chip.regs, hz, ho])
    rw [display_iff] at h ⊢
    exact ⟨h.1, h.2.1, by simp only [h.2.2.1], rfl⟩
  · rw [display_iff] at h ⊢
    exact ⟨h.1, h.2.1, by simp only [h.2.2.1], rfl⟩

theorem commandOn_congr {s u : State} (h : u.display = s.display) (hc : u.cfg = s.cfg) (b : Byte) (k : ChipId) :
    (commandOn b k u).display = (commandOn b k s).display := by
  have hr := regs_chip h k
  simp only [Chip.regs, Prod.mk.injEq] at hr
  obtain ⟨hx, hy, hz, ho⟩ := hr
  have hd : u.draws = s.draws := (display_iff.mp h).2.2.2
  unfold commandOn setPageOn setColOn displayOnOn startLineOn unknownCommandOn
  rw [hc]
  split
  · exact display_setChip h k (by simp [Chip.regs, hy, hz, ho])
  · exact display_setChip h k (by simp [Chip.regs, hx, hz, ho])
  · exact display_setChip h k (by simp [Chip.regs, hx, hy, ho])
  · exact display_setChip h k (by simp [Chip.regs, hx, hy, hz])
  · simp only [hd]
    refine display_setChip ?_ k (by simp [Chip.regs, hy])
    rw [display_iff] at h ⊢
    exact ⟨h.1, h.2.1, by simp only [h.2.2.1], rfl⟩

theorem on_congr {s u : State} (h : u.display = s.display) (hc : u.cfg = s.cfg) (e : BusEntry) (k : Option ChipId) :
    (e.on k u).display = (e.on k s).display := by
  cases e <;> cases k <;> simp only [BusEntry.on, h]
  · exact commandOn_congr h hc _ _
  · exact dataOn_congr h hc _ _

@[simp] theorem on_cfg (e : BusEntry) (k : Option ChipId) (s : State) : (e.on k s).cfg = s.cfg := by
  cases e <;> cases k <;> simp [BusEntry.on]

theorem displayEffect_congr {s u : State} (h : u.display = s.display) (hc : u.cfg = s.cfg) (es : List BusEntry)
    (k : Option ChipId) : (displayEffect k es u).display = (displayEffect k es s).display := by
  induction es generalizing s u k with
  | nil => exact h
  | cons e es ih => exact ih (on_congr h hc e k) (by simp [hc]) _

theorem receiver_append (k : Option ChipId) (xs ys : List BusEntry) :
    receiver k (xs ++ ys) = receiver (receiver k xs) ys := by
  induction xs generalizing k with
  | nil => rfl
  | cons x xs ih => cases x <;> exact ih _

theorem displayEffect_append (k : Option ChipId) (xs ys : List BusEntry) (s : State) :
    displayEffect k (xs ++ ys) s = displayEffect (receiver k xs) ys (displayEffect k xs s) := by
  induction xs generalizing k s with
  | nil => rfl
  | cons x xs ih =>
    simp only [List.cons_append, displayEffect, ih]
    cases x <;> rfl

@[simp] theorem displayEffect_cfg (k : Option ChipId) (es : List BusEntry) (s : State) :
    (displayEffect k es s).cfg = s.cfg := by
  induction es generalizing k s with
  | nil => rfl
  | cons e es ih => simp [displayEffect, ih]

theorem exitPins_append (cfg : Config) (p : Pins) (xs ys : List BusEntry) :
    exitPins cfg p (xs ++ ys) = exitPins cfg (exitPins cfg p xs) ys := by
  induction xs generalizing p with
  | nil => rfl
  | cons x xs ih => cases x <;> exact ih _

theorem selected_exitPins (cfg : Config) (p : Pins) (es : List BusEntry) :
    (exitPins cfg p es).selected cfg = receiver (p.selected cfg) es := by
  induction es generalizing p with
  | nil => rfl
  | cons e es ih =>
    cases e with
    | sel k =>
      simp only [exitPins, receiver, ih]
      congr 1
      rcases k with _ | k
      · simp [Pins.selected, Pins.selects]
      · cases k <;> simp [Pins.selected, Pins.selects]
    | cmd b => exact ih _
    | data b => exact ih _

theorem selects_not_both {p : Pins} {cfg : Config} :
    addressedBy cfg.csActive p.CS1 p.CS2 ≠ .both ↔ (p.CS1 == cfg.csActive && p.CS2 == cfg.csActive) = false := by
  unfold addressedBy
  cases p.CS1 == cfg.csActive <;> cases p.CS2 == cfg.csActive <;> simp

theorem exitPins_not_both (cfg : Config) (p : Pins) (es : List BusEntry)
    (h : addressedBy cfg.csActive p.CS1 p.CS2 ≠ .both) :
    addressedBy cfg.csActive (exitPins cfg p es).CS1 (exitPins cfg p es).CS2 ≠ .both := by
  induction es generalizing p with
  | nil => exact h
  | cons e es ih =>
    cases e with
    | sel k =>
      refine ih _ ?_
      rw [selects_not_both]
      rcases k with _ | k
      · simp
      · cases k <;> simp
    | cmd b => exact ih _ h
    | data b => exact ih _ h

/-! ## What a stretch of a run did -/

/-- A stretch of a run from `s` to `t` with the bus trace `entries`, every busy-wait answered. The working registers and
DIAG are left to each procedure's own lemma. -/
structure Did (s t : State) (entries : List BusEntry) : Prop where
  events : ∃ es, t.trace = es.reverse ++ s.trace ∧ busTrace s.cfg ⟨s.pins, false⟩ es = entries ∧
    scan ⟨s.pins, false⟩ es = ⟨t.pins, false⟩
  pins : t.pins = exitPins s.cfg s.pins entries
  display : t.display = (displayEffect (s.pins.selected s.cfg) entries s).display
  db7 : t.db7 = afterAnswers entries.length s.db7
  fsm : t.FSM = if entries = [] then s.FSM else .idle
  cfg : t.cfg = s.cfg
  RUN : t.RUN = s.RUN
  RBUF : t.RBUF = s.RBUF
  RLEN : t.RLEN = s.RLEN
  stream : t.stream = s.stream
  rst_n : t.rst_n = s.rst_n

theorem afterAnswers_add (m n : Nat) (l : List Bool) : afterAnswers (m + n) l = afterAnswers n (afterAnswers m l) := by
  induction m generalizing l with
  | zero => simp [afterAnswers]
  | succ m ih => rw [Nat.succ_add]; exact ih _

theorem Did.nil (s : State) : Did s s [] :=
  ⟨⟨[], rfl, rfl, rfl⟩, rfl, rfl, rfl, rfl, rfl, rfl, rfl, rfl, rfl, rfl⟩

/-- A stretch without a pin event. -/
theorem Did.silent {s t : State} (h1 : t.trace = s.trace) (h2 : t.pins = s.pins) (h3 : t.display = s.display)
    (h4 : t.db7 = s.db7) (h5 : t.FSM = s.FSM) (h6 : t.cfg = s.cfg) (h7 : t.RUN = s.RUN) (h8 : t.RBUF = s.RBUF)
    (h9 : t.RLEN = s.RLEN) (h10 : t.stream = s.stream) (h11 : t.rst_n = s.rst_n) : Did s t [] :=
  ⟨⟨[], by simpa using h1, rfl, by simp [scan, h2]⟩, h2, h3, h4, by simpa using h5, h6, h7, h8, h9, h10, h11⟩

theorem Did.trans {s t u : State} {xs ys : List BusEntry} (h1 : Did s t xs) (h2 : Did t u ys) : Did s u (xs ++ ys) := by
  obtain ⟨⟨e1, ht1, hb1, hs1⟩, p1, d1, a1, f1, c1, r1, b1, l1, m1, n1⟩ := h1
  obtain ⟨⟨e2, ht2, hb2, hs2⟩, p2, d2, a2, f2, c2, r2, b2, l2, m2, n2⟩ := h2
  refine ⟨⟨e1 ++ e2, by simp [ht1, ht2], ?_, ?_⟩, ?_, ?_, ?_, ?_, c2.trans c1, r2.trans r1, b2.trans b1, l2.trans l1,
    m2.trans m1, n2.trans n1⟩
  · rw [busTrace_append, hb1, hs1, ← c1, hb2]
  · rw [scan_append, hs1, hs2]
  · rw [exitPins_append, p2, c1, p1]
  · rw [d2, displayEffect_append, ← selected_exitPins, ← p1, ← c1]
    exact displayEffect_congr (by rw [d1, c1]) (by simp [c1]) _ _
  · rw [a2, a1, List.length_append, afterAnswers_add]
  · rw [f2, f1]
    cases xs <;> cases ys <;> simp

theorem Did.notBoth {s t : State} {es : List BusEntry} (h : Did s t es) (ha : s.addressed ≠ .both) :
    t.addressed ≠ .both := by
  unfold State.addressed at *
  rw [h.cfg, h.pins]
  exact exitPins_not_both _ _ _ ha

/-- The bus trace of the claims. -/
theorem Did.busSince {s t : State} {es : List BusEntry} (h : Did s t es) : t.busSince s = es := by
  obtain ⟨e, ht, hb, -⟩ := h.events
  unfold State.busSince State.eventsSince
  rw [ht]
  simpa using hb

theorem did_selected (id : Byte) (s : State) : Did s (selected id s) [.sel (chipOfId id)] := by
  have hsel := busTrace_sel s.cfg s.pins id
  have hw := busTrace_wait s.cfg
    ⟨{ s.pins with CS1 := if id = 1 then s.cfg.csActive else !s.cfg.csActive
                   CS2 := if id = 2 then s.cfg.csActive else !s.cfg.csActive }, true⟩ (polls s.db7)
  refine ⟨⟨selEvents s.cfg id ++ waitEvents (polls s.db7), ?_, ?_, ?_⟩, ?_, ?_, rfl, rfl, rfl, rfl, rfl, rfl, rfl, rfl⟩
  · simp [selected, waited, chosen]
  · rw [busTrace_append, hsel.1, hsel.2, hw.1]
    unfold chipOfId
    by_cases h1 : id = 1#8
    · subst h1; simp [Pins.selected, Pins.selects]
    · by_cases h2 : id = 2#8
      · subst h2; simp [Pins.selected, Pins.selects]
      · simp [h1, h2, Pins.selected, Pins.selects]
  · rw [scan_append, hsel.2, hw.2]
    rfl
  · simp only [selected, waited, chosen, exitPins, chipOfId]
    by_cases h1 : id = 1#8
    · subst h1; simp
    · by_cases h2 : id = 2#8
      · subst h2; simp
      · simp [h1, h2]
  · rfl

theorem did_transfer (rs : Bool) (b : Byte) (s : State) :
    let t := strobed rs b (waited s)
    (∃ es, t.trace = es.reverse ++ s.trace ∧
      busTrace s.cfg ⟨s.pins, false⟩ es = [if rs then .data b else .cmd b] ∧
      scan ⟨s.pins, false⟩ es = ⟨t.pins, false⟩) ∧
    t.pins = exitPins s.cfg s.pins [if rs then .data b else .cmd b] ∧ t.display = s.display := by
  have hw := busTrace_wait s.cfg ⟨s.pins, false⟩ (polls s.db7)
  have hs := busTrace_strobe s.cfg { s.pins with DBDIR := true, RS := false, RW := false, E := false } rfl rs b
  refine ⟨⟨waitEvents (polls s.db7) ++ strobeEvents rs b, ?_, ?_, ?_⟩, ?_, rfl⟩
  · simp [strobed, waited]
  · rw [busTrace_append, hw.1, hw.2, hs.1]; rfl
  · rw [scan_append, hw.2, hs.2]; rfl
  · cases rs <;> rfl

theorem did_commanded (b : Byte) (s : State) : Did s (commanded b s) [.cmd b] := by
  obtain ⟨hev, hp, hd⟩ := did_transfer false b s
  have keep : ∀ {β : Type} (g : State → β), (∀ k u, g (commandOn b k u) = g u) →
      g (commanded b s) = g (strobed false b (waited s)) := fun g hg => onChip_keeps g _ hg _
  have hc : (commanded b s).cfg = s.cfg := keep State.cfg (fun _ _ => commandOn_cfg ..)
  have hpins := keep State.pins (fun _ _ => commandOn_pins ..)
  have htr := keep State.trace (fun _ _ => commandOn_trace ..)
  refine ⟨?_, ?_, ?_, keep State.db7 (fun _ _ => commandOn_db7 ..), keep State.FSM (fun _ _ => commandOn_FSM ..), hc,
    keep State.RUN (fun _ _ => commandOn_RUN ..), keep State.RBUF (fun _ _ => commandOn_RBUF ..),
    keep State.RLEN (fun _ _ => commandOn_RLEN ..), keep State.stream (fun _ _ => commandOn_stream ..),
    keep State.rst_n (fun _ _ => commandOn_rst_n ..)⟩
  · rw [hpins, htr]; exact hev
  · rw [hpins]; exact hp
  · unfold commanded
    rw [onChip_selected]
    have : (strobed false b (waited s)).pins.selected (strobed false b (waited s)).cfg = s.pins.selected s.cfg := rfl
    rw [this]
    simp only [displayEffect]
    cases s.pins.selected s.cfg with
    | none => exact hd
    | some k => exact commandOn_congr hd rfl b k

theorem did_written (b : Byte) (s : State) : Did s (written b s) [.data b] := by
  obtain ⟨hev, hp, hd⟩ := did_transfer true b s
  have keep : ∀ {β : Type} (g : State → β), (∀ k u, g (dataOn b k u) = g u) →
      g (written b s) = g (strobed true b (waited s)) := fun g hg => onChip_keeps g _ hg _
  have hc : (written b s).cfg = s.cfg := keep State.cfg (fun _ _ => dataOn_cfg ..)
  have hpins := keep State.pins (fun _ _ => dataOn_pins ..)
  have htr := keep State.trace (fun _ _ => dataOn_trace ..)
  refine ⟨?_, ?_, ?_, keep State.db7 (fun _ _ => dataOn_db7 ..), keep State.FSM (fun _ _ => dataOn_FSM ..), hc,
    keep State.RUN (fun _ _ => dataOn_RUN ..), keep State.RBUF (fun _ _ => dataOn_RBUF ..),
    keep State.RLEN (fun _ _ => dataOn_RLEN ..), keep State.stream (fun _ _ => dataOn_stream ..),
    keep State.rst_n (fun _ _ => dataOn_rst_n ..)⟩
  · rw [hpins, htr]; exact hev
  · rw [hpins]; exact hp
  · unfold written
    rw [onChip_selected]
    have : (strobed true b (waited s)).pins.selected (strobed true b (waited s)).cfg = s.pins.selected s.cfg := rfl
    rw [this]
    simp only [displayEffect]
    cases s.pins.selected s.cfg with
    | none => exact hd
    | some k => exact dataOn_congr hd rfl b k

end Sys2Proof.Machine
end

