-- ==== Sys2Proof/Laws/Memory.lean ====
section
/-! SUPPORT. Display data RAM: what a read answers after each memory operation, the keys, and the canonical form, which
every operation keeps. -/

namespace Sys2Proof.Machine

/-! ## One byte -/

theorem Memory.read_write (m : Memory) (a b : Nat) (v : Byte) :
    (m.write a v).read b = if a = b then some v else m.read b := by
  induction m with
  | nil => simp [Memory.write, Memory.read]
  | cons c m ih =>
    obtain ⟨x, w⟩ := c
    simp only [Memory.write]
    split
    · simp [Memory.read]
    · split
      · rename_i h; subst h
        by_cases hb : a = b <;> simp [Memory.read, hb]
      · rename_i h
        simp only [Memory.read, ih]
        by_cases hx : x = b
        · subst hx; simp [h]
        · simp [hx]

theorem Memory.read_write_same (m : Memory) (a : Nat) (v : Byte) : (m.write a v).read a = some v := by
  simp [Memory.read_write]

theorem Memory.read_write_other (m : Memory) {a b : Nat} (v : Byte) (h : a ≠ b) : (m.write a v).read b = m.read b := by
  simp [Memory.read_write, h]

theorem Memory.read_filter (m : Memory) (p : Nat → Bool) (b : Nat) :
    Memory.read (m.filter fun c => p c.1) b = if p b then m.read b else none := by
  induction m with
  | nil => simp [Memory.read]
  | cons c m ih =>
    obtain ⟨x, w⟩ := c
    by_cases hp : p x
    · simp only [List.filter_cons, hp, if_true, Memory.read, ih]
      by_cases hx : x = b
      · subst hx; simp [hp]
      · simp [hx]
    · simp only [List.filter_cons, hp, Memory.read, Bool.false_eq_true, if_false, ih]
      by_cases hx : x = b
      · subst hx; simp [hp]
      · simp [hx]

theorem Memory.read_forget (m : Memory) (a b : Nat) : (m.forget a).read b = if b = a then none else m.read b := by
  unfold Memory.forget
  rw [Memory.read_filter m (fun x => x != a)]
  by_cases h : b = a <;> simp [h]

theorem Memory.read_forgetChip (m : Memory) (k : ChipId) (b : Nat) :
    (m.forgetChip k).read b = if b / 512 = k.index then none else m.read b := by
  unfold Memory.forgetChip
  rw [Memory.read_filter m (fun x => x / 512 != k.index)]
  by_cases h : b / 512 = k.index <;> simp [h]

/-! ## Keys -/

theorem ddramKey_lt (k : ChipId) (p : BitVec 3) (l : BitVec 6) : ddramKey k p l < ddramSize := by
  have := p.isLt; have := l.isLt
  unfold ddramKey ddramSize
  cases k <;> simp [ChipId.index] <;> omega

theorem ddramKey_inj {k k' : ChipId} {p p' : BitVec 3} {l l' : BitVec 6} :
    ddramKey k p l = ddramKey k' p' l' ↔ k = k' ∧ p = p' ∧ l = l' := by
  have h1 := p.isLt; have h2 := l.isLt; have h3 := p'.isLt; have h4 := l'.isLt
  unfold ddramKey
  constructor
  · intro h
    have e1 : k.index = k'.index := by omega
    have e2 : p.toNat = p'.toNat := by omega
    have e3 : l.toNat = l'.toNat := by omega
    exact ⟨by cases k <;> cases k' <;> simp_all [ChipId.index], BitVec.eq_of_toNat_eq e2, BitVec.eq_of_toNat_eq e3⟩
  · rintro ⟨rfl, rfl, rfl⟩; rfl

theorem ddramKey_chip (k : ChipId) (p : BitVec 3) (l : BitVec 6) : ddramKey k p l / 512 = k.index := by
  have h1 := p.isLt; have h2 := l.isLt
  unfold ddramKey
  omega

/-! ## The canonical form -/

/-- The canonical form in two parts: keys strictly rising, and inside the RAM. -/
theorem Memory.wf_iff (m : Memory) :
    m.wf = true ↔ m.Pairwise (fun c d => c.1 < d.1) ∧ ∀ c ∈ m, c.1 < ddramSize := by
  induction m with
  | nil => simp [Memory.wf]
  | cons c m ih =>
    obtain ⟨x, w⟩ := c
    cases m with
    | nil => simp [Memory.wf]
    | cons d m =>
      obtain ⟨y, z⟩ := d
      simp only [Memory.wf, Bool.and_eq_true, decide_eq_true_eq, ih, List.pairwise_cons, List.mem_cons, forall_eq_or_imp]
      constructor
      · rintro ⟨h1, ⟨h2, h3⟩, h4, h5⟩
        exact ⟨⟨⟨h1, fun e he => lt_trans h1 (h2 e he)⟩, h2, h3⟩, lt_trans h1 h4, h4, h5⟩
      · rintro ⟨⟨⟨h1, -⟩, h2, h3⟩, -, h4, h5⟩
        exact ⟨h1, ⟨h2, h3⟩, h4, h5⟩

theorem Memory.mem_write {m : Memory} {a : Nat} {v : Byte} {c : Host.Cell} (h : c ∈ m.write a v) :
    c = (a, v) ∨ c ∈ m := by
  induction m with
  | nil => simpa [Memory.write] using h
  | cons d m ih =>
    obtain ⟨x, w⟩ := d
    simp only [Memory.write] at h
    split at h
    · simpa using h
    · split at h
      · rcases List.mem_cons.mp h with h | h
        · exact .inl h
        · exact .inr (by simp [h])
      · rcases List.mem_cons.mp h with h | h
        · exact .inr (by simp [h])
        · rcases ih h with h | h
          · exact .inl h
          · exact .inr (by simp [h])

theorem Memory.write_wf {m : Memory} (h : m.wf = true) {a : Nat} (ha : a < ddramSize) (v : Byte) :
    (m.write a v).wf = true := by
  rw [Memory.wf_iff] at *
  refine ⟨?_, fun c hc => ?_⟩
  · obtain ⟨h, -⟩ := h
    induction m with
    | nil => simp [Memory.write]
    | cons d m ih =>
      obtain ⟨x, w⟩ := d
      obtain ⟨h1, h2⟩ := List.pairwise_cons.mp h
      simp only [Memory.write]
      split
      · rename_i hlt
        refine List.pairwise_cons.mpr ⟨fun e he => ?_, h⟩
        rcases List.mem_cons.mp he with rfl | he
        · exact hlt
        · exact lt_trans hlt (h1 e he)
      · split
        · rename_i hx; subst hx
          exact List.pairwise_cons.mpr ⟨h1, h2⟩
        · refine List.pairwise_cons.mpr ⟨fun e he => ?_, ih h2⟩
          rcases Memory.mem_write he with rfl | he
          · simp only; omega
          · exact h1 e he
  · rcases Memory.mem_write hc with rfl | hc
    · exact ha
    · exact h.2 c hc

theorem Memory.filter_wf {m : Memory} (h : m.wf = true) (p : Host.Cell → Bool) : Memory.wf (m.filter p) = true := by
  rw [Memory.wf_iff] at *
  exact ⟨h.1.filter p, fun c hc => h.2 c (List.mem_of_mem_filter hc)⟩

theorem Memory.forget_wf {m : Memory} (h : m.wf = true) (a : Nat) : (m.forget a).wf = true := Memory.filter_wf h _

theorem Memory.forgetChip_wf {m : Memory} (h : m.wf = true) (k : ChipId) : (m.forgetChip k).wf = true :=
  Memory.filter_wf h _

theorem reset_ram_wf : State.reset.ram.wf = true := rfl

/-- Memories in canonical form that read alike are equal. -/
theorem Memory.ext_of_wf {m n : Memory} (hm : m.wf = true) (hn : n.wf = true) (h : ∀ a, m.read a = n.read a) : m = n := by
  rw [Memory.wf_iff] at hm hn
  replace hm := hm.1
  replace hn := hn.1
  have none_of : ∀ (m : Memory) (a : Nat), (∀ c ∈ m, a < c.1) → m.read a = none := by
    intro m a hlt
    induction m with
    | nil => rfl
    | cons c m ih =>
      obtain ⟨x, w⟩ := c
      have h1 := hlt (x, w) (by simp)
      simp only [Memory.read, ih fun c hc => hlt c (by simp [hc])]
      rw [if_neg (by simp only at h1; omega)]
  induction m generalizing n with
  | nil =>
    cases n with
    | nil => rfl
    | cons c n => have := h c.1; simp [Memory.read] at this
  | cons c m ih =>
    cases n with
    | nil => have := h c.1; simp [Memory.read] at this
    | cons d n =>
      obtain ⟨x, w⟩ := c
      obtain ⟨y, z⟩ := d
      obtain ⟨m1, m2⟩ := List.pairwise_cons.mp hm
      obtain ⟨n1, n2⟩ := List.pairwise_cons.mp hn
      have hx := h x
      have hy := h y
      have hxy : x = y := by
        rcases lt_trichotomy x y with hlt | heq | hgt
        · have := none_of ((y, z) :: n) x (fun e he => by
            rcases List.mem_cons.mp he with rfl | he
            · exact hlt
            · exact lt_trans hlt (n1 e he))
          rw [this] at hx; simp [Memory.read] at hx
        · exact heq
        · have := none_of ((x, w) :: m) y (fun e he => by
            rcases List.mem_cons.mp he with rfl | he
            · exact hgt
            · exact lt_trans hgt (m1 e he))
          rw [this] at hy; simp [Memory.read] at hy
      subst hxy
      have hw : w = z := by simpa [Memory.read] using hx
      subst hw
      rw [ih (n := n) (fun a => ?_) m2 n2]
      by_cases ha : x = a
      · subst ha
        rw [none_of m x m1, none_of n x n1]
      · have := h a
        simpa [Memory.read, ha] using this

end Sys2Proof.Machine
end

