-- ==== Sys2Proof/Laws/Act.lean ====
section
/-! SUPPORT. What any act leaves: the one inversion lemma of the sequencer, `act_frame`. -/

namespace Sys2Proof.Machine

/-- What any act leaves, whatever the act: one event at most, and the few acts that change RUN, DIAG, RBUF or the
display are named. -/
structure ActFrame (a : Act) (s t : State) : Prop where
  cfg : t.cfg = s.cfg
  stream : t.stream = s.stream
  rst_n : t.rst_n = s.rst_n
  SP : s.SP ≤ t.SP
  RUN : a ≠ .finish → t.RUN = s.RUN
  DIAG : a ≠ .clearDiag → s.DIAG &&& t.DIAG = s.DIAG
  result : (∀ v, a ≠ .itoa v) → t.RBUF = s.RBUF ∧ t.RLEN = s.RLEN
  todo : ∃ body, t.todo = body ++ s.todo ∧ Act.finish ∉ body ∧
    (Act.clearDiag ∈ body → a = .dispatch ∧ s.lat.OPC = 0x01)
  event : ∃ es : List PinEvent, es.length ≤ 1 ∧ t.trace = es.reverse ++ s.trace ∧ t.pins = replay s.pins es
  display : a ≠ .pin .E false → (∀ l, a ≠ .pin .RSTN l) → (∀ v, a ≠ .itoa v) → t.display = s.display
  ramWf : s.ram.wf = true → t.ram.wf = true

/-- A change of no field that the frame names. -/
theorem ActFrame.of {a : Act} {s t : State} (body : List Act) (es : List PinEvent) (h1 : t.cfg = s.cfg)
    (h2 : t.stream = s.stream) (h3 : t.rst_n = s.rst_n) (h4 : s.SP ≤ t.SP) (h5 : a ≠ .finish → t.RUN = s.RUN)
    (h6 : a ≠ .clearDiag → s.DIAG &&& t.DIAG = s.DIAG)
    (h7 : (∀ v, a ≠ .itoa v) → t.RBUF = s.RBUF ∧ t.RLEN = s.RLEN)
    (h8 : t.todo = body ++ s.todo) (h9 : Act.finish ∉ body ∧ Act.clearDiag ∉ body) (h10 : es.length ≤ 1) (h11 : t.trace = es.reverse ++ s.trace)
    (h12 : t.pins = replay s.pins es) (h13 : t.display = s.display) : ActFrame a s t :=
  ⟨h1, h2, h3, h4, h5, h6, h7, ⟨body, h8, h9.1, fun h => absurd h h9.2⟩, ⟨es, h10, h11, h12⟩, fun _ _ _ => h13,
    fun h => by rw [(display_iff.mp h13).2.2.1]; exact h⟩

theorem sticky_raise (b : DiagBit) (d : BitVec 4) : d &&& raise b d = d := by
  unfold raise
  ext i
  simp +contextual

theorem sticky_raiseIf (c : Bool) (b : DiagBit) (d : BitVec 4) : d &&& raiseIf c b d = d := by
  cases c <;> simp [raiseIf, sticky_raise]

theorem setChip_ramWf {s : State} {k : ChipId} {c : Chip} (h : s.ram.wf = true) : (s.setChip k c).ram.wf = true := by
  rw [setChip_ram]; exact h

theorem dataOn_ramWf {b : Byte} {k : ChipId} {s : State} (h : s.ram.wf = true) : (dataOn b k s).ram.wf = true := by
  unfold dataOn
  simp only
  split
  · rw [setChip_ram]; exact Memory.write_wf h (ddramKey_lt ..) _
  · exact Memory.write_wf h (ddramKey_lt ..) _

theorem commandOn_ramWf {b : Byte} {k : ChipId} {s : State} (h : s.ram.wf = true) : (commandOn b k s).ram.wf = true := by
  unfold commandOn setPageOn setColOn displayOnOn startLineOn unknownCommandOn
  split <;> (rw [setChip_ram]; first | exact h | exact Memory.forgetChip_wf h k)

/-- What the chips' reaction to a write pulse leaves. -/
theorem latchByte_frame {s t : State} (h : latchByte s = .next t) :
    t.cfg = s.cfg ∧ t.stream = s.stream ∧ t.rst_n = s.rst_n ∧ t.SP = s.SP ∧ t.RUN = s.RUN ∧ t.DIAG = s.DIAG ∧
    t.RBUF = s.RBUF ∧ t.RLEN = s.RLEN ∧ t.todo = s.todo ∧ t.trace = s.trace ∧ t.pins = s.pins ∧
    (s.ram.wf = true → t.ram.wf = true) := by
  have keeps : ∀ {β : Type} (g : State → β), (∀ b k u, g (dataOn b k u) = g u) → (∀ b k u, g (commandOn b k u) = g u) →
      g t = g s := by
    intro β g h1 h2
    rw [latchByte_next h]
    refine onChip_keeps g _ (fun k u => ?_) s
    unfold transferOn
    split
    · exact h1 _ k u
    · exact h2 _ k u
  refine ⟨keeps State.cfg ?_ ?_, keeps State.stream ?_ ?_, keeps State.rst_n ?_ ?_, keeps State.SP ?_ ?_,
    keeps State.RUN ?_ ?_, keeps State.DIAG ?_ ?_, keeps State.RBUF ?_ ?_, keeps State.RLEN ?_ ?_, keeps State.todo ?_ ?_,
    keeps State.trace ?_ ?_, keeps State.pins ?_ ?_, fun hw => ?_⟩
  all_goals first | (intro b k u; simp) | skip
  rw [latchByte_next h]
  unfold State.onChip transferOn
  split
  · split
    · exact dataOn_ramWf hw
    · exact commandOn_ramWf hw
  · exact hw

theorem drivePin_frame {n : PinName} {l : Bool} {s t : State} (h : drivePin n l s = .next t) :
    ActFrame (.pin n l) s t := by
  have plain : ∀ u : State, u = State.record { s with pins := s.pins.set n l } (.pin n l) → ActFrame (.pin n l) s u := by
    intro u hu
    subst hu
    exact .of [] [.pin n l] rfl rfl rfl (Nat.le_refl _) (fun _ => rfl) (fun _ => by simp) (fun _ => ⟨rfl, rfl⟩) rfl
      (by simp) (by simp) rfl rfl rfl
  have hp := plain _ rfl
  unfold drivePin at h
  simp only at h
  split at h
  · split at h
    · rename_i hl
      simp only [Bool.and_eq_true, Bool.not_eq_true'] at hl
      obtain ⟨h1, h2, h3, h4, h5, h6, h7, h8, h9, h10, h11, h12⟩ := latchByte_frame h
      refine ⟨h1, h2, h3, h4.symm ▸ Nat.le_refl _, fun _ => h5, fun _ => by rw [h6]; simp, fun _ => ⟨h7, h8⟩,
        ⟨[], h9, by simp⟩, ⟨[.pin .E l], by simp, h10, h11⟩, fun he => absurd (by rw [hl.1]) he, h12⟩
    · cases h; exact hp
  · split at h
    · cases h; exact hp
    · cases h
      exact ⟨hp.cfg, hp.stream, hp.rst_n, hp.SP, hp.RUN, hp.DIAG, hp.result, hp.todo, hp.event,
        fun _ hr => absurd rfl (hr l), fun _ => rfl⟩
  · cases h; exact hp

/-- The steps of an operation hold no other operation's end, and clear DIAG only in INIT. -/
theorem actsOf_marks (cfg : Config) (l : Latches) :
    Act.finish ∉ actsOf cfg l.instr ∧ (Act.clearDiag ∈ actsOf cfg l.instr → l.OPC = 0x01) := by
  unfold Latches.instr
  split
  · rename_i h
    exact ⟨by simp [actsOf, initBody, initOpening, initChip], fun _ => BitVec.eq_of_toNat_eq h⟩
  all_goals simp [actsOf, wpctBody]

/-- Everything an act can do to the fields the invariants speak of. -/
theorem act_frame {a : Act} {s t : State} (h : act a s = .next t) : ActFrame a s t := by
  have body : ∀ (b : List Act) (u : State), Act.finish ∉ b ∧ Act.clearDiag ∉ b → u.todo = b ++ s.todo → u.cfg = s.cfg → u.stream = s.stream →
      u.rst_n = s.rst_n → s.SP ≤ u.SP → u.RUN = s.RUN → s.DIAG &&& u.DIAG = s.DIAG → u.RBUF = s.RBUF → u.RLEN = s.RLEN →
      u.trace = s.trace → u.pins = s.pins → u.display = s.display → ActFrame a s u := by
    intro b u h1 h2 h3 h4 h5 h6 h7 h8 h9 h10 h11 h12 h13
    exact .of b [] h3 h4 h5 h6 (fun _ => h7) (fun _ => h8) (fun _ => ⟨h9, h10⟩) h2 h1 (by simp) h11 h12 h13
  have self : s.DIAG &&& s.DIAG = s.DIAG := BitVec.and_self
  have call : ∀ b : List Act, Act.finish ∉ b ∧ Act.clearDiag ∉ b → ActFrame a s (s.call b) := fun b hb =>
    body b _ hb rfl rfl rfl rfl (Nat.le_refl _) rfl self rfl rfl rfl rfl rfl
  cases a with
  | pin n l => exact drivePin_frame h
  | dir out =>
    cases h
    exact .of [] [.dir out] rfl rfl rfl (Nat.le_refl _) (fun _ => rfl) (fun _ => self) (fun _ => ⟨rfl, rfl⟩) rfl
      (by simp) (by simp) rfl rfl rfl
  | dbw v =>
    cases h
    exact .of [] [.dbw v] rfl rfl rfl (Nat.le_refl _) (fun _ => rfl) (fun _ => self) (fun _ => ⟨rfl, rfl⟩) rfl
      (by simp) (by simp) rfl rfl rfl
  | delay n =>
    cases h
    exact .of [] [.delay n] rfl rfl rfl (Nat.le_refl _) (fun _ => rfl) (fun _ => self) (fun _ => ⟨rfl, rfl⟩) rfl
      (by simp) (by simp) rfl rfl rfl
  | rd7 =>
    simp only [act, readDB7] at h
    split at h
    · cases h
    split at h
    · cases h
    split at h
    · cases h
    cases h
    exact .of (afterSample s.busLevel) [.rd7 s.busLevel] rfl rfl rfl (Nat.le_refl _) (fun _ => rfl) (fun _ => self)
      (fun _ => ⟨rfl, rfl⟩) rfl (by cases s.busLevel <;> simp [afterSample]) (by simp) rfl rfl rfl
  | clearDiag =>
    cases h
    exact .of [] [] rfl rfl rfl (Nat.le_refl _) (fun _ => rfl) (fun hc => absurd rfl hc) (fun _ => ⟨rfl, rfl⟩) rfl
      (by simp) (by simp) rfl rfl rfl
  | finish =>
    cases h
    exact .of [] [] rfl rfl rfl (Nat.le_refl _) (fun hc => absurd rfl hc) (fun _ => self) (fun _ => ⟨rfl, rfl⟩) rfl
      (by simp) (by simp) rfl rfl rfl
  | itoa v =>
    cases h
    exact ⟨rfl, rfl, rfl, Nat.le_refl _, fun _ => rfl, fun _ => self, fun hc => absurd rfl (hc v), ⟨[], rfl, by simp⟩,
      ⟨[], by simp, rfl, rfl⟩, fun _ _ hc => absurd rfl (hc v), fun hw => hw⟩
  | fetch o =>
    simp only [act, withNext] at h
    split at h
    · cases h; exact call [.fetch o] (by simp)
    · cases h
      exact body [] _ (by simp) rfl rfl rfl rfl (Nat.le_succ _) rfl self rfl rfl rfl rfl rfl
  | chars p n =>
    cases n with
    | zero => cases h; exact body [] _ (by simp) rfl rfl rfl rfl (Nat.le_refl _) rfl self rfl rfl rfl rfl rfl
    | succ n =>
      simp only [act, withNext] at h
      split at h
      · cases h; exact call [.chars p (n + 1)] (by simp)
      · cases h
        simp only [placeChar]
        split
        · exact body [.chars p n] _ (by simp) rfl rfl rfl rfl (Nat.le_succ _) rfl (sticky_raise _ _) rfl rfl rfl rfl rfl
        · exact body [.wchar p _ _, .advance, .chars p n] _ (by simp) rfl rfl rfl rfl (Nat.le_succ _) rfl self rfl rfl rfl
            rfl rfl
  | goTo p c =>
    cases h
    unfold startGoTo
    split
    · exact body (goToBody s.cfg p c) _ (by simp [goToBody]) rfl rfl rfl rfl (Nat.le_refl _) rfl self rfl rfl rfl rfl rfl
    · exact body [] _ (by simp) rfl rfl rfl rfl (Nat.le_refl _) rfl (sticky_raise _ _) rfl rfl rfl rfl rfl
  | wchar p c ch =>
    cases h
    exact body (wcharBody p c) _ (by simp [wcharBody, glyphBody]) rfl rfl rfl rfl (Nat.le_refl _) rfl
      (sticky_raiseIf _ _ _) rfl rfl rfl rfl rfl
  | fill n b =>
    cases h
    cases n with
    | zero => exact body [] _ (by simp) rfl rfl rfl rfl (Nat.le_refl _) rfl self rfl rfl rfl rfl rfl
    | succ n => exact body [.wdata b, .fill n b] _ (by simp) rfl rfl rfl rfl (Nat.le_refl _) rfl self rfl rfl rfl rfl rfl
  | string p c n => cases h; exact body [.chars p n] _ (by simp) rfl rfl rfl rfl (Nat.le_refl _) rfl self rfl rfl rfl rfl rfl
  | bar hh =>
    cases h
    split
    · exact body [] _ (by simp) rfl rfl rfl rfl (Nat.le_refl _) rfl (sticky_raise _ _) rfl rfl rfl rfl rfl
    · exact call _ (by simp [barBody, barRows, barClearRow])
  | badCmd => cases h; exact body [] _ (by simp) rfl rfl rfl rfl (Nat.le_refl _) rfl (sticky_raise _ _) rfl rfl rfl rfl rfl
  | fsm f => cases h; exact body [] _ (by simp) rfl rfl rfl rfl (Nat.le_refl _) rfl self rfl rfl rfl rfl rfl
  | setK f => cases h; exact body [] _ (by simp) rfl rfl rfl rfl (Nat.le_refl _) rfl self rfl rfl rfl rfl rfl
  | setPgi f => cases h; exact body [] _ (by simp) rfl rfl rfl rfl (Nat.le_refl _) rfl self rfl rfl rfl rfl rfl
  | setHalf f => cases h; exact body [] _ (by simp) rfl rfl rfl rfl (Nat.le_refl _) rfl self rfl rfl rfl rfl rfl
  | setRow f => cases h; exact body [] _ (by simp) rfl rfl rfl rfl (Nat.le_refl _) rfl self rfl rfl rfl rfl rfl
  | advance => cases h; exact body [] _ (by simp) rfl rfl rfl rfl (Nat.le_refl _) rfl self rfl rfl rfl rfl rfl
  | dispatch =>
    cases h
    have hw := actsOf_marks s.cfg s.lat
    exact ⟨rfl, rfl, rfl, Nat.le_refl _, fun _ => rfl, fun _ => self, fun _ => ⟨rfl, rfl⟩,
      ⟨_, rfl, hw.1, fun hc => ⟨rfl, hw.2 hc⟩⟩, ⟨[], by simp, rfl, rfl⟩, fun _ _ _ => rfl, fun hw => hw⟩
  | busyWait => cases h; exact call _ (by simp [busyWaitBody])
  | poll => cases h; exact call _ (by simp [pollBody])
  | selChip id =>
    cases h
    refine call _ ?_
    unfold selChipBody assertBody
    split
    · simp
    · split <;> simp
  | wcmd b => cases h; exact call _ (by simp [wcmdBody, strobeBody])
  | wdata b => cases h; exact call _ (by simp [wdataBody, strobeBody])
  | glyphCol => cases h; exact call _ (by simp)
  | clear => cases h; exact call _ (by decide)
  | barRow p b hh =>
    cases h
    refine call _ ?_
    unfold barRowBody
    split
    · split <;> simp
    · simp

/-- The steps of the machine, while an operation is in progress and the reset input is high, are a run of the sequencer:
wherever a run of it leads, the machine comes (R10). -/
theorem Runs.stepsTo {s t : State} (h : Runs s t) (hr : s.rst_n = true) (hrun : s.RUN = true)
    (htodo : ∃ l, s.todo = l ++ [.finish] ∧ Act.finish ∉ l) : s.stepsTo t := by
  induction h using Relation.ReflTransGen.head_induction_on with
  | refl => exact ⟨0, rfl⟩
  | head h1 h2 ih =>
    rename_i s u
    obtain ⟨l, hl, hn⟩ := htodo
    have hstep : step s = .next u := by simpa [step, hr, hrun] using h1.2
    suffices u.stepsTo t by
      obtain ⟨n, hs⟩ := this
      exact ⟨n + 1, by simp [stepN, hstep, hs]⟩
    have ht := h1.2
    unfold tick at ht
    cases l with
    | nil =>
      rw [hl] at ht
      cases ht
      obtain rfl | ⟨v, h3, -⟩ := Relation.ReflTransGen.cases_head h2
      · exact ⟨0, rfl⟩
      · exact absurd rfl h3.1
    | cons a l =>
      rw [hl] at ht
      have f := act_frame ht
      obtain ⟨body, hb, hf⟩ := f.todo
      have ha : a ≠ .finish := fun e => hn (by simp [e])
      exact ih (f.rst_n.trans hr) ((f.RUN ha).trans hrun)
        ⟨body ++ l, by rw [hb, List.append_assoc]; rfl, by simpa [hf.1] using fun h => hn (List.mem_cons_of_mem a h)⟩

end Sys2Proof.Machine
end

