-- ==== Sys2Proof/Laws/Display.lean ====
section
/-! SUPPORT. The display effect of data bytes (R48): one byte, and a run that does not pass column 63. -/

namespace Sys2Proof.Machine

/-! ## One transfer -/

theorem ddram_setChip (s : State) (k j : ChipId) (c : Chip) (p : BitVec 3) (l : BitVec 6) :
    (s.setChip k c).ddram j p l = s.ddram j p l := by simp [State.ddram]

/-- R48: a data byte at a defined column. -/
theorem dataOn_defined {b : Byte} {k : ChipId} {s : State} {y : BitVec 6} (h : (s.chip k).Y = some y) :
    (∀ j p l, (dataOn b k s).ddram j p l = if j = k ∧ p = (s.chip k).X ∧ l = y then some b else s.ddram j p l) ∧
    (dataOn b k s).chip k = { s.chip k with Y := columnAfter s.cfg y } ∧
    (∀ j, j ≠ k → (dataOn b k s).chip j = s.chip j) := by
  unfold dataOn
  simp only [h]
  refine ⟨fun j p l => ?_, by simp, fun j hj => ?_⟩
  · simp only [State.ddram, setChip_ram, Memory.read_write, ddramKey_inj]
    by_cases h1 : k = j ∧ (s.chip k).X = p ∧ y = l
    · obtain ⟨rfl, rfl, rfl⟩ := h1; simp
    · rw [if_neg h1, if_neg]
      rintro ⟨rfl, rfl, rfl⟩; exact h1 ⟨rfl, rfl, rfl⟩
  · rw [setChip_chip_other _ (Ne.symm hj)]; cases j <;> rfl

/-- The column register after `n` data bytes that start at column `y` and do not pass column 63. -/
def columnEnd (cfg : Config) (y : BitVec 6) (n : Nat) : Option (BitVec 6) :=
  if y.toNat + n < 64 then some (y + BitVec.ofNat 6 n) else if n = 0 then some y else cfg.colAfter63

/-- R48: a run of data bytes that does not pass column 63. -/
theorem displayEffect_run {k : ChipId} (bytes : List Byte) {s : State} {y : BitVec 6} (h : (s.chip k).Y = some y)
    (hn : y.toNat + bytes.length ≤ 64) :
    let t := displayEffect (some k) (bytes.map .data) s
    (∀ i (hi : i < bytes.length), t.ddram k (s.chip k).X (y + BitVec.ofNat 6 i) = some bytes[i]) ∧
    (∀ j p l, ¬ (j = k ∧ p = (s.chip k).X ∧ y.toNat ≤ l.toNat ∧ l.toNat < y.toNat + bytes.length) →
      t.ddram j p l = s.ddram j p l) ∧
    (t.chip k).regs = ((s.chip k).X, columnEnd s.cfg y bytes.length, (s.chip k).Z, (s.chip k).ON) ∧
    (∀ j, j ≠ k → t.chip j = s.chip j) := by
  induction bytes generalizing s y with
  | nil =>
    refine ⟨fun i hi => absurd hi (by simp), fun _ _ _ _ => rfl, ?_, fun _ _ => rfl⟩
    simp only [displayEffect, List.map_nil, List.length_nil, columnEnd, Chip.regs, h]
    split <;> simp
  | cons b bytes ih =>
    obtain ⟨h1, h2, h3⟩ := dataOn_defined (b := b) h
    have hlen : y.toNat + bytes.length + 1 ≤ 64 := by simpa [Nat.add_assoc] using hn
    have hstep : displayEffect (some k) ((b :: bytes).map .data) s =
        displayEffect (some k) (bytes.map .data) (dataOn b k s) := rfl
    simp only [hstep]
    by_cases hlast : y.toNat < 63
    · have hy : (dataOn b k s).chip k = { s.chip k with Y := some (y + 1) } := by rw [h2]; simp [columnAfter, hlast]
      have hy1 : (y + 1).toNat = y.toNat + 1 := by simp; omega
      have := ih (s := dataOn b k s) (y := y + 1) (by rw [hy]) (by rw [hy1]; omega)
      obtain ⟨g1, g2, g3, g4⟩ := this
      rw [hy] at g1 g2 g3
      simp only at g1 g2 g3
      rw [hy1] at g2
      refine ⟨fun i hi => ?_, fun j p l hne => ?_, ?_, fun j hj => (g4 j hj).trans (h3 j hj)⟩
      · cases i with
        | zero =>
          rw [g2]
          · rw [h1]; simp
          · rintro ⟨-, -, h, -⟩; simp at h
        | succ i =>
          have := g1 i (by simpa using hi)
          rw [show y + BitVec.ofNat 6 (i + 1) = y + 1 + BitVec.ofNat 6 i by
            apply BitVec.eq_of_toNat_eq; simp; omega]
          simpa using this
      · rw [g2, h1, if_neg]
        · rintro ⟨rfl, rfl, rfl⟩; exact hne ⟨rfl, rfl, Nat.le_refl _, by simp⟩
        · rintro ⟨rfl, rfl, h5, h6⟩
          exact hne ⟨rfl, rfl, by omega, by simp only [List.length_cons]; omega⟩
      · rw [g3]
        simp only [columnEnd, hy1, dataOn_cfg, List.length_cons]
        have e : y + 1 + BitVec.ofNat 6 bytes.length = y + BitVec.ofNat 6 (bytes.length + 1) := by
          apply BitVec.eq_of_toNat_eq; simp; omega
        by_cases h7 : y.toNat + 1 + bytes.length < 64
        · rw [if_pos h7, if_pos (by omega), e]
        · rw [if_neg h7, if_neg (by omega), if_neg (by omega)]
          rw [if_neg (Nat.succ_ne_zero _)]
    · have hb : bytes = [] := List.eq_nil_of_length_eq_zero (by omega)
      subst hb
      have hy : y.toNat = 63 := by have := y.isLt; omega
      refine ⟨fun i hi => ?_, fun j p l hne => ?_, ?_, h3⟩
      · have : i = 0 := by simpa using hi
        subst this
        simp only [displayEffect, List.map_nil, List.getElem_cons_zero]
        rw [h1]; simp
      · simp only [displayEffect, List.map_nil]
        rw [h1, if_neg]
        rintro ⟨rfl, rfl, rfl⟩; exact hne ⟨rfl, rfl, Nat.le_refl _, by simp⟩
      · simp only [displayEffect, List.map_nil, h2, Chip.regs, columnEnd, columnAfter, if_neg hlast]
        rw [if_neg (by simp; omega), if_neg (by simp)]

end Sys2Proof.Machine
end

