-- ==== Sys2Proof/Laws/Proc.lean ====
section
/-! SUPPORT. Each procedure of the spec as one stretch of a run: its bus trace, the working registers and diagnostic bits it
leaves, once enough busy-waits are answered (R175). -/

namespace Sys2Proof.Machine

/-! ## Answers -/

theorem count_afterAnswer (l : List Bool) : (afterAnswer l).count false = l.count false - 1 := by
  induction l with
  | nil => rfl
  | cons b l ih =>
    cases b
    · simp [afterAnswer]
    · have : afterAnswer (true :: l) = afterAnswer l := rfl
      rw [this, ih]; simp

theorem count_afterAnswers (n : Nat) (l : List Bool) : (afterAnswers n l).count false = l.count false - n := by
  induction n generalizing l with
  | zero => rfl
  | succ n ih => simp only [afterAnswers, ih, count_afterAnswer]; omega

theorem answers_mem {s : State} {n : Nat} (h : s.answers n) (hn : 0 < n) :
    false ∈ s.db7 ∧ s.cfg.pulseValid = true :=
  ⟨List.count_pos_iff.mp (Nat.lt_of_lt_of_le hn h.1), h.2 hn⟩

theorem answers_mono {s : State} {m n : Nat} (h : s.answers n) (hm : m ≤ n) : s.answers m :=
  ⟨hm.trans h.1, fun hp => h.2 (by omega)⟩

theorem Did.answers {s t : State} {es : List BusEntry} (h : Did s t es) {n : Nat} (hs : s.answers (es.length + n)) :
    t.answers n := by
  obtain ⟨h1, h2⟩ := hs
  refine ⟨?_, fun hp => ?_⟩
  · rw [h.db7, count_afterAnswers]; omega
  · rw [h.cfg]; exact h2 (by omega)

/-! ## Procedures -/

/-- The acts `acts`, from `s`, lead to `t` whatever follows them, with the bus trace `es`, the working registers `w` and
the diagnostic bits `d`; they fetch nothing. -/
structure Proc (acts : List Act) (s t : State) (es : List BusEntry) (w : Work) (d : BitVec 4) : Prop where
  runs : ∀ rest, Runs (s.doing (acts ++ rest)) (t.doing rest)
  did : Did s t es
  SP : t.SP = s.SP
  lat : t.lat = s.lat
  work : t.work = w
  DIAG : t.DIAG = d

theorem Proc.nil (s : State) : Proc [] s s [] s.work s.DIAG := ⟨fun _ => Runs.refl _, Did.nil s, rfl, rfl, rfl, rfl⟩

theorem Proc.trans {xs ys : List Act} {s t u : State} {es fs : List BusEntry} {w v : Work} {d e : BitVec 4}
    (h1 : Proc xs s t es w d) (h2 : Proc ys t u fs v e) : Proc (xs ++ ys) s u (es ++ fs) v e :=
  ⟨fun rest => by rw [List.append_assoc]; exact (h1.runs _).trans (h2.runs rest), h1.did.trans h2.did, h2.SP.trans h1.SP,
    h2.lat.trans h1.lat, h2.work, h2.DIAG⟩

/-- A call that is replaced by its body. -/
theorem Proc.call {a : Act} {body : List Act} {s t : State} {es : List BusEntry} {w : Work} {d : BitVec 4}
    (hc : ∀ rest, Runs (s.doing (a :: rest)) (s.doing (body ++ rest))) (h : Proc body s t es w d) :
    Proc [a] s t es w d :=
  ⟨fun rest => (hc rest).trans (h.runs rest), h.did, h.SP, h.lat, h.work, h.DIAG⟩

/-- A register transfer of a working register. -/
theorem Proc.transfer {a : Act} {s : State} {w : Work}
    (hr : ∀ rest, Runs (s.doing (a :: rest)) (State.doing { s with work := w } rest)) :
    Proc [a] s { s with work := w } [] w s.DIAG :=
  ⟨hr, Did.silent rfl rfl rfl rfl rfl rfl rfl rfl rfl rfl rfl, rfl, rfl, rfl, rfl⟩

/-- A change of DIAG. -/
theorem Proc.diag {a : Act} {s : State} {d : BitVec 4}
    (hr : ∀ rest, Runs (s.doing (a :: rest)) (State.doing { s with DIAG := d } rest)) :
    Proc [a] s { s with DIAG := d } [] s.work d :=
  ⟨hr, Did.silent rfl rfl rfl rfl rfl rfl rfl rfl rfl rfl rfl, rfl, rfl, rfl, rfl⟩

theorem Proc.cast {acts : List Act} {s t : State} {es fs : List BusEntry} {w v : Work} {d e : BitVec 4}
    (h : Proc acts s t es w d) (h1 : es = fs) (h2 : w = v) (h3 : d = e) : Proc acts s t fs v e := by
  subst h1 h2 h3; exact h

theorem proc_selChip (id : Byte) {s : State} (h : s.answers 1) :
    Proc [.selChip id] s (selected id s) [.sel (chipOfId id)] { s.work with SAMP := false } s.DIAG :=
  ⟨fun rest => runs_selected id (answers_mem h (by decide)).1 (answers_mem h (by decide)).2, did_selected id s, rfl, rfl, rfl, rfl⟩

theorem proc_wcmd (b : Byte) {s : State} (h : s.answers 1) (ha : s.addressed ≠ .both) :
    Proc [.wcmd b] s (commanded b s) [.cmd b] { s.work with SAMP := false } s.DIAG :=
  ⟨fun rest => runs_commanded b (answers_mem h (by decide)).1 (answers_mem h (by decide)).2 ha, did_commanded b s,
    onChip_keeps State.SP _ (fun _ _ => commandOn_SP ..) _, onChip_keeps State.lat _ (fun _ _ => commandOn_lat ..) _,
    onChip_keeps State.work _ (fun _ _ => commandOn_work ..) _, onChip_keeps State.DIAG _ (fun _ _ => commandOn_DIAG ..) _⟩

theorem proc_wdata (b : Byte) {s : State} (h : s.answers 1) (ha : s.addressed ≠ .both) :
    Proc [.wdata b] s (written b s) [.data b] { s.work with SAMP := false } s.DIAG :=
  ⟨fun rest => runs_written b (answers_mem h (by decide)).1 (answers_mem h (by decide)).2 ha, did_written b s,
    onChip_keeps State.SP _ (fun _ _ => dataOn_SP ..) _, onChip_keeps State.lat _ (fun _ _ => dataOn_lat ..) _,
    onChip_keeps State.work _ (fun _ _ => dataOn_work ..) _, onChip_keeps State.DIAG _ (fun _ _ => dataOn_DIAG ..) _⟩

/-- A call that is replaced by its body after a change of working registers and DIAG. -/
theorem Proc.enter {a : Act} {body : List Act} {s t : State} {es : List BusEntry} {w v : Work} {d e : BitVec 4}
    (hc : ∀ rest, Runs (s.doing (a :: rest)) (State.doing { s with work := v, DIAG := e } (body ++ rest)))
    (h : Proc body { s with work := v, DIAG := e } t es w d) : Proc [a] s t es w d :=
  ⟨fun rest => (hc rest).trans (h.runs rest),
    Did.trans (t := { s with work := v, DIAG := e }) (xs := [])
      (Did.silent rfl rfl rfl rfl rfl rfl rfl rfl rfl rfl rfl) h.did,
    h.SP, h.lat, h.work, h.DIAG⟩

theorem proc_fill (b : Byte) (n : Nat) {s : State} (h : s.answers n) (ha : s.addressed ≠ .both) :
    ∃ t, Proc [.fill n b] s t (List.replicate n (.data b))
      { s.work with CNT := 0, SAMP := if n = 0 then s.work.SAMP else false } s.DIAG := by
  induction n generalizing s with
  | zero => exact ⟨_, Proc.transfer fun rest => runs_fill_zero s rest b⟩
  | succ n ih =>
    set v : Work := { s.work with CNT := BitVec.ofNat 7 (n + 1) } with hv
    have p1 := proc_wdata b (s := { s with work := v }) (answers_mono h (by omega)) ha
    obtain ⟨t, p2⟩ := ih (s := written b { s with work := v })
      (p1.did.answers (by rw [List.length_singleton, Nat.add_comm]; exact h)) (p1.did.notBoth ha)
    refine ⟨t, Proc.enter (v := v) (e := s.DIAG) (body := [.wdata b, .fill n b]) (fun rest => runs_fill_succ s rest n b) ?_⟩
    refine (p1.trans p2).cast ?_ ?_ ?_
    · simp [List.replicate_succ]
    · rw [p1.work]; simp [hv]
    · rw [p1.DIAG]

theorem gotoBus_valid {cfg : Config} {p c : Byte} (h : coordsValid p c = true) : gotoBus cfg p c =
    [.sel (some (chipOf c)), .cmd (setPageByte cfg p), .cmd (setColByte cfg (lcolOf c))] := by simp [gotoBus, h]

theorem gotoBus_invalid {cfg : Config} {p c : Byte} (h : coordsValid p c = false) : gotoBus cfg p c = [] := by
  simp [gotoBus, h]

theorem chipOfId_id (k : ChipId) : chipOfId k.id = some k := by cases k <;> rfl

theorem receiver_notBoth {s t : State} {k : Option ChipId} {es : List BusEntry} (h : Did s t (.sel k :: es)) :
    t.addressed ≠ .both := by
  unfold State.addressed
  rw [h.cfg, h.pins]
  simp only [exitPins]
  refine exitPins_not_both _ _ _ ?_
  rw [selects_not_both]
  rcases k with _ | k
  · simp
  · cases k <;> simp

theorem proc_goTo_valid {p c : Byte} (hv : coordsValid p c = true) {s : State} (h : s.answers 3) :
    ∃ t, Proc [.goTo p c] s t (gotoBus s.cfg p c)
      { s.work with CHIPID := (chipOf c).id.setWidth 2, LCOL := lcolOf c, SAMP := false } s.DIAG := by
  set v : Work := { s.work with CHIPID := (chipOf c).id.setWidth 2, LCOL := lcolOf c } with hvw
  have p1 := proc_selChip (chipOf c).id (s := { s with work := v }) (answers_mono h (by omega))
  have a1 := p1.did.answers (n := 2) h
  have n1 := receiver_notBoth p1.did
  have p2 := proc_wcmd (setPageByte s.cfg p) (answers_mono a1 (by omega)) n1
  have a2 := p2.did.answers (n := 1) a1
  have p3 := proc_wcmd (setColByte s.cfg (lcolOf c)) a2 (p2.did.notBoth n1)
  refine ⟨_, Proc.enter (v := v) (e := s.DIAG) (fun rest => runs_goTo_valid s rest hv)
    ((p1.trans (p2.trans p3)).cast ?_ ?_ ?_)⟩
  · rw [chipOfId_id, gotoBus_valid hv]; rfl
  · rw [p2.work, p1.work]
  · rw [p2.DIAG, p1.DIAG]

theorem proc_goTo_invalid {p c : Byte} (hv : coordsValid p c = false) (s : State) :
    Proc [.goTo p c] s (s.setDiag .COORD) (gotoBus s.cfg p c) s.work (raise .COORD s.DIAG) := by
  rw [gotoBus_invalid hv]
  exact Proc.diag fun rest => runs_goTo_invalid s rest hv

theorem proc_glyphCol (n : BitVec 3) {s : State} (h : s.answers 1) (ha : s.addressed ≠ .both) (hk : s.work.K = n) :
    ∃ t, Proc [.glyphCol] s t [.data (s.cfg.fontByte s.work.IDX.toNat n.toNat)] { s.work with SAMP := false } s.DIAG := by
  subst hk
  exact ⟨_, Proc.call (fun rest => runs_glyphCol s rest) (proc_wdata _ h ha)⟩

/-- One turn of the glyph's column loop, and the counter's step after it. -/
theorem proc_column (n m : BitVec 3) {s : State} (h : s.answers 1) (ha : s.addressed ≠ .both) (hk : s.work.K = n) :
    ∃ t, Proc [.glyphCol, .setK m] s t [.data (s.cfg.fontByte s.work.IDX.toNat n.toNat)]
      { s.work with SAMP := false, K := m } s.DIAG := by
  obtain ⟨t, p⟩ := proc_glyphCol n h ha hk
  have q := Proc.transfer (a := .setK m) (s := t) (w := { t.work with K := m }) fun rest => runs_setK t rest m
  exact ⟨_, (p.trans q).cast rfl (by rw [p.work]) p.DIAG⟩

theorem proc_glyph {s : State} (h : s.answers 6) (ha : s.addressed ≠ .both) :
    ∃ t, Proc (glyphBody ++ [.wdata 0x00]) s t
      ([s.cfg.fontByte s.work.IDX.toNat 0, s.cfg.fontByte s.work.IDX.toNat 1, s.cfg.fontByte s.work.IDX.toNat 2,
        s.cfg.fontByte s.work.IDX.toNat 3, s.cfg.fontByte s.work.IDX.toNat 4, 0x00].map .data)
      { s.work with K := 5, SAMP := false } s.DIAG := by
  have p0 := Proc.transfer (a := .setK 0) (s := s) (w := { s.work with K := 0 }) fun rest => runs_setK s rest 0
  have a0 := p0.did.answers (n := 6) (by simpa using h)
  have n0 := p0.did.notBoth ha
  obtain ⟨t1, p1⟩ := proc_column 0 1 (answers_mono a0 (by omega)) n0 rfl
  have a1 := p1.did.answers (n := 5) a0
  have n1 := p1.did.notBoth n0
  obtain ⟨t2, p2⟩ := proc_column 1 2 (answers_mono a1 (by omega)) n1 (by rw [p1.work])
  have a2 := p2.did.answers (n := 4) a1
  have n2 := p2.did.notBoth n1
  obtain ⟨t3, p3⟩ := proc_column 2 3 (answers_mono a2 (by omega)) n2 (by rw [p2.work])
  have a3 := p3.did.answers (n := 3) a2
  have n3 := p3.did.notBoth n2
  obtain ⟨t4, p4⟩ := proc_column 3 4 (answers_mono a3 (by omega)) n3 (by rw [p3.work])
  have a4 := p4.did.answers (n := 2) a3
  have n4 := p4.did.notBoth n3
  obtain ⟨t5, p5⟩ := proc_column 4 5 (answers_mono a4 (by omega)) n4 (by rw [p4.work])
  have a5 := p5.did.answers (n := 1) a4
  have n5 := p5.did.notBoth n4
  have p6 := proc_wdata 0x00 a5 n5
  refine ⟨_, (p0.trans (p1.trans (p2.trans (p3.trans (p4.trans (p5.trans p6)))))).cast ?_ ?_ ?_⟩
  · simp [p1.work, p2.work, p3.work, p4.work, p1.did.cfg, p2.did.cfg, p3.did.cfg, p4.did.cfg]
  · rw [p5.work, p4.work, p3.work, p2.work, p1.work]
  · rw [p5.DIAG, p4.DIAG, p3.DIAG, p2.DIAG, p1.DIAG]

/-- The number of busy-waits of a character (R175). -/
theorem wcharBus_length (cfg : Config) (p c ch : Byte) :
    (wcharBus cfg p c ch).length = if coordsValid p c then 9 else 6 := by
  unfold wcharBus gotoBus charBytes
  split <;> rfl

/-- DIAG after WCHAR (R130, R131, R177). -/
def wcharDiag (cfg : Config) (p c ch : Byte) (d : BitVec 4) : BitVec 4 :=
  raiseIf (!coordsValid p c) .COORD (raiseIf (!supported cfg ch) .CHSUB d)

/-- The working registers after WCHAR. -/
def wcharWork (cfg : Config) (p c ch : Byte) (w : Work) : Work :=
  { w with
    IDX := glyphIndex cfg ch, K := 5, SAMP := false
    CHIPID := if coordsValid p c then (chipOf c).id.setWidth 2 else w.CHIPID
    LCOL := if coordsValid p c then lcolOf c else w.LCOL }

theorem proc_wchar {p c ch : Byte} {s : State} (h : s.answers (wcharBus s.cfg p c ch).length)
    (ha : coordsValid p c = true ∨ s.addressed ≠ .both) :
    ∃ t, Proc [.wchar p c ch] s t (wcharBus s.cfg p c ch) (wcharWork s.cfg p c ch s.work)
      (wcharDiag s.cfg p c ch s.DIAG) := by
  rw [wcharBus_length] at h
  set v : Work := { s.work with IDX := glyphIndex s.cfg ch } with hv
  set e : BitVec 4 := raiseIf (!supported s.cfg ch) .CHSUB s.DIAG with he
  cases hc : coordsValid p c with
  | true =>
    simp only [hc, if_true] at h
    obtain ⟨t1, p1⟩ := proc_goTo_valid hc (s := { s with work := v, DIAG := e }) (answers_mono h (by omega))
    have n1 : t1.addressed ≠ .both := by
      have := p1.did
      rw [gotoBus_valid hc] at this
      exact receiver_notBoth this
    have a1 := p1.did.answers (n := 6) (by rw [gotoBus_valid hc]; exact h)
    obtain ⟨t2, p2⟩ := proc_glyph a1 n1
    refine ⟨t2, Proc.enter (v := v) (e := e) (fun rest => runs_wchar s rest p c ch) ((p1.trans p2).cast ?_ ?_ ?_)⟩
    · rw [p1.work, p1.did.cfg]; rfl
    · rw [p1.work]; simp [wcharWork, hc, hv]
    · rw [p1.DIAG]; simp [wcharDiag, hc, raiseIf, he]
  | false =>
    simp only [hc, Bool.false_eq_true, if_false, false_or] at h ha
    have p1 := proc_goTo_invalid hc { s with work := v, DIAG := e }
    obtain ⟨t2, p2⟩ := proc_glyph (s := State.setDiag { s with work := v, DIAG := e } .COORD) h ha
    refine ⟨t2, Proc.enter (v := v) (e := e) (fun rest => runs_wchar s rest p c ch) ((p1.trans p2).cast ?_ ?_ ?_)⟩
    · rfl
    · rw [p1.work]; simp [wcharWork, hc, hv]
    · rw [p1.DIAG]; simp [wcharDiag, hc, raiseIf, he]


/-! ## Rows, CLEAR, BAR, INIT -/

/-- A change of the loop counters, the fill counter and the translator's registers alone (CLEAR, BAR). -/
def Work.looped (w v : Work) : Prop :=
  v = { w with PGI := v.PGI, HALF := v.HALF, ROW := v.ROW, CNT := v.CNT, CHIPID := v.CHIPID, LCOL := v.LCOL, SAMP := v.SAMP }

theorem Work.looped.trans {w v u : Work} (h1 : w.looped v) (h2 : v.looped u) : w.looped u := by
  unfold Work.looped at *
  rw [h2, h1]

/-- A `Proc` that changes at most loop counters. -/
def LoopProc (acts : List Act) (s t : State) (es : List BusEntry) (d : BitVec 4) : Prop :=
  ∃ w, Proc acts s t es w d ∧ s.work.looped w

theorem LoopProc.trans {xs ys : List Act} {s t u : State} {es fs : List BusEntry} {d e : BitVec 4}
    (h1 : LoopProc xs s t es d) (h2 : LoopProc ys t u fs e) : LoopProc (xs ++ ys) s u (es ++ fs) e := by
  obtain ⟨w, p, hw⟩ := h1
  obtain ⟨v, q, hv⟩ := h2
  exact ⟨v, p.trans q, hw.trans (p.work ▸ hv)⟩

theorem LoopProc.cast {acts : List Act} {s t : State} {es fs : List BusEntry} {d e : BitVec 4}
    (h : LoopProc acts s t es d) (h1 : es = fs) (h2 : d = e) : LoopProc acts s t fs e := by subst h1 h2; exact h

theorem Proc.loop {acts : List Act} {s t : State} {es : List BusEntry} {w : Work} {d : BitVec 4}
    (h : Proc acts s t es w d) (hw : s.work.looped w) : LoopProc acts s t es d := ⟨w, h, hw⟩

theorem loop_setPgi (p : BitVec 4) (s : State) : ∃ t, LoopProc [.setPgi p] s t [] s.DIAG :=
  ⟨_, (Proc.transfer (w := { s.work with PGI := p }) fun rest => runs_setPgi s rest p).loop rfl⟩
theorem loop_setHalf (p : BitVec 2) (s : State) : ∃ t, LoopProc [.setHalf p] s t [] s.DIAG :=
  ⟨_, (Proc.transfer (w := { s.work with HALF := p }) fun rest => runs_setHalf s rest p).loop rfl⟩
theorem loop_setRow (p : BitVec 2) (s : State) : ∃ t, LoopProc [.setRow p] s t [] s.DIAG :=
  ⟨_, (Proc.transfer (w := { s.work with ROW := p }) fun rest => runs_setRow s rest p).loop rfl⟩
theorem loop_delay (n : TimeName) (s : State) : ∃ t, LoopProc [.delay n] s t [] s.DIAG :=
  ⟨s.record (.delay n), ⟨s.work, ⟨fun rest => runs_delay s rest n,
    ⟨⟨[.delay n], rfl, rfl, rfl⟩, rfl, rfl, rfl, rfl, rfl, rfl, rfl, rfl, rfl, rfl⟩, rfl, rfl, rfl, rfl⟩, rfl⟩⟩

/-- A GOTO and `n` data bytes. -/
theorem loop_goTo {p c : Byte} (hv : coordsValid p c = true) {s : State} (h : s.answers 3) :
    ∃ t, LoopProc [.goTo p c] s t (gotoBus s.cfg p c) s.DIAG ∧ t.addressed ≠ .both := by
  obtain ⟨t, p1⟩ := proc_goTo_valid hv h
  refine ⟨t, p1.loop rfl, ?_⟩
  have := p1.did
  rw [gotoBus_valid hv] at this
  exact receiver_notBoth this

theorem loop_fill (b : Byte) (n : Nat) {s : State} (h : s.answers n) (ha : s.addressed ≠ .both) :
    ∃ t, LoopProc [.fill n b] s t ((List.replicate n b).map .data) s.DIAG := by
  obtain ⟨t, p⟩ := proc_fill b n h ha
  exact ⟨t, ⟨_, p.cast (by simp) rfl rfl, rfl⟩⟩

theorem LoopProc.did {acts : List Act} {s t : State} {es : List BusEntry} {d : BitVec 4} (h : LoopProc acts s t es d) :
    Did s t es := h.choose_spec.1.did
theorem LoopProc.DIAG {acts : List Act} {s t : State} {es : List BusEntry} {d : BitVec 4} (h : LoopProc acts s t es d) :
    t.DIAG = d := h.choose_spec.1.DIAG

theorem gotoBus_row (cfg : Config) {p : Nat} (hp : p < 8) (bytes : List Byte) :
    gotoBus cfg (BitVec.ofNat 8 p) 0 ++ bytes.map .data = rowBus cfg p .chip1 bytes ∧
    gotoBus cfg (BitVec.ofNat 8 p) 64 ++ bytes.map .data = rowBus cfg p .chip2 bytes := by
  have h0 : coordsValid (BitVec.ofNat 8 p) 0 = true := by
    simp only [coordsValid, npage, width, BitVec.toNat_ofNat]; simp; omega
  have h1 : coordsValid (BitVec.ofNat 8 p) 64 = true := by
    simp only [coordsValid, npage, width, BitVec.toNat_ofNat]; simp; omega
  rw [gotoBus_valid h0, gotoBus_valid h1]
  exact ⟨rfl, rfl⟩

theorem coordsValid_row {p : Nat} (hp : p < 8) :
    coordsValid (BitVec.ofNat 8 p) 0 = true ∧ coordsValid (BitVec.ofNat 8 p) 64 = true := by
  constructor <;> (simp only [coordsValid, npage, width, BitVec.toNat_ofNat]; simp; omega)

/-- The first logical column of a chip (R120). -/
def chipBase : ChipId → Byte
  | .chip1 => 0
  | .chip2 => 64

/-- One row overwritten with one byte (CLEAR, the end of BAR). -/
theorem loop_row (b : Byte) {p : Nat} (hp : p < 8) (k : ChipId) {s : State} (h : s.answers 67) :
    ∃ t, LoopProc [.goTo (BitVec.ofNat 8 p) (chipBase k), .fill 64 b] s t
      (rowBus s.cfg p k (List.replicate 64 b)) s.DIAG := by
  have hv : coordsValid (BitVec.ofNat 8 p) (chipBase k) = true := by
    cases k
    · exact (coordsValid_row hp).1
    · exact (coordsValid_row hp).2
  obtain ⟨t1, p1, n1⟩ := loop_goTo hv (answers_mono h (by omega))
  obtain ⟨t2, p2⟩ := loop_fill b 64 (p1.did.answers (n := 64) (by rw [gotoBus_valid hv]; exact h)) n1
  refine ⟨t2, (p1.trans p2).cast ?_ p1.DIAG⟩
  cases k
  · exact (gotoBus_row s.cfg hp _).1
  · exact (gotoBus_row s.cfg hp _).2

theorem rowBus_length (cfg : Config) (p : Nat) (k : ChipId) (bytes : List Byte) :
    (rowBus cfg p k bytes).length = 3 + bytes.length := by simp [rowBus]; omega

theorem loop_clearPage {p : Nat} (hp : p < 8) {s : State} (h : s.answers 134) :
    ∃ t, LoopProc (clearPage p) s t
      (rowBus s.cfg p .chip1 (List.replicate 64 0x00) ++ rowBus s.cfg p .chip2 (List.replicate 64 0x00)) s.DIAG := by
  obtain ⟨t1, p1⟩ := loop_setPgi (BitVec.ofNat 4 p) s
  have a1 := p1.did.answers (n := 134) (by simpa using h)
  obtain ⟨t2, p2⟩ := loop_setHalf 0 t1
  have a2 := p2.did.answers (n := 134) (by simpa using a1)
  obtain ⟨t3, p3⟩ := loop_row 0x00 hp .chip1 (s := t2) (answers_mono a2 (by omega))
  have a3 := p3.did.answers (n := 67) (by rw [rowBus_length, List.length_replicate]; exact a2)
  obtain ⟨t4, p4⟩ := loop_setHalf 1 t3
  have a4 := p4.did.answers (n := 67) (by simpa using a3)
  obtain ⟨t5, p5⟩ := loop_row 0x00 hp .chip2 (s := t4) a4
  obtain ⟨t6, p6⟩ := loop_setHalf 2 t5
  refine ⟨t6, (p1.trans (p2.trans (p3.trans (p4.trans (p5.trans p6))))).cast ?_ ?_⟩
  · simp [p1.did.cfg, p2.did.cfg, p3.did.cfg, p4.did.cfg]
  · rw [p5.DIAG, p4.DIAG, p3.DIAG, p2.DIAG, p1.DIAG]

theorem loop_clear {s : State} (h : s.answers 1072) : ∃ t, LoopProc [.clear] s t (clearBus s.cfg) s.DIAG := by
  have pages : ∀ (ps : List Nat) (s : State), (∀ p ∈ ps, p < 8) → s.answers (134 * ps.length) →
      ∃ t, LoopProc (ps.flatMap clearPage) s t (ps.flatMap fun p =>
        rowBus s.cfg p .chip1 (List.replicate 64 0x00) ++ rowBus s.cfg p .chip2 (List.replicate 64 0x00)) s.DIAG := by
    intro ps
    induction ps with
    | nil => exact fun s _ _ => ⟨s, ⟨_, Proc.nil s, rfl⟩⟩
    | cons p ps ih =>
      intro s hp ha
      rw [List.length_cons] at ha
      obtain ⟨t1, p1⟩ := loop_clearPage (hp p (by simp)) (answers_mono ha (by omega))
      obtain ⟨t2, p2⟩ := ih t1 (fun q hq => hp q (by simp [hq]))
        (p1.did.answers (by rw [List.length_append, rowBus_length, rowBus_length, List.length_replicate]
                            exact answers_mono ha (by omega)))
      exact ⟨t2, (p1.trans p2).cast (by rw [p1.did.cfg]; rfl) p1.DIAG⟩
  obtain ⟨t1, w1, p1, l1⟩ := pages (List.range 8) s (by simp) (by simpa using h)
  obtain ⟨t2, w2, p2, l2⟩ := loop_setPgi 8 t1
  refine ⟨t2, w2, (Proc.call (fun rest => runs_clear s rest) (p1.trans p2)).cast (by simp [clearBus]) rfl p1.DIAG, ?_⟩
  rw [p1.work] at l2
  exact l1.trans l2

theorem barBytes_eq (cfg : Config) {h : Nat} (hh : h ≤ 64) : barBytes cfg h =
    List.replicate h cfg.barOn ++
      if h < 64 then if 0 < h then cfg.barMark :: List.replicate (63 - h) cfg.barOff else List.replicate 64 cfg.barOff
      else [] := by
  apply List.ext_getElem?
  intro i
  unfold barBytes
  rw [List.getElem?_map, List.getElem?_append, List.length_replicate, List.getElem?_replicate]
  rcases Nat.lt_or_ge i 64 with hi | hi
  · rw [List.getElem?_range hi]
    by_cases h1 : i < h
    · simp [h1]
    · by_cases h2 : h < 64
      · by_cases h3 : 0 < h
        · rcases Nat.lt_or_ge h i with h4 | h4
          · obtain ⟨j, rfl⟩ : ∃ j, i = h + 1 + j := ⟨i - h - 1, by omega⟩
            have e : h + 1 + j - h = j + 1 := by omega
            simp only [h1, h2, h3, if_true, if_false, e, List.getElem?_cons_succ, List.getElem?_replicate, Option.map_some]
            rw [if_neg (by omega), if_pos (by omega)]
          · have : i = h := by omega
            subst this
            simp [h2, h3]
        · have : h = 0 := by omega
          subst this
          rw [if_neg h1, if_pos h2, if_neg h3, List.getElem?_replicate, if_pos (by omega)]
          simp
      · omega
  · have hr : (List.range 64)[i]? = none := by simp [hi]
    rw [hr]
    by_cases h1 : i < h
    · omega
    · by_cases h2 : h < 64
      · by_cases h3 : 0 < h
        · obtain ⟨j, rfl⟩ : ∃ j, i = h + 1 + j := ⟨i - h - 1, by omega⟩
          have e : h + 1 + j - h = j + 1 := by omega
          simp only [h1, h2, h3, if_true, if_false, e, List.getElem?_cons_succ, List.getElem?_replicate, Option.map_none]
          rw [if_neg (by omega)]
        · rw [if_neg h1, if_pos h2, if_neg h3, List.getElem?_replicate, if_neg (by omega)]
          rfl
      · simp [h1, h2]

theorem loop_wdata (b : Byte) {s : State} (h : s.answers 1) (ha : s.addressed ≠ .both) :
    ∃ t, LoopProc [.wdata b] s t [.data b] s.DIAG := ⟨_, _, proc_wdata b h ha, rfl⟩

theorem loop_barRow {p : Nat} (hp : p < 8) (k : ChipId) {h : Byte} (hh : h.toNat ≤ 64) {s : State} (ha : s.answers 67) :
    ∃ t, LoopProc [.barRow (BitVec.ofNat 8 p) (chipBase k) h] s t
      (rowBus s.cfg p k (barBytes s.cfg h.toNat)) s.DIAG := by
  have hv : coordsValid (BitVec.ofNat 8 p) (chipBase k) = true := by
    cases k
    · exact (coordsValid_row hp).1
    · exact (coordsValid_row hp).2
  suffices ∃ t, LoopProc (barRowBody s.cfg (BitVec.ofNat 8 p) (chipBase k) h) s t
      (gotoBus s.cfg (BitVec.ofNat 8 p) (chipBase k) ++
        (barBytes s.cfg h.toNat).map .data) s.DIAG by
    obtain ⟨t, w, q, hw⟩ := this
    refine ⟨t, w, (Proc.call (fun rest => runs_barRow s rest _ _ h) q).cast ?_ rfl rfl, hw⟩
    cases k
    · exact (gotoBus_row s.cfg hp _).1
    · exact (gotoBus_row s.cfg hp _).2
  obtain ⟨t1, p1, n1⟩ := loop_goTo hv (answers_mono ha (by omega))
  have a1 := p1.did.answers (n := 64) (by rw [gotoBus_valid hv]; exact ha)
  obtain ⟨t2, p2⟩ := loop_fill s.cfg.barOn h.toNat (answers_mono a1 hh) n1
  have a2 := p2.did.answers (n := 64 - h.toNat)
    (by rw [List.length_map, List.length_replicate]; exact answers_mono a1 (by omega))
  have n2 := p2.did.notBoth n1
  rw [barBytes_eq s.cfg hh, List.map_append, ← List.append_assoc]
  have d2 : t2.DIAG = s.DIAG := by rw [p2.DIAG, p1.DIAG]
  unfold barRowBody
  by_cases h2 : h.toNat < 64
  · by_cases h3 : 0 < h.toNat
    · simp only [h2, h3, if_true]
      obtain ⟨t3, p3⟩ := loop_wdata s.cfg.barMark (answers_mono a2 (by omega)) n2
      obtain ⟨t4, p4⟩ := loop_fill s.cfg.barOff (63 - h.toNat)
        (p3.did.answers (by exact answers_mono a2 (by rw [List.length_singleton]; omega))) (p3.did.notBoth n2)
      exact ⟨t4, ((p1.trans p2).trans (p3.trans p4)).cast (by simp) (by rw [p3.DIAG, d2])⟩
    · simp only [h2, h3, if_true, if_false]
      obtain ⟨t3, p3⟩ := loop_fill s.cfg.barOff 64 (answers_mono a2 (by omega)) n2
      exact ⟨t3, ((p1.trans p2).trans p3).cast (by simp) d2⟩
  · simp only [h2, if_false]
    exact ⟨t2, (by simpa using p1.trans p2 : LoopProc _ _ _ _ _).cast (by simp) (by rw [p1.DIAG])⟩

/-- The two nested loops of BAR around one row's steps (R148). -/
theorem loop_barRows (row : Byte → Byte → List Act) (bytes : Config → List Byte) (hb : ∀ c, (bytes c).length = 64)
    (hr : ∀ (p : Nat) (k : ChipId) (s : State), p < 8 → s.answers 67 →
      ∃ t, LoopProc (row (BitVec.ofNat 8 p) (chipBase k)) s t
        (rowBus s.cfg p k (bytes s.cfg)) s.DIAG)
    {s : State} (h : s.answers 268) : ∃ t, LoopProc (barRows row) s t (barRowsBus s.cfg (bytes s.cfg)) s.DIAG := by
  have half : ∀ (k : ChipId) (s : State), s.answers 134 → ∃ t, LoopProc
      ([.setRow 0] ++ row 5 (chipBase k) ++ [.setRow 1] ++
        row 6 (chipBase k) ++ [.setRow 2]) s t
      (rowBus s.cfg 5 k (bytes s.cfg) ++ rowBus s.cfg 6 k (bytes s.cfg)) s.DIAG := by
    intro k s h
    obtain ⟨t1, p1⟩ := loop_setRow 0 s
    have a1 := p1.did.answers (n := 134) (by simpa using h)
    obtain ⟨t2, p2⟩ := hr 5 k t1 (by decide) (answers_mono a1 (by omega))
    have a2 := p2.did.answers (n := 67) (by rw [rowBus_length, hb]; exact a1)
    obtain ⟨t3, p3⟩ := loop_setRow 1 t2
    obtain ⟨t4, p4⟩ := hr 6 k t3 (by decide) (p3.did.answers (by simpa using a2))
    obtain ⟨t5, p5⟩ := loop_setRow 2 t4
    refine ⟨t5, ((((p1.trans p2).trans p3).trans p4).trans p5).cast ?_ ?_⟩
    · simp [p1.did.cfg, p2.did.cfg, p3.did.cfg]
    · rw [p4.DIAG, p3.DIAG, p2.DIAG, p1.DIAG]
  obtain ⟨t1, p1⟩ := loop_setHalf 0 s
  have a1 := p1.did.answers (n := 268) (by simpa using h)
  obtain ⟨t2, p2⟩ := half .chip1 t1 (answers_mono a1 (by omega))
  have a2 := p2.did.answers (n := 134) (by rw [List.length_append, rowBus_length, rowBus_length, hb]; exact a1)
  obtain ⟨t3, p3⟩ := loop_setHalf 1 t2
  obtain ⟨t4, p4⟩ := half .chip2 t3 (p3.did.answers (by simpa using a2))
  obtain ⟨t5, p5⟩ := loop_setHalf 2 t4
  refine ⟨t5, ?_⟩
  have := ((((p1.trans p2).trans p3).trans p4).trans p5).cast (fs := barRowsBus s.cfg (bytes s.cfg)) (e := s.DIAG)
    (by simp [barRowsBus, p1.did.cfg, p2.did.cfg, p3.did.cfg]) (by rw [p4.DIAG, p3.DIAG, p2.DIAG, p1.DIAG])
  have e : barRows row = [.setHalf 0] ++ ([.setRow 0] ++ row 5 0 ++ [.setRow 1] ++ row 6 0 ++ [.setRow 2]) ++
      [.setHalf 1] ++ ([.setRow 0] ++ row 5 64 ++ [.setRow 1] ++ row 6 64 ++ [.setRow 2]) ++ [.setHalf 2] := by
    simp [barRows, barPageA]
  rw [e]
  exact this

theorem barRowsBus_length (cfg : Config) {bytes : List Byte} (h : bytes.length = 64) :
    (barRowsBus cfg bytes).length = 268 := by
  simp [barRowsBus, rowBus_length, h]

theorem barBytes_length (cfg : Config) (h : Nat) : (barBytes cfg h).length = 64 := by simp [barBytes]

/-- The drawing half of BAR (R148 step 1). -/
theorem loop_barDraw {h : Byte} (hh : h.toNat ≤ 64) {s : State} (ha : s.answers 268) :
    ∃ t, LoopProc (barRows fun page base => [.barRow page base h]) s t (barRowsBus s.cfg (barBytes s.cfg h.toNat)) s.DIAG :=
  loop_barRows _ (fun c => barBytes c h.toNat) (fun c => barBytes_length c _)
    (fun _ k _ hp h67 => loop_barRow hp k hh h67) ha

theorem loop_bar {h : Byte} (hh : h.toNat ≤ 64) {s : State} (ha : s.answers 536) :
    ∃ t, LoopProc [.bar h] s t (barBus s.cfg h.toNat) s.DIAG := by
  obtain ⟨t1, p1⟩ := loop_barDraw hh (answers_mono ha (by omega))
  have a1 := p1.did.answers (n := 268) (by rw [barRowsBus_length _ (barBytes_length _ _)]; exact ha)
  obtain ⟨t2, p2⟩ := loop_delay .tHold t1
  obtain ⟨t3, p3⟩ := loop_barRows barClearRow (fun _ => List.replicate 64 0x00) (fun _ => by simp)
    (fun _ k _ hp h67 => loop_row 0x00 hp k h67) (p2.did.answers (n := 268) (by simpa using a1))
  obtain ⟨w, q, hw⟩ := p1.trans (p2.trans p3)
  refine ⟨t3, w, (Proc.call (body := barBody h) (fun rest => runs_bar_legal s rest hh) ?_), hw⟩
  refine q.cast ?_ rfl ?_
  · simp [barBus, p1.did.cfg, p2.did.cfg]
  · rw [p2.DIAG, p1.DIAG]

theorem loop_initChip (k : ChipId) {s : State} (h : s.answers 3) : ∃ t, LoopProc (initChip s.cfg k) s t
    [.sel (some k), .cmd s.cfg.displayOnCmd, .cmd s.cfg.startLineBase] s.DIAG := by
  have p1 := proc_selChip k.id (answers_mono h (by omega))
  have a1 := p1.did.answers (n := 2) h
  have n1 := receiver_notBoth p1.did
  have p2 := proc_wcmd s.cfg.displayOnCmd (answers_mono a1 (by omega)) n1
  have a2 := p2.did.answers (n := 1) a1
  have p3 := proc_wcmd (startLineByte s.cfg) a2 (p2.did.notBoth n1)
  refine ⟨_, _, (p1.trans (p2.trans p3)).cast ?_ rfl ?_, ?_⟩
  · simp [chipOfId_id, startLineByte]
  · rw [p2.DIAG, p1.DIAG]
  · unfold Work.looped; rw [p2.work, p1.work]

/-- INIT from its step 4 on (R160). -/
theorem loop_init {s : State} (h : s.answers 1078) :
    ∃ t, LoopProc (initChip s.cfg .chip1 ++ initChip s.cfg .chip2 ++ [.clear]) s t (initBus s.cfg) s.DIAG := by
  obtain ⟨t1, p1⟩ := loop_initChip .chip1 (answers_mono h (by omega))
  have a1 := p1.did.answers (n := 1075) (by simpa using h)
  obtain ⟨t2, p2⟩ := loop_initChip .chip2 (s := t1) (answers_mono a1 (by omega))
  have a2 := p2.did.answers (n := 1072) (by simpa using a1)
  obtain ⟨t3, p3⟩ := loop_clear a2
  rw [p1.did.cfg] at p2
  have p := (p1.trans p2).trans p3
  refine ⟨t3, p.cast ?_ ?_⟩
  · simp [initBus, p2.did.cfg, p1.did.cfg]
  · rw [p2.DIAG, p1.DIAG]


end Sys2Proof.Machine
end

