-- ==== Sys2Proof/Laws/Text.lean ====
section
/-! SUPPORT. A string as one stretch of a run (R142 to R144). -/

namespace Sys2Proof.Machine

theorem raiseIf_or (a c : Bool) (b : DiagBit) (d : BitVec 4) : raiseIf a b (raiseIf c b d) = raiseIf (a || c) b d := by
  cases a <;> cases c <;> simp [raiseIf, raise, BitVec.or_assoc]

theorem raiseIf_comm (a c : Bool) (b e : DiagBit) (d : BitVec 4) :
    raiseIf a b (raiseIf c e d) = raiseIf c e (raiseIf a b d) := by
  cases a <;> cases c <;> simp only [raiseIf, raise, if_true, Bool.false_eq_true, if_false]
  ac_rfl

/-- Whether a string has a character with invalid coordinates, an unsupported character, and a dropped byte. -/
def stringDiag (cfg : Config) (page : Byte) (cur : Nat) (text : List Byte) (d : BitVec 4) : BitVec 4 :=
  let ps := placements cur text
  raiseIf (ps.length < text.length) .TRUNC
    (raiseIf (ps.any fun p => !supported cfg p.2) .CHSUB
      (raiseIf (ps.any fun p => !coordsValid page (BitVec.ofNat 8 p.1)) .COORD d))

/-- A change of the registers that a string and its characters use. -/
def Work.lettered (w v : Work) : Prop :=
  v = { w with CUR := v.CUR, TI := v.TI, STOP := v.STOP, IDX := v.IDX, K := v.K, CHIPID := v.CHIPID, LCOL := v.LCOL,
               SAMP := v.SAMP }

theorem Work.lettered.trans {w v u : Work} (h1 : w.lettered v) (h2 : v.lettered u) : w.lettered u := by
  unfold Work.lettered at *
  rw [h2, h1]

/-- The loop of a string from `s`, with the text `text` at SP and `more` bytes to follow it: it leads to `t`. -/
structure Wrote (p : Byte) (s t : State) (text : List Byte) (es : List BusEntry) (d : BitVec 4) : Prop where
  runs : ∀ more rest, Runs (s.doing (.chars p (text.length + more) :: rest)) (t.doing (.chars p more :: rest))
  did : Did s t es
  SP : t.SP = s.SP + text.length
  lat : t.lat = { s.lat with CH := t.lat.CH }
  work : s.work.lettered t.work
  DIAG : t.DIAG = d

theorem nextByte_of_prefix {s : State} {b : Byte} {text : List Byte} (h : b :: text <+: s.stream.drop s.SP) :
    s.nextByte = some b := by
  obtain ⟨r, hr⟩ := h
  unfold State.nextByte
  have : (s.stream.drop s.SP)[0]? = some b := by rw [← hr]; rfl
  simpa using this

theorem prefix_next {s : State} {b : Byte} {text : List Byte} (h : b :: text <+: s.stream.drop s.SP) :
    text <+: s.stream.drop (s.SP + 1) := by
  obtain ⟨r, hr⟩ := h
  refine ⟨r, ?_⟩
  rw [← List.drop_drop, ← hr]; rfl

theorem wrote_stopped (p : Byte) (text : List Byte) {s : State} (hs : s.work.STOP = true)
    (h : text <+: s.stream.drop s.SP) : ∃ t, Wrote p s t text []
      (raiseIf (!text.isEmpty) .TRUNC s.DIAG) := by
  induction text generalizing s with
  | nil => exact ⟨s, fun more rest => Runs.of_eq (by simp), Did.nil s, rfl, rfl, rfl, rfl⟩
  | cons b text ih =>
    obtain ⟨t, q⟩ := ih (s := { s with
      SP := s.SP + 1, lat := { s.lat with CH := b }, DIAG := raise .TRUNC s.DIAG
      work := { s.work with TI := s.work.TI + 1 } }) hs (prefix_next h)
    refine ⟨t, fun more rest => ?_, ?_, ?_, ?_, ?_, ?_⟩
    · rw [List.length_cons, Nat.succ_add]
      exact (runs_chars_stop s rest (nextByte_of_prefix h) hs).trans (q.runs more rest)
    · refine Did.trans (xs := []) (Did.silent ?_ ?_ ?_ ?_ ?_ ?_ ?_ ?_ ?_ ?_ ?_) q.did <;> rfl
    · rw [q.SP, List.length_cons]; simp only; omega
    · rw [q.lat]
    · exact Work.lettered.trans (v := { s.work with TI := s.work.TI + 1 }) rfl q.work
    · rw [q.DIAG]
      cases text <;> simp [raiseIf, raise, BitVec.or_assoc]

theorem seamSnap_toNat (cur : BitVec 9) :
    (seamSnap cur).toNat = if cur.toNat < 64 ∧ 64 < cur.toNat + 6 then 64 else cur.toNat := by
  unfold seamSnap seam adv
  split <;> simp_all

theorem wrote_chars (p : Byte) (text : List Byte) {s : State} (hs : s.work.STOP = false) (hc : s.work.CUR.toNat < 256)
    (ha : s.addressed ≠ .both) (h : text <+: s.stream.drop s.SP)
    (hn : s.answers (stringBus s.cfg p s.work.CUR.toNat text).length) :
    ∃ t, Wrote p s t text (stringBus s.cfg p s.work.CUR.toNat text)
      (stringDiag s.cfg p s.work.CUR.toNat text s.DIAG) := by
  induction text generalizing s with
  | nil => exact ⟨s, fun more rest => Runs.of_eq (by simp), Did.nil s, rfl, rfl, rfl, rfl⟩
  | cons b text ih =>
    set c := (if s.work.CUR.toNat < 64 ∧ 64 < s.work.CUR.toNat + 6 then 64 else s.work.CUR.toNat) with hcdef
    have hsnap : (seamSnap s.work.CUR).toNat = c := seamSnap_toNat _
    have hc2 : c < 256 := by rw [hcdef]; split <;> omega
    have hcol : (seamSnap s.work.CUR).setWidth 8 = BitVec.ofNat 8 c := by
      rw [← hsnap]; apply BitVec.eq_of_toNat_eq; simp
    set s1 : State := { s with
      SP := s.SP + 1, lat := { s.lat with CH := b }
      work := { s.work with CUR := seamSnap s.work.CUR } } with hs1
    have hbus : stringBus s.cfg p s.work.CUR.toNat (b :: text) = wcharBus s.cfg p (BitVec.ofNat 8 c) b ++
        if 128 ≤ c + 6 then [] else stringBus s.cfg p (c + 6) text := by
      simp only [stringBus, placements, ← hcdef, List.flatMap_cons]
      split <;> simp
    rw [hbus] at hn ⊢
    rw [List.length_append] at hn
    have d0 : Did s s1 [] := Did.silent rfl rfl rfl rfl rfl rfl rfl rfl rfl rfl rfl
    obtain ⟨t1, p1⟩ := proc_wchar (p := p) (c := BitVec.ofNat 8 c) (ch := b) (s := s1)
      (answers_mono (by exact hn) (Nat.le_add_right _ _)) (Or.inr ha)
    have d1 : Did s t1 (wcharBus s.cfg p (BitVec.ofNat 8 c) b) := d0.trans p1.did
    have hcur : t1.work.CUR = seamSnap s.work.CUR := by rw [p1.work]; rfl
    have hadv : (cursorAdvance t1.work.CUR).toNat = c + 6 := by
      rw [hcur]; simp only [cursorAdvance, adv, BitVec.toNat_add, hsnap, BitVec.toNat_ofNat]; omega
    have hedge : pastEdge (cursorAdvance t1.work.CUR) = decide (128 ≤ c + 6) := by simp [pastEdge, width, hadv]
    set s2 := advanceCursor t1 with hs2
    have d2 : Did t1 s2 [] := Did.silent rfl rfl rfl rfl rfl rfl rfl rfl rfl rfl rfl
    have hrun : ∀ more rest, Runs (s.doing (.chars p ((b :: text).length + more) :: rest))
        (s2.doing (.chars p (text.length + more) :: rest)) := by
      intro more rest
      have h1 := runs_chars_place (p := p) (n := text.length + more) s rest (nextByte_of_prefix h) hs
      rw [hcol] at h1
      rw [List.length_cons, Nat.succ_add]
      exact h1.trans <| (p1.runs (.advance :: .chars p (text.length + more) :: rest)).trans (runs_advance _ _)
    have hlet : s.work.lettered s2.work := by
      have e : s2.work = { t1.work with CUR := s2.work.CUR, STOP := s2.work.STOP, TI := s2.work.TI } := rfl
      unfold Work.lettered
      rw [e, p1.work]
      rfl
    have hlat2 : s2.lat = { s.lat with CH := b } := p1.lat
    have hst2 : s2.stream.drop s2.SP = s.stream.drop (s.SP + 1) := by
      have h1 : s2.stream = s.stream := p1.did.stream
      have h2 : s2.SP = s.SP + 1 := p1.SP
      rw [h1, h2]
    have hdiag : s2.DIAG = wcharDiag s.cfg p (BitVec.ofNat 8 c) b s.DIAG := p1.DIAG
    have hcfg : s2.cfg = s.cfg := p1.did.cfg
    have hstop : s2.work.STOP = decide (128 ≤ c + 6) := hedge
    by_cases he : 128 ≤ c + 6
    · obtain ⟨t, q⟩ := wrote_stopped p text (s := s2) (by simp [hstop, he]) (by rw [hst2]; exact prefix_next h)
      refine ⟨t, fun more rest => (hrun more rest).trans (q.runs more rest), ?_, ?_, ?_, hlet.trans q.work, ?_⟩
      · rw [if_pos he]; exact d1.trans (d2.trans q.did)
      · rw [q.SP, List.length_cons, show s2.SP = s.SP + 1 from p1.SP]; omega
      · rw [q.lat, hlat2]
      · rw [q.DIAG, hdiag]
        simp only [stringDiag, placements, ← hcdef, if_pos he, wcharDiag, List.length_cons, List.any_cons, List.any_nil,
          List.length_nil, Bool.or_false]
        rw [raiseIf_comm (!coordsValid _ _)]
        congr 1
        cases text <;> simp
    · obtain ⟨t, q⟩ := ih (s := s2) (by simp [hstop, he])
        (by have : s2.work.CUR.toNat = c + 6 := hadv
            omega)
        (d2.notBoth (d1.notBoth ha)) (by rw [hst2]; exact prefix_next h)
        (by
          have : s2.work.CUR.toNat = c + 6 := hadv
          rw [this, hcfg]
          rw [if_neg he] at hn
          exact (d1.trans d2).answers (by simpa using hn))
      have hcur2 : s2.work.CUR.toNat = c + 6 := hadv
      rw [hcur2, hcfg] at q
      refine ⟨t, fun more rest => (hrun more rest).trans (q.runs more rest), ?_, ?_, ?_, hlet.trans q.work, ?_⟩
      · rw [if_neg he]; exact d1.trans (d2.trans q.did)
      · rw [q.SP, List.length_cons, show s2.SP = s.SP + 1 from p1.SP]; omega
      · rw [q.lat, hlat2]
      · rw [q.DIAG, hdiag]
        simp only [stringDiag, placements, ← hcdef, if_neg he, wcharDiag, List.length_cons, List.any_cons,
          Nat.add_lt_add_iff_right]
        congr 1
        rw [raiseIf_or, raiseIf_comm _ _ .COORD, raiseIf_or, Bool.or_comm, Bool.or_comm (!coordsValid _ _)]

end Sys2Proof.Machine
end

