-- ==== Sys2Proof/Laws/Ended.lean ====
section
/-! SUPPORT. From the acceptance of an operation to its end (R71): what the procedures' stretches say of
the machine's steps after exec has accepted it. -/

namespace Sys2Proof.Machine

/-- The state in which an operation's steps begin (R71). -/
def State.taken (s : State) (opcode : Byte) (n : Nat) (lat : Latches) : State :=
  { s with lat := { lat with OPC := opcode }, SP := s.SP + n, RUN := true }

/-- The end of an operation (R71). -/
def State.ended (t : State) : State := { t with RUN := false, todo := [] }

theorem accept_doing (s : State) (opcode : Byte) (n : Nat) (lat : Latches) (acts : List Act) :
    s.accept opcode n lat acts = (s.taken opcode n lat).doing (acts ++ [.finish]) := rfl

theorem accept_finishes (s : State) (opcode : Byte) (n : Nat) (lat : Latches) {acts : List Act}
    (h : Act.finish ∉ acts) : ∃ l, (s.accept opcode n lat acts).todo = l ++ [.finish] ∧ Act.finish ∉ l := ⟨acts, rfl, h⟩

/-- An operation whose stretch of acts leads to `t` ends in `t.ended`. -/
theorem stepsTo_ended {acts : List Act} {s t : State} {opcode : Byte} {n : Nat} {lat : Latches}
    (h : ∀ rest, Runs ((s.taken opcode n lat).doing (acts ++ rest)) (t.doing rest)) (hf : Act.finish ∉ acts)
    (hr : s.rst_n = true) : (s.accept opcode n lat acts).stepsTo t.ended := by
  refine Runs.stepsTo ?_ hr rfl (accept_finishes s opcode n lat hf)
  rw [accept_doing]
  exact (h _).trans (runs_finish t [])

theorem performed_of_did {s t : State} {opcode : Byte} {n m : Nat} {lat : Latches} {es : List BusEntry}
    (h : Did (s.taken opcode n lat) t es) (hl : t.lat.OPC = opcode) (hs : t.SP = s.SP + m) :
    s.Performed t.ended opcode m es where
  run := rfl
  todo := rfl
  opc := hl
  sp := hs
  bus := h.busSince
  pins := h.pins
  fsm := h.fsm
  display := h.display.trans (displayEffect_congr (s := s) (u := s.taken opcode n lat) rfl rfl _ _)
  db7 := by
    have := congrArg (List.count false) h.db7
    rw [count_afterAnswers] at this
    exact this
  result := ⟨h.RBUF, h.RLEN⟩
  stream := h.stream
  rst := h.rst_n
  cfg := h.cfg

theorem Proc.exec {acts : List Act} {s t : State} {opcode : Byte} {n : Nat} {lat : Latches} {es : List BusEntry}
    {w : Work} {d : BitVec 4} (h : Proc acts (s.taken opcode n lat) t es w d) (hf : Act.finish ∉ acts)
    (hr : s.rst_n = true) :
    (s.accept opcode n lat acts).stepsTo t.ended ∧ s.Performed t.ended opcode n es ∧
      t.ended.lat = { lat with OPC := opcode } ∧ t.ended.work = w ∧ t.ended.DIAG = d :=
  ⟨stepsTo_ended h.runs hf hr, performed_of_did h.did (by rw [h.lat]; rfl) h.SP, h.lat, h.work, h.DIAG⟩

theorem LoopProc.exec {acts : List Act} {s t : State} {opcode : Byte} {n : Nat} {lat : Latches} {es : List BusEntry}
    {d : BitVec 4} (h : LoopProc acts (s.taken opcode n lat) t es d) (hf : Act.finish ∉ acts) (hr : s.rst_n = true) :
    (s.accept opcode n lat acts).stepsTo t.ended ∧ s.Performed t.ended opcode n es ∧
      t.ended.lat = { lat with OPC := opcode } ∧ s.work.looped t.ended.work ∧ t.ended.DIAG = d := by
  obtain ⟨w, q, hw⟩ := h
  obtain ⟨h1, h2, h3, h4, h5⟩ := q.exec hf hr
  exact ⟨h1, h2, h3, h4 ▸ hw, h5⟩

end Sys2Proof.Machine
end

