-- ==== Sys2Proof/Laws/Flow.lean ====
section
/-! SUPPORT. The bus discipline of what is left to do (R100, R105, R201, R202): knowing more never stops a flow, and an act
whose flow goes on neither faults nor breaks it. -/

namespace Sys2Proof.Machine

/-- `k` knows at least what `j` knows, and that not both chips are selected. -/
structure Known.Le (k j : Known) : Prop where
  fsm : k.fsm = j.fsm
  e : k.e = j.e
  rstn : k.rstn = j.rstn
  dbdir : ∀ b, j.dbdir = some b → k.dbdir = some b
  rw : ∀ b, j.rw = some b → k.rw = some b
  rs : ∀ b, j.rs = some b → k.rs = some b
  cs : ∀ c, j.cs = some c → k.cs = some c
  one : k.cs ≠ some (true, true)

theorem Known.Le.rest {k j : Known} (h : k.Le j) : k.rest = j.rest := by
  simp [Known.rest, h.fsm, h.e, h.rstn]

theorem Known.Le.polling {k j : Known} (h : k.Le j) (hp : j.polling = true) : k.polling = true := by
  simp only [Known.polling, Bool.and_eq_true, beq_iff_eq] at *
  exact ⟨⟨h.dbdir _ hp.1.1, h.rw _ hp.1.2⟩, h.rs _ hp.2⟩

theorem Known.Le.blur {k j : Known} (h : k.Le j) : k.Le j.blur :=
  ⟨h.fsm, h.e, h.rstn, by simp [Known.blur], by simp [Known.blur], by simp [Known.blur], by simp [Known.blur], h.one⟩

theorem Known.Le.blur_blur {k j : Known} (h : k.Le j) : k.blur.Le j.blur :=
  ⟨h.fsm, h.e, h.rstn, by simp [Known.blur], by simp [Known.blur], by simp [Known.blur], by simp [Known.blur],
    by simp [Known.blur]⟩

theorem Known.Le.afterBus {k j : Known} (h : k.Le j) (f : Fsm) (rs : Bool) : (k.afterBus f rs).Le (j.afterBus f rs) :=
  ⟨rfl, h.e, h.rstn, fun _ h => h, fun _ h => h, fun _ h => h, h.cs, h.one⟩

/-- Knowing more never stops a flow. -/
theorem Known.Le.flow {k j j' : Known} (h : k.Le j) {active : Bool} {a : Act} (hf : a.flow active j = some j') :
    ∃ k', a.flow active k = some k' ∧ k'.Le j' := by
  have hr := h.rest
  have rest_case : ∀ (g : Known → Known), (∀ {x y : Known}, x.Le y → (g x).Le (g y)) →
      (if j.rest then some (g j) else none) = some j' →
      ∃ k', (if k.rest then some (g k) else none) = some k' ∧ k'.Le j' := by
    intro g hg hj
    rw [hr]
    split at hj
    · rename_i h1
      simp only [h1, if_true]
      cases hj
      exact ⟨_, rfl, hg h⟩
    · cases hj
  have bus_case : ∀ (f : Fsm) (rs : Bool), (if j.rest then some (j.afterBus f rs) else none) = some j' →
      ∃ k', (if k.rest then some (k.afterBus f rs) else none) = some k' ∧ k'.Le j' :=
    fun f rs => rest_case (fun k => k.afterBus f rs) fun hx => hx.afterBus f rs
  have blur_case := rest_case Known.blur fun hx => hx.blur_blur
  have hpoll := @Known.Le.polling k j h
  cases a with
  | selChip id =>
    exact rest_case (fun k => { k.afterBus .idle false with cs := none }) (fun hx => ⟨rfl, hx.e, hx.rstn, fun _ h => h,
      fun _ h => h, fun _ h => h, fun _ h => (nomatch h), fun h => (nomatch h)⟩) hf
  | wcmd b => exact bus_case _ _ hf
  | wdata b => exact bus_case _ _ hf
  | glyphCol => exact bus_case _ _ hf
  | dispatch => exact blur_case hf
  | goTo p c => exact blur_case hf
  | wchar p c ch => exact blur_case hf
  | fill n b => exact blur_case hf
  | clear => exact blur_case hf
  | string p c n => exact blur_case hf
  | chars p n => exact blur_case hf
  | bar h => exact blur_case hf
  | barRow p b h => exact blur_case hf
  | finish => exact rest_case id (fun hx => hx) hf
  | fsm f =>
    cases hf
    exact ⟨_, rfl, rfl, h.e, h.rstn, h.dbdir, h.rw, h.rs, h.cs, h.one⟩
  | dir out =>
    simp only [Act.flow] at hf ⊢
    rw [h.e]
    split at hf <;> cases hf
    rename_i h1
    exact ⟨_, if_neg h1, h.fsm, rfl, h.rstn, fun _ h => h, h.rw, h.rs, h.cs, h.one⟩
  | dbw v =>
    simp only [Act.flow] at hf ⊢
    rw [h.e]
    split at hf <;> cases hf
    rename_i h1
    exact ⟨_, if_neg h1, h⟩
  | rd7 =>
    simp only [Act.flow, Bool.and_eq_true] at hf ⊢
    split at hf <;> cases hf
    rename_i h1
    rw [if_pos ⟨h.e.trans h1.1, hpoll h1.2⟩]
    exact ⟨_, rfl, h.fsm, rfl, h.rstn, h.dbdir, h.rw, h.rs, h.cs, h.one⟩
  | busyWait =>
    simp only [Act.flow] at hf ⊢
    rw [h.e]
    split at hf <;> cases hf
    rename_i h1
    exact ⟨_, if_neg h1, h.afterBus _ _⟩
  | poll =>
    simp only [Act.flow, Bool.and_eq_true] at hf ⊢
    split at hf <;> cases hf
    rename_i h1
    rw [if_pos ⟨by rw [h.e]; exact h1.1, hpoll h1.2⟩]
    exact ⟨_, rfl, h⟩
  | pin n l =>
    simp only [Act.flow] at hf ⊢
    cases n with
    | RS =>
      simp only [Known.afterPin] at hf ⊢
      rw [h.e]
      split at hf <;> cases hf
      rename_i h1
      exact ⟨_, if_neg h1, h.fsm, rfl, h.rstn, h.dbdir, h.rw, fun _ h => h, h.cs, h.one⟩
    | RW =>
      simp only [Known.afterPin] at hf ⊢
      rw [h.e]
      split at hf <;> cases hf
      rename_i h1
      exact ⟨_, if_neg h1, h.fsm, rfl, h.rstn, h.dbdir, fun _ h => h, h.rs, h.cs, h.one⟩
    | RSTN =>
      simp only [Known.afterPin] at hf ⊢
      rw [h.e]
      split at hf <;> cases hf
      rename_i h1
      exact ⟨_, if_neg h1, h.fsm, rfl, rfl, h.dbdir, h.rw, h.rs, h.cs, h.one⟩
    | E =>
      cases l with
      | true =>
        simp only [Known.afterPin, if_true] at hf ⊢
        cases hd : j.dbdir with
        | none => simp [hd] at hf
        | some d =>
          cases hw : j.rw with
          | none => simp [hd, hw] at hf
          | some w =>
            rw [h.dbdir _ hd, h.rw _ hw]
            simp only [hd, hw, h.e] at hf ⊢
            split at hf <;> cases hf
            rename_i h1
            exact ⟨_, if_pos h1, h.fsm, rfl, h.rstn, fun _ h => h, fun _ h => h, h.rs, h.cs, h.one⟩
      | false =>
        simp only [Known.afterPin, Bool.false_eq_true, if_false] at hf ⊢
        rw [h.e]
        split at hf <;> cases hf
        rename_i h1
        exact ⟨_, if_pos h1, h.fsm, rfl, h.rstn, h.dbdir, h.rw, h.rs, h.cs, h.one⟩
    | CS1 =>
      simp only [Known.afterPin] at hf ⊢
      cases hc : j.cs with
      | none => simp [hc] at hf
      | some c =>
        rw [h.cs _ hc]
        simp only [hc, h.e] at hf ⊢
        split at hf <;> cases hf
        rename_i h1
        refine ⟨_, if_pos h1, h.fsm, rfl, h.rstn, h.dbdir, h.rw, h.rs, fun _ h => h, ?_⟩
        simp only [Bool.and_eq_true, Bool.not_eq_true', Bool.and_eq_false_iff] at h1
        simp only [ne_eq, Option.some.injEq, Prod.mk.injEq, not_and, Bool.not_eq_true]
        intro hl
        rcases h1.2 with h2 | h2
        · rw [hl] at h2; cases h2
        · exact h2
    | CS2 =>
      simp only [Known.afterPin] at hf ⊢
      cases hc : j.cs with
      | none => simp [hc] at hf
      | some c =>
        rw [h.cs _ hc]
        simp only [hc, h.e] at hf ⊢
        split at hf <;> cases hf
        rename_i h1
        refine ⟨_, if_pos h1, h.fsm, rfl, h.rstn, h.dbdir, h.rw, h.rs, fun _ h => h, ?_⟩
        simp only [Bool.and_eq_true, Bool.not_eq_true', Bool.and_eq_false_iff] at h1
        simp only [ne_eq, Option.some.injEq, Prod.mk.injEq, not_and, Bool.not_eq_true]
        intro hl
        rcases h1.2 with h2 | h2
        · exact h2
        · rw [hl] at h2; cases h2
  | delay t => cases hf; exact ⟨_, rfl, h⟩
  | setK t => cases hf; exact ⟨_, rfl, h⟩
  | setPgi t => cases hf; exact ⟨_, rfl, h⟩
  | setHalf t => cases hf; exact ⟨_, rfl, h⟩
  | setRow t => cases hf; exact ⟨_, rfl, h⟩
  | clearDiag => cases hf; exact ⟨_, rfl, h⟩
  | fetch o => cases hf; exact ⟨_, rfl, h⟩
  | advance => cases hf; exact ⟨_, rfl, h⟩
  | itoa v => cases hf; exact ⟨_, rfl, h⟩
  | badCmd => cases hf; exact ⟨_, rfl, h⟩

theorem Known.Le.flows {l : List Act} {k j j' : Known} (h : k.Le j) {active : Bool} (hf : flows active l j = some j') :
    ∃ k', Machine.flows active l k = some k' ∧ k'.Le j' := by
  induction l generalizing k j with
  | nil => cases hf; exact ⟨k, rfl, h⟩
  | cons a l ih =>
    simp only [Machine.flows, Option.bind_eq_some_iff] at hf
    obtain ⟨j1, h1, h2⟩ := hf
    obtain ⟨k1, h3, h4⟩ := h.flow h1
    obtain ⟨k2, h5, h6⟩ := ih h4 h2
    exact ⟨k2, by simp [Machine.flows, h3, h5], h6⟩

theorem flows_append (active : Bool) (l m : List Act) (k : Known) :
    flows active (l ++ m) k = (flows active l k).bind (flows active m) := by
  induction l generalizing k with
  | nil => rfl
  | cons a l ih =>
    simp only [List.cons_append, flows]
    cases a.flow active k <;> simp [ih]

/-! ## Acts between which the bus rests -/

/-- The acts that begin and end with the bus at rest. -/
def Act.restful : Act → Bool
  | .dir _ => false
  | .dbw _ => false
  | .pin _ _ => false
  | .rd7 => false
  | .delay _ => true
  | .fsm _ => false
  | .setK _ => true
  | .setPgi _ => true
  | .setHalf _ => true
  | .setRow _ => true
  | .clearDiag => true
  | .fetch _ => true
  | .dispatch => true
  | .busyWait => false
  | .poll => false
  | .selChip _ => true
  | .wcmd _ => true
  | .wdata _ => true
  | .goTo _ _ => true
  | .wchar _ _ _ => true
  | .glyphCol => true
  | .fill _ _ => true
  | .clear => true
  | .string _ _ _ => true
  | .chars _ _ => true
  | .advance => true
  | .bar _ => true
  | .barRow _ _ _ => true
  | .itoa _ => true
  | .badCmd => true
  | .finish => true

theorem restful_flow {a : Act} (ha : a.restful = true) (active : Bool) {k : Known} (hr : k.rest = true)
    (ho : k.cs ≠ some (true, true)) :
    ∃ k', a.flow active k = some k' ∧ k'.rest = true ∧ k'.cs ≠ some (true, true) := by
  have blur : k.blur.rest = true ∧ k.blur.cs ≠ some (true, true) := ⟨hr, fun h => (nomatch h)⟩
  have bus : ∀ rs, (k.afterBus .idle rs).rest = true := by
    intro rs
    simp only [Known.rest, Bool.and_eq_true, beq_iff_eq] at hr ⊢
    exact ⟨hr.1, rfl⟩
  cases a <;> first
    | exact absurd ha Bool.false_ne_true
    | exact ⟨_, rfl, hr, ho⟩
    | exact ⟨_, if_pos hr, hr, ho⟩
    | exact ⟨_, if_pos hr, blur⟩
    | exact ⟨_, if_pos hr, bus _, ho⟩
    | exact ⟨_, if_pos hr, bus false, fun h => (nomatch h)⟩

theorem restful_flows {l : List Act} (hl : l.all Act.restful = true) (active : Bool) {k : Known} (hr : k.rest = true)
    (ho : k.cs ≠ some (true, true)) :
    ∃ k', flows active l k = some k' ∧ k'.rest = true ∧ k'.cs ≠ some (true, true) := by
  induction l generalizing k with
  | nil => exact ⟨k, rfl, hr, ho⟩
  | cons a l ih =>
    simp only [List.all_cons, Bool.and_eq_true] at hl
    obtain ⟨k1, h1, h2, h3⟩ := restful_flow hl.1 active hr ho
    obtain ⟨k2, h4, h5⟩ := ih hl.2 h2 h3
    exact ⟨k2, by simp [flows, h1, h4], h5⟩

theorem le_blur_of_rest {k j : Known} (hk : k.rest = true) (hj : j.rest = true) (ho : k.cs ≠ some (true, true)) :
    k.Le j.blur := by
  simp only [Known.rest, Bool.and_eq_true, beq_iff_eq, Bool.not_eq_true'] at hk hj
  exact ⟨hk.2.trans hj.2.symm, hk.1.1.trans hj.1.1.symm, hk.1.2.trans hj.1.2.symm, fun _ h => (nomatch h),
    fun _ h => (nomatch h), fun _ h => (nomatch h), fun _ h => (nomatch h), ho⟩

/-- A procedure that begins and ends at rest, replaced by a body of such acts. -/
theorem body_flow_blur {body : List Act} (hb : body.all Act.restful = true) {active : Bool} {k j : Known}
    (ho : k.cs ≠ some (true, true)) (h : (if k.rest then some k.blur else none) = some j) :
    ∃ k', flows active body k = some k' ∧ k'.Le j := by
  split at h <;> cases h
  rename_i hr
  obtain ⟨k', h1, h2, h3⟩ := restful_flows hb active hr ho
  exact ⟨k', h1, le_blur_of_rest h2 hr h3⟩

theorem glyphBody_restful : glyphBody.all Act.restful = true := by decide
theorem clearBody_restful : clearBody.all Act.restful = true := by decide
theorem barBody_restful (h : Byte) : (barBody h).all Act.restful = true := rfl
theorem barRowBody_restful (cfg : Config) (p b h : Byte) : (barRowBody cfg p b h).all Act.restful = true := by
  unfold barRowBody
  split
  · split <;> rfl
  · rfl

theorem initTail_restful (cfg : Config) :
    (initChip cfg .chip1 ++ initChip cfg .chip2 ++ [Act.clear]).all Act.restful = true := rfl

theorem flows_init (cfg : Config) (active : Bool) {k : Known} (hr : k.rest = true) (ho : k.cs ≠ some (true, true)) :
    ∃ k', flows active (initBody cfg) k = some k' ∧ k'.rest = true ∧ k'.cs ≠ some (true, true) := by
  have h0 := hr
  simp only [Known.rest, Bool.and_eq_true, beq_iff_eq, Bool.not_eq_true'] at h0
  have h1 : flows active initOpening k = some { k with rstn := true, dbdir := some true } := by
    simp [initOpening, flows, Act.flow, Known.afterPin, h0.1.1]
  rw [initBody, flows_append, h1]
  refine restful_flows (initTail_restful cfg) active ?_ ho
  simp [Known.rest, h0.1.1, h0.2]

theorem flows_actsOf (cfg : Config) (i : Instr) {active : Bool} {k j : Known}
    (ho : k.cs ≠ some (true, true)) (h : (if k.rest then some k.blur else none) = some j) :
    ∃ k', flows active (actsOf cfg i) k = some k' ∧ k'.Le j := by
  cases i <;> try exact body_flow_blur rfl ho h
  split at h <;> cases h
  rename_i hr
  obtain ⟨k', h1, h2, h3⟩ := flows_init cfg active hr ho
  exact ⟨k', h1, le_blur_of_rest h2 hr h3⟩

/-! ## One act -/

theorem known_one {s : State} (h : s.addressed ≠ .both) : s.known.cs ≠ some (true, true) := by
  unfold State.addressed at h
  rw [selects_not_both] at h
  simp only [State.known, Pins.selects, ne_eq, Option.some.injEq, Prod.mk.injEq]
  rintro ⟨h1, h2⟩
  simp [h1, h2] at h

/-- What the flow of `rest` after an act asks of the state the act leaves. -/
def FlowsOn (t : State) : Prop := t.addressed ≠ .both ∧ (flows t.cfg.csActive t.todo t.known).isSome

/-- A state that knows at least `j` flows on where `j` does. -/
theorem flowsOn_of_le {t : State} {active : Bool} {j : Known} {body rest : List Act} {k : Known}
    (hc : t.cfg.csActive = active) (htodo : t.todo = body ++ rest) (h1 : flows active body t.known = some k)
    (h2 : k.Le j) (hrest : (flows active rest j).isSome) (ho : t.addressed ≠ .both) : FlowsOn t := by
  refine ⟨ho, ?_⟩
  rw [hc, htodo, flows_append, h1]
  obtain ⟨j', hj⟩ := Option.isSome_iff_exists.mp hrest
  obtain ⟨k', hk, -⟩ := h2.flows hj
  simp [hk]

/-- A chip's act changes nothing that the flow looks at. -/
theorem forAddressed_keeps {s : State} (hc0 : s.cfg.pulseValid = true) (h : s.addressed ≠ .both) {f : ChipId → State → State}
    (hp : ∀ k u, (f k u).pins = u.pins) (hF : ∀ k u, (f k u).FSM = u.FSM) (hc : ∀ k u, (f k u).cfg = u.cfg)
    (ht : ∀ k u, (f k u).todo = u.todo) :
    ∃ t, s.forAddressed f = .next t ∧ t.pins = s.pins ∧ t.FSM = s.FSM ∧ t.cfg = s.cfg ∧ t.todo = s.todo := by
  rw [forAddressed_eq hc0 h]
  exact ⟨_, rfl, onChip_keeps _ _ hp _, onChip_keeps _ _ hF _, onChip_keeps _ _ hc _, onChip_keeps _ _ ht _⟩

theorem latchByte_keeps {s : State} (hc0 : s.cfg.pulseValid = true) (h : s.addressed ≠ .both) :
    ∃ t, latchByte s = .next t ∧ t.pins = s.pins ∧ t.FSM = s.FSM ∧ t.cfg = s.cfg ∧ t.todo = s.todo := by
  unfold latchByte
  split
  · exact forAddressed_keeps hc0 h (fun _ _ => dataOn_pins ..) (fun _ _ => dataOn_FSM ..) (fun _ _ => dataOn_cfg ..)
      (fun _ _ => dataOn_todo ..)
  · rw [latchCommand_eq hc0 h]
    exact ⟨_, rfl, onChip_keeps _ _ (fun _ _ => commandOn_pins ..) _, onChip_keeps _ _ (fun _ _ => commandOn_FSM ..) _,
      onChip_keeps _ _ (fun _ _ => commandOn_cfg ..) _, onChip_keeps _ _ (fun _ _ => commandOn_todo ..) _⟩

theorem of_ite_some {α : Type} {c : Prop} [Decidable c] {x j : α} (h : (if c then some x else none) = some j) :
    c ∧ x = j := by
  split at h <;> cases h
  rename_i hc
  exact ⟨hc, rfl⟩

/-- `PIN(n, l)` where it keeps the discipline. -/
theorem drivePin_flow {n : PinName} {l : Bool} {s : State} {j : Known} (hp : s.cfg.pulseValid = true)
    (hx : s.addressed ≠ .both) (hf : s.known.afterPin s.cfg.csActive n l = some j) :
    ∃ t, drivePin n l s = .next t ∧ t.known = j ∧ t.cfg = s.cfg ∧ t.todo = s.todo ∧ t.addressed ≠ .both := by
  have both : ∀ t : State, t.known = j → t.cfg = s.cfg → j.cs ≠ some (true, true) → t.addressed ≠ .both := by
    intro t hk hc ho
    subst hk
    unfold State.addressed
    rw [selects_not_both]
    simp only [State.known, Pins.selects, ne_eq, Option.some.injEq, Prod.mk.injEq, not_and, Bool.not_eq_true] at ho
    cases h1 : t.pins.CS1 == t.cfg.csActive
    · rfl
    · simpa using ho h1
  have ho : j.cs ≠ some (true, true) := by
    have hle : s.known.Le s.known := ⟨rfl, rfl, rfl, fun _ h => h, fun _ h => h, fun _ h => h, fun _ h => h, known_one hx⟩
    obtain ⟨k, hk, hle2⟩ := hle.flow (a := .pin n l) hf
    have : k = j := by
      have : s.known.afterPin s.cfg.csActive n l = some k := hk
      rw [hf] at this; cases this; rfl
    exact this ▸ hle2.one
  cases n with
  | E =>
    have hx2 : (State.record { s with pins := s.pins.set .E l } (.pin .E l)).addressed ≠ .both := hx
    simp only [drivePin]
    split
    · rename_i hl
      obtain ⟨t, h1, h2, h3, h4, h5⟩ := latchByte_keeps (by exact hp) hx2
      refine ⟨t, h1, ?_, h4, h5, ?_⟩
      · simp only [Bool.and_eq_true, Bool.not_eq_true'] at hl
        simp only [Known.afterPin, hl.1, Bool.false_eq_true, if_false] at hf
        split at hf <;> cases hf
        simp only [State.known, h2, h3, h4, hl.1]
        rfl
      · unfold State.addressed
        rw [h2, h4]
        exact hx2
    · refine ⟨_, rfl, ?_, rfl, rfl, hx2⟩
      simp only [Known.afterPin] at hf
      cases l with
      | true =>
        obtain ⟨-, rfl⟩ := of_ite_some hf
        rfl
      | false =>
        simp only [Bool.false_eq_true, if_false] at hf
        split at hf <;> cases hf
        rfl
  | RSTN =>
    simp only [drivePin]
    simp only [Known.afterPin] at hf
    split at hf <;> cases hf
    split
    · exact ⟨_, rfl, rfl, rfl, rfl, hx⟩
    · exact ⟨_, rfl, rfl, rfl, rfl, hx⟩
  | RS =>
    simp only [Known.afterPin] at hf
    split at hf <;> cases hf
    exact ⟨_, rfl, rfl, rfl, rfl, hx⟩
  | RW =>
    simp only [Known.afterPin] at hf
    split at hf <;> cases hf
    exact ⟨_, rfl, rfl, rfl, rfl, hx⟩
  | CS1 =>
    obtain ⟨-, rfl⟩ := of_ite_some hf
    exact ⟨_, rfl, rfl, rfl, rfl, both _ rfl rfl ho⟩
  | CS2 =>
    obtain ⟨-, rfl⟩ := of_ite_some hf
    exact ⟨_, rfl, rfl, rfl, rfl, both _ rfl rfl ho⟩

theorem Known.Le.refl {k : Known} (h : k.cs ≠ some (true, true)) : k.Le k :=
  ⟨rfl, rfl, rfl, fun _ h => h, fun _ h => h, fun _ h => h, fun _ h => h, h⟩

theorem flows_busyWait (active : Bool) {k : Known} (he : k.e = false) :
    flows active busyWaitBody k = some (k.afterBus .busyPoll false) := by
  simp [busyWaitBody, flows, Act.flow, Known.afterPin, Known.polling, Known.afterBus, he]

theorem rest_parts {k : Known} (h : k.rest = true) : k.e = false ∧ k.rstn = true ∧ k.fsm = .idle := by
  simp only [Known.rest, Bool.and_eq_true, beq_iff_eq, Bool.not_eq_true'] at h
  exact ⟨h.1.1, h.1.2, h.2⟩

theorem flows_strobe (active : Bool) (rs : Bool) (b : Byte) (f : Fsm) {k : Known} (he : k.e = false) :
    flows active (([.busyWait, .fsm f] : List Act) ++ strobeBody rs b ++ ([.fsm .idle] : List Act)) k = some (k.afterBus .idle rs) := by
  simp [strobeBody, flows, Act.flow, Known.afterPin, Known.afterBus, he]

theorem flows_selChip (cfg : Config) (id : Byte) {k : Known} (hr : k.rest = true) (hc : ∃ c, k.cs = some c) :
    ∃ k', flows cfg.csActive (selChipBody cfg id) k = some k' ∧ k'.Le { k.afterBus .idle false with cs := none } := by
  obtain ⟨c, hc⟩ := hc
  obtain ⟨he, hr2, hf⟩ := rest_parts hr
  unfold selChipBody assertBody
  by_cases h1 : id = 1#8
  · subst h1
    refine ⟨{ k.afterBus .idle false with cs := some (true, false) }, ?_, ?_⟩
    · simp [flows, Act.flow, Known.afterPin, Known.afterBus, he, hc]
    · exact ⟨rfl, rfl, rfl, fun _ h => h, fun _ h => h, fun _ h => h, fun _ h => (nomatch h), by simp⟩
  · by_cases h2 : id = 2#8
    · subst h2
      refine ⟨{ k.afterBus .idle false with cs := some (false, true) }, ?_, ?_⟩
      · simp [flows, Act.flow, Known.afterPin, Known.afterBus, he, hc]
      · exact ⟨rfl, rfl, rfl, fun _ h => h, fun _ h => h, fun _ h => h, fun _ h => (nomatch h), by simp⟩
    · refine ⟨{ k.afterBus .idle false with cs := some (false, false) }, ?_, ?_⟩
      · simp [flows, Act.flow, Known.afterPin, Known.afterBus, he, hc, h1, h2]
      · exact ⟨rfl, rfl, rfl, fun _ h => h, fun _ h => h, fun _ h => h, fun _ h => (nomatch h), by simp⟩

/-- Where what is left to do keeps the discipline, and T_E is large enough (R200), an act neither faults nor breaks it (R170, R201, R202). -/
theorem act_flow {a : Act} {rest : List Act} {s : State} (hp : s.cfg.pulseValid = true) (hx : s.addressed ≠ .both)
    (hf : (flows s.cfg.csActive (a :: rest) s.known).isSome) :
    ∃ t, act a (s.doing rest) = .next t ∧ FlowsOn t := by
  obtain ⟨j', hf⟩ := Option.isSome_iff_exists.mp hf
  simp only [flows, Option.bind_eq_some_iff] at hf
  obtain ⟨j, hj, hrest'⟩ := hf
  have hrest : (flows s.cfg.csActive rest j).isSome := by rw [hrest']; rfl
  have ho := known_one hx
  have blur : ∀ {body : List Act} {t : State}, t.todo = body ++ rest → t.known = s.known → t.cfg = s.cfg →
      t.addressed ≠ .both → body.all Act.restful = true →
      (if s.known.rest then some s.known.blur else none) = some j → FlowsOn t := by
    intro body t h1 h2 h3 h4 h5 h6
    obtain ⟨k, h7, h8⟩ := body_flow_blur h5 (active := s.cfg.csActive) (k := s.known) ho h6
    exact flowsOn_of_le (by rw [h3]) h1 (by rw [h2]; exact h7) h8 hrest h4
  have same : ∀ {t : State}, t.todo = rest → t.known = j → t.cfg = s.cfg → t.addressed ≠ .both → FlowsOn t := by
    intro t h1 h2 h3 h4
    exact ⟨h4, by rw [h1, h2, h3]; exact hrest⟩
  have le : ∀ {body : List Act} {t : State} {k : Known}, t.todo = body ++ rest → t.known = s.known → t.cfg = s.cfg →
      t.addressed ≠ .both → flows s.cfg.csActive body s.known = some k → k.Le j → FlowsOn t := by
    intro body t k h1 h2 h3 h4 h5 h6
    exact flowsOn_of_le (by rw [h3]) h1 (by rw [h2]; exact h5) h6 hrest h4
  have hle : s.known.Le s.known := Known.Le.refl ho
  cases a with
  | dir out =>
    simp only [Act.flow] at hj
    split at hj <;> cases hj
    exact ⟨_, rfl, same rfl rfl rfl hx⟩
  | dbw v =>
    obtain rfl : s.known = j := by simp only [Act.flow] at hj; split at hj <;> cases hj; rfl
    exact ⟨_, rfl, same rfl rfl rfl hx⟩
  | pin n l =>
    obtain ⟨t, h1, h2, h3, h4, h5⟩ := drivePin_flow (s := s.doing rest) hp hx (j := j) hj
    exact ⟨t, h1, same h4 h2 h3 h5⟩
  | rd7 =>
    simp only [Act.flow] at hj
    obtain ⟨h1, rfl⟩ := of_ite_some hj
    simp only [Bool.and_eq_true, Known.polling, beq_iff_eq, State.known, Option.some.injEq] at h1
    obtain ⟨h2, ⟨h3, h4⟩, h5⟩ := h1
    refine ⟨(sense (s.doing rest).busLevel (s.doing rest)).call (afterSample (s.doing rest).busLevel), ?_, ?_⟩
    · simp [act, readDB7, h3, hx, hp]
    · have hk : ∀ b, (sense b (s.doing rest)).known = s.known := fun b => rfl
      set b := (s.doing rest).busLevel
      refine flowsOn_of_le (t := (sense b (s.doing rest)).call (afterSample b)) (active := s.cfg.csActive)
        (j := { s.known with e := false }) (body := afterSample b) (k := { s.known with e := false }) rfl rfl ?_
        (Known.Le.refl ho) hrest hx
      have hk2 : ((sense b (s.doing rest)).call (afterSample b)).known = s.known := rfl
      have h2' : s.known.e = true := h2
      have hp : ({ s.known with e := false } : Known).polling = true := by simp [Known.polling, State.known, h3, h4, h5]
      rw [hk2]
      cases b <;> simp [afterSample, flows, Act.flow, Known.afterPin, h2', hp]
  | delay t => cases hj; exact ⟨_, rfl, same rfl rfl rfl hx⟩
  | fsm f => cases hj; exact ⟨_, rfl, same rfl rfl rfl hx⟩
  | setK t => cases hj; exact ⟨_, rfl, same rfl rfl rfl hx⟩
  | setPgi t => cases hj; exact ⟨_, rfl, same rfl rfl rfl hx⟩
  | setHalf t => cases hj; exact ⟨_, rfl, same rfl rfl rfl hx⟩
  | setRow t => cases hj; exact ⟨_, rfl, same rfl rfl rfl hx⟩
  | clearDiag => cases hj; exact ⟨_, rfl, same rfl rfl rfl hx⟩
  | advance => cases hj; exact ⟨_, rfl, same rfl rfl rfl hx⟩
  | itoa v => cases hj; exact ⟨_, rfl, same rfl rfl rfl hx⟩
  | badCmd => cases hj; exact ⟨_, rfl, same rfl rfl rfl hx⟩
  | finish =>
    obtain ⟨-, rfl⟩ := of_ite_some hj
    exact ⟨_, rfl, same rfl rfl rfl hx⟩
  | fetch o =>
    cases hj
    simp only [act, withNext]
    split
    · exact ⟨_, rfl, le (body := [.fetch o]) rfl rfl rfl hx rfl hle⟩
    · exact ⟨_, rfl, same rfl rfl rfl hx⟩
  | dispatch =>
    obtain ⟨k, h7, h8⟩ := flows_actsOf s.cfg s.lat.instr ho hj
    exact ⟨_, rfl, le rfl rfl rfl hx h7 h8⟩
  | busyWait =>
    simp only [Act.flow] at hj
    split at hj <;> cases hj
    rename_i he
    exact ⟨_, rfl, le (body := busyWaitBody) rfl rfl rfl hx (flows_busyWait _ (by simpa using he)) (hle.afterBus _ _)⟩
  | poll =>
    simp only [Act.flow] at hj
    obtain ⟨h1, rfl⟩ := of_ite_some hj
    simp only [Bool.and_eq_true, Bool.not_eq_true'] at h1
    have h2 := h1.2
    simp only [Known.polling, Bool.and_eq_true, beq_iff_eq] at h2
    refine ⟨_, rfl, le (body := pollBody) (k := { s.known with e := false }) rfl rfl rfl hx ?_ ?_⟩
    · have hp : ({ s.known with e := true } : Known).polling = true := h1.2
      simp [pollBody, flows, Act.flow, Known.afterPin, h1.1, h2.1.1, h2.1.2, Known.polling, h2.2]
    · have : ({ s.known with e := false } : Known) = s.known := by rw [← h1.1]
      rw [this]; exact hle
  | selChip id =>
    obtain ⟨h1, rfl⟩ := of_ite_some hj
    obtain ⟨k, h2, h3⟩ := flows_selChip s.cfg id h1 ⟨_, rfl⟩
    exact ⟨_, rfl, le rfl rfl rfl hx h2 h3⟩
  | wcmd b =>
    obtain ⟨h1, rfl⟩ := of_ite_some hj
    exact ⟨_, rfl, le (body := wcmdBody b) rfl rfl rfl hx (flows_strobe _ _ _ _ (rest_parts h1).1) (hle.afterBus _ _)⟩
  | wdata b =>
    obtain ⟨h1, rfl⟩ := of_ite_some hj
    exact ⟨_, rfl, le (body := wdataBody b) rfl rfl rfl hx (flows_strobe _ _ _ _ (rest_parts h1).1) (hle.afterBus _ _)⟩
  | glyphCol =>
    obtain ⟨h1, rfl⟩ := of_ite_some hj
    refine ⟨_, rfl, le (body := [.wdata _]) (k := s.known.afterBus .idle true) rfl rfl rfl hx ?_ (hle.afterBus _ _)⟩
    simp [flows, Act.flow, h1]
  | goTo p c =>
    simp only [act, startGoTo, doing_cfg]
    split
    · exact ⟨_, rfl, blur (body := goToBody s.cfg p c) rfl rfl rfl hx rfl hj⟩
    · exact ⟨_, rfl, blur (body := []) rfl rfl rfl hx rfl hj⟩
  | wchar p c ch => exact ⟨_, rfl, blur (body := wcharBody p c) rfl rfl rfl hx rfl hj⟩
  | fill n b =>
    cases n with
    | zero => exact ⟨_, rfl, blur (body := []) rfl rfl rfl hx rfl hj⟩
    | succ n => exact ⟨_, rfl, blur (body := [.wdata b, .fill n b]) rfl rfl rfl hx rfl hj⟩
  | clear => exact ⟨_, rfl, blur (body := clearBody) rfl rfl rfl hx clearBody_restful hj⟩
  | string p c n => exact ⟨_, rfl, blur (body := [.chars p n]) rfl rfl rfl hx rfl hj⟩
  | chars p n =>
    cases n with
    | zero => exact ⟨_, rfl, blur (body := []) rfl rfl rfl hx rfl hj⟩
    | succ n =>
      simp only [act, withNext]
      split
      · exact ⟨_, rfl, blur (body := [.chars p (n + 1)]) rfl rfl rfl hx rfl hj⟩
      · simp only [placeChar]
        split
        · exact ⟨_, rfl, blur (body := [.chars p n]) rfl rfl rfl hx rfl hj⟩
        · exact ⟨_, rfl, blur (body := [.wchar p _ _, .advance, .chars p n]) rfl rfl rfl hx rfl hj⟩
  | bar h =>
    simp only [act]
    split
    · exact ⟨_, rfl, blur (body := []) rfl rfl rfl hx rfl hj⟩
    · exact ⟨_, rfl, blur (body := barBody h) rfl rfl rfl hx (barBody_restful h) hj⟩
  | barRow p b h =>
    exact ⟨_, rfl, blur (body := barRowBody s.cfg p b h) rfl rfl rfl hx (barRowBody_restful ..) hj⟩

end Sys2Proof.Machine
end

