-- ==== Sys2Proof/Laws/PerInstr.lean ====
section
/-! SUPPORT. Statements for all instructions, one lemma per constructor. `Shape`: an encoding has one to four bytes, and
the first byte of a host operation's encoding alone tells how many operand bytes follow (R72, R73, R77). -/

namespace Sys2Proof.Laws.Shape

/-- The shape of an instruction's encoding. -/
def Statement (i : Instr) : Prop :=
  ∀ cfg : Config, 1 ≤ (encode cfg i).length ∧ (encode cfg i).length ≤ 4 ∧
    (i.wf = true → i.isHost = true → ∀ op, (encode cfg i).head? = some op →
      (encode cfg i).length = 1 + (Machine.operandsOf op).length)

theorem of_opcode {i : Instr} {op : Byte} {n : Nat} (h1 : ∀ cfg, (encode cfg i).head? = some op)
    (h2 : ∀ cfg, (encode cfg i).length = n) (h3 : n = 1 + (Machine.operandsOf op).length) (h4 : n ≤ 4) : Statement i := by
  intro cfg
  refine ⟨by rw [h2, h3]; omega, by rw [h2]; exact h4, fun _ _ op' h => ?_⟩
  rw [h1] at h
  cases h
  rw [h2, h3]

theorem init : Statement .init := of_opcode (n := 1) (fun _ => rfl) (fun _ => rfl) rfl (by decide)
theorem clear : Statement .clear := of_opcode (n := 1) (fun _ => rfl) (fun _ => rfl) rfl (by decide)
theorem goto (page column : Byte) : Statement (.goto page column) :=
  of_opcode (n := 3) (fun _ => rfl) (fun _ => rfl) rfl (by decide)
theorem wchar (page column ch : Byte) : Statement (.wchar page column ch) :=
  of_opcode (n := 4) (fun _ => rfl) (fun _ => rfl) rfl (by decide)
theorem wstr (page column len : Byte) : Statement (.wstr page column len) :=
  of_opcode (n := 4) (fun _ => rfl) (fun _ => rfl) rfl (by decide)
theorem wpct (len : Byte) : Statement (.wpct len) := of_opcode (n := 2) (fun _ => rfl) (fun _ => rfl) rfl (by decide)
theorem bar (height : Byte) : Statement (.bar height) := of_opcode (n := 2) (fun _ => rfl) (fun _ => rfl) rfl (by decide)
theorem itoa (value : Word) : Statement (.itoa value) := of_opcode (n := 3) (fun _ => rfl) (fun _ => rfl) rfl (by decide)
theorem selchip (id : Byte) : Statement (.selchip id) := of_opcode (n := 2) (fun _ => rfl) (fun _ => rfl) rfl (by decide)
theorem wcmd (byte : Byte) : Statement (.wcmd byte) := of_opcode (n := 2) (fun _ => rfl) (fun _ => rfl) rfl (by decide)
theorem wdata (byte : Byte) : Statement (.wdata byte) := of_opcode (n := 2) (fun _ => rfl) (fun _ => rfl) rfl (by decide)

theorem reserved (opcode : Byte) : Statement (.reserved opcode) := by
  intro cfg
  refine ⟨Nat.le_refl _, by simp [encode], fun hw _ op h => ?_⟩
  simp only [encode, List.head?_cons, Option.some.injEq] at h
  subst h
  simp only [Instr.wf, isHostOpcode, hostOpcodes, Bool.not_eq_true'] at hw
  simp only [encode, List.length_singleton, Machine.operandsOf]
  split <;> simp_all

theorem lcdSetPage (page : BitVec 3) : Statement (.lcdSetPage page) :=
  fun _ => ⟨Nat.le_refl _, by simp [encode], fun _ h => absurd h Bool.false_ne_true⟩
theorem lcdSetCol (lcol : BitVec 6) : Statement (.lcdSetCol lcol) :=
  fun _ => ⟨Nat.le_refl _, by simp [encode], fun _ h => absurd h Bool.false_ne_true⟩
theorem lcdDisplayOn : Statement .lcdDisplayOn :=
  fun _ => ⟨Nat.le_refl _, by simp [encode], fun _ h => absurd h Bool.false_ne_true⟩
theorem lcdStartLine (line : BitVec 6) : Statement (.lcdStartLine line) :=
  fun _ => ⟨Nat.le_refl _, by simp [encode], fun _ h => absurd h Bool.false_ne_true⟩

end Sys2Proof.Laws.Shape
end

