-- ==== Sys2Proof/Laws/Reset.lean ====
section
/-! SUPPORT. What a hardware reset leaves (R30, R190), and what its race with a high enable line can reach (R193, U12). -/

namespace Sys2Proof.Machine

/-- The frame of the race on chip `k`: the other chip, and all that is neither chip nor display data RAM nor the count of
draws, is as before. What it does on chip `k` itself the equations below say, bus state by bus state. -/
structure Raced (k : ChipId) (s t : State) : Prop where
  rest : t = { s with chip1 := t.chip1, chip2 := t.chip2, ram := t.ram, draws := t.draws }
  others : ∀ j, j ≠ k → t.chip j = s.chip j
  ramWf : s.ram.wf = true → t.ram.wf = true

theorem Raced.of {k : ChipId} {s : State} {m : Memory} (n : Nat) (c : Chip)
    (hm : m = s.ram ∨ ∃ key, m = s.ram.forget key) : Raced k s (State.setChip { s with ram := m, draws := n } k c) where
  rest := by cases k <;> rfl
  others j hj := by rw [setChip_chip_other _ (Ne.symm hj)]; cases j <;> rfl
  ramWf h := by
    rw [setChip_ram]
    rcases hm with rfl | ⟨key, rfl⟩
    · exact h
    · exact Memory.forget_wf h _

theorem raceAnyOn_raced (k : ChipId) (n d : Nat) (s : State) : Raced k s (raceAnyOn k n { s with draws := d }) := by
  unfold raceAnyOn
  refine Raced.of d _ ?_
  split
  · exact Or.inr ⟨_, rfl⟩
  · exact Or.inl rfl

theorem raceDataOn_raced (k : ChipId) (n d : Nat) (s : State) : Raced k s (raceDataOn k n { s with draws := d }) := by
  unfold raceDataOn
  simp only
  split
  · exact Raced.of d _ (Or.inr ⟨_, rfl⟩)
  · have e : ∀ u : State, u = u.setChip k (u.chip k) := by intro u; cases k <;> rfl
    rw [e { s with ram := _, draws := d }]
    exact Raced.of d _ (Or.inr ⟨_, rfl⟩)

theorem raceCommandOn_raced (b : Byte) (k : ChipId) (n d : Nat) (s : State) :
    Raced k s (raceCommandOn b k n { s with draws := d }) := by
  unfold raceCommandOn
  simp only
  split
  all_goals first
    | exact Raced.of d _ (Or.inl rfl)
    | exact raceAnyOn_raced k n d s

theorem raceOn_raced (k : ChipId) (s : State) : Raced k s (raceOn k s) := by
  unfold raceOn
  simp only
  split
  · split
    · exact raceDataOn_raced k _ _ s
    · exact raceCommandOn_raced _ k _ _ s
  · exact raceAnyOn_raced k _ _ s

/-- A data write at a defined column: its byte becomes unspecified, and the column register may advance. -/
theorem raceOn_data {k : ChipId} {s : State} {y : BitVec 6} (hd : s.pins.DBDIR = true) (hw : s.pins.RW = false)
    (hr : s.pins.RS = true) (hy : (s.chip k).Y = some y) :
    (raceOn k s).ram = s.ram.forget (ddramKey k (s.chip k).X y) ∧
    (raceOn k s).chip k =
      { s.chip k with Y := if Config.drawLatched s.draws then columnAfter s.cfg y else some y } := by
  have hk : State.chip { s with draws := s.draws + 1 } k = s.chip k := by cases k <;> rfl
  simp [raceOn, raceDataOn, hd, hw, hr, hk, hy]

/-- A data write at an undefined column: the byte at a free column becomes unspecified. -/
theorem raceOn_dataUndefined {k : ChipId} {s : State} (hd : s.pins.DBDIR = true) (hw : s.pins.RW = false)
    (hr : s.pins.RS = true) (hy : (s.chip k).Y = none) :
    (raceOn k s).ram = s.ram.forget (ddramKey k (s.chip k).X (Config.drawCol s.draws)) ∧
    (raceOn k s).chip k = s.chip k := by
  have hk : State.chip { s with draws := s.draws + 1 } k = s.chip k := by cases k <;> rfl
  simp only [raceOn, raceDataOn, hd, hw, hr, hk, hy, Bool.not_false, Bool.and_self, if_true]
  exact ⟨trivial, by cases k <;> rfl⟩

/-- A command write: the one register the command names, and no byte. -/
theorem raceOn_command {k : ChipId} {s : State} {command : Command} (hd : s.pins.DBDIR = true)
    (hw : s.pins.RW = false) (hr : s.pins.RS = false) (hc : decodeCommand s.cfg s.pins.DBOUT = some command) :
    (raceOn k s).ram = s.ram ∧ (raceOn k s).chip k =
      match command with
      | .setPage _ => { s.chip k with X := Config.drawPage s.draws }
      | .setCol _ => { s.chip k with
          Y := if Config.drawLatched s.draws then some (Config.drawCol s.draws) else (s.chip k).Y }
      | .startLine _ => { s.chip k with Z := Config.drawLine s.draws }
      | .displayOn => { s.chip k with ON := Config.drawOn s.draws } := by
  have hk : State.chip { s with draws := s.draws + 1 } k = s.chip k := by cases k <;> rfl
  cases command <;> simp [raceOn, raceCommandOn, hd, hw, hr, hk, hc]

/-- A status read, or a byte that is no command: the race is `raceAnyOn`. -/
theorem raceOn_any {k : ChipId} {s : State} (h : s.pins.DBDIR = false ∨ s.pins.RW = true ∨
    (s.pins.RS = false ∧ decodeCommand s.cfg s.pins.DBOUT = none)) :
    raceOn k s = raceAnyOn k s.draws { s with draws := s.draws + 1 } := by
  by_cases hwr : s.pins.DBDIR = true ∧ s.pins.RW = false
  · obtain ⟨hd, hw⟩ := hwr
    simp only [hd, hw, Bool.true_eq_false, Bool.false_eq_true, false_or] at h
    simp [raceOn, raceCommandOn, hd, hw, h.1, h.2]
  · have : (s.pins.DBDIR && !s.pins.RW) = false := by
      cases hd : s.pins.DBDIR <;> cases hw : s.pins.RW <;> simp_all
    simp [raceOn, this]

/-- With one chip addressed and E high, the race is that chip's. -/
theorem resetRace_one {s : State} {k : ChipId} (ha : s.addressed = .one k) (he : s.pins.E = true) :
    resetRace s = raceOn k s := by
  have h := ha
  simp only [State.addressed, addressedBy] at h
  have hk : s.pins.selects s.cfg .chip1 = (k == .chip1) ∧ s.pins.selects s.cfg .chip2 = (k == .chip2) := by
    simp only [Pins.selects]
    cases k <;> split at h <;> simp_all
  unfold resetRace
  cases k with
  | chip1 =>
    have r := (raceOn_raced .chip1 s).rest
    have e : (raceOn .chip1 s).pins.selects (raceOn .chip1 s).cfg .chip2 = false := by
      rw [r]; exact hk.2.trans (by decide)
    simp [he, hk.1, e]
  | chip2 => simp [he, hk.1, hk.2]

theorem resetRace_quiet {s : State} (he : s.pins.E = false) : resetRace s = s := by simp [resetRace, he]

/-- The race changes nothing but the chips, display data RAM and the count of draws. -/
theorem resetRace_rest (s : State) : resetRace s =
    { s with chip1 := (resetRace s).chip1, chip2 := (resetRace s).chip2, ram := (resetRace s).ram,
             draws := (resetRace s).draws } := by
  have h1 := (raceOn_raced .chip1 s).rest
  unfold resetRace
  split
  · by_cases c1 : s.pins.selects s.cfg .chip1
    · simp only [c1, if_true]
      split
      · rw [(raceOn_raced .chip2 (raceOn .chip1 s)).rest, h1]
      · exact h1
    · simp only [c1, Bool.false_eq_true, if_false]
      split
      · exact (raceOn_raced .chip2 s).rest
      · rfl
  · rfl

theorem resetRace_ramWf {s : State} (h : s.ram.wf = true) : (resetRace s).ram.wf = true := by
  unfold resetRace
  split
  · by_cases c1 : s.pins.selects s.cfg .chip1
    · simp only [c1, if_true]
      split
      · exact (raceOn_raced .chip2 _).ramWf ((raceOn_raced .chip1 s).ramWf h)
      · exact (raceOn_raced .chip1 s).ramWf h
    · simp only [c1, Bool.false_eq_true, if_false]
      split
      · exact (raceOn_raced .chip2 s).ramWf h
      · exact h
  · exact h

/-- What a hardware reset keeps: the parameters, the reset input, and what stands outside DPIPE. -/
theorem hardReset_keeps (s : State) :
    (hardReset s).cfg = s.cfg ∧ (hardReset s).rst_n = s.rst_n ∧ (hardReset s).db7 = s.db7 ∧
    (hardReset s).sampled = s.sampled ∧ (hardReset s).DBIN = s.DBIN ∧ (s.ram.wf = true → (hardReset s).ram.wf = true) := by
  have hw := @resetRace_ramWf s
  have h := resetRace_rest s
  unfold hardReset
  by_cases hr : (resetRace s).pins.RSTN = true
  · simp only [hr, if_true]
    refine ⟨?_, ?_, ?_, ?_, ?_, hw⟩ <;> rw [h]
  · simp only [hr]
    refine ⟨?_, ?_, ?_, ?_, ?_, fun _ => rfl⟩ <;> (simp only [State.panelReset, Bool.false_eq_true, if_false]; rw [h])

/-- With the panel reset line released, a hardware reset leaves of the chips and of display data RAM what the race
leaves. -/
theorem hardReset_panel {s : State} (h : s.pins.RSTN = true) :
    (∀ k, (hardReset s).chip k = (resetRace s).chip k) ∧ (hardReset s).ram = (resetRace s).ram := by
  have hr : (resetRace s).pins.RSTN = true := by rw [resetRace_rest]; exact h
  unfold hardReset
  simp only [hr, if_true]
  exact ⟨fun k => by cases k <;> rfl, trivial⟩

end Sys2Proof.Machine
end

