-- ==== Sys2Proof/Tests/Slice0.lean ====
section
/-! SUPPORT. Tests. Expected results come from the encoding tables of `30_encoding.md`, from the vectors of
`95_test_vectors.md` (cited by id), or from the rules by hand. The last section shows, for every statement with
hypotheses, a state and operands that meet them. -/

namespace Sys2Proof.Tests

open Sys2Proof.Machine

/-! ## Decoding: one word written out for every constructor (R72, R78, R80) -/

theorem test_decode_init : decode [0x01] = .ok (.init, []) := by decide
theorem test_decode_clear : decode [0x02, 0xAA] = .ok (.clear, [0xAA]) := by decide
theorem test_decode_goto : decode [0x03, 0x05, 0x64] = .ok (.goto 5 100, []) := by decide
theorem test_decode_wchar : decode [0x04, 0x01, 0x3A, 0x41] = .ok (.wchar 1 58 0x41, []) := by decide
theorem test_decode_wstr : decode [0x05, 0x00, 0x02, 0x02, 0x4F, 0x4B] = .ok (.wstr 0 2 2, [0x4F, 0x4B]) := by decide
theorem test_decode_wpct : decode [0x06, 0x02, 0x37, 0x25] = .ok (.wpct 2, [0x37, 0x25]) := by decide
theorem test_decode_bar : decode [0x07, 0x41] = .ok (.bar 65, []) := by decide
theorem test_decode_itoa : decode [0x08, 0x10, 0x27] = .ok (.itoa 10000, []) := by decide
theorem test_decode_selchip : decode [0x10, 0x01] = .ok (.selchip 1, []) := by decide
theorem test_decode_wcmd : decode [0x11, 0x3F] = .ok (.wcmd 0x3F, []) := by decide
theorem test_decode_wdata : decode [0x12, 0xA5] = .ok (.wdata 0xA5, []) := by decide

/-- V-DEC-9: the boundaries of the reserved ranges. -/
theorem test_decode_reserved : ([0x00, 0x09, 0x0F, 0x13, 0xFF] : List Byte).all fun b =>
    decode [b] == .ok (.reserved b, []) := by decide

/-- V-DEC-7: GOTO whose second operand byte is still to come. -/
theorem test_decode_waits : decode [0x03, 0x05] = .error (.operandsMissing 0x03) := by decide
theorem test_decode_empty : decode [] = .error .noByte := by decide

/-- V-CHIP-1 to V-CHIP-5: bit patterns 10111ppp, 01llllll, 11zzzzzz, 00111111, and bytes that are no command. -/
theorem test_decode_lcd_set_page : decodeCommand Config.suggested 0b10111011 = some (.setPage 3) := by decide
theorem test_decode_lcd_set_col : decodeCommand Config.suggested 0b01100100 = some (.setCol 36) := by decide
theorem test_decode_lcd_start_line : decodeCommand Config.suggested 0b11111111 = some (.startLine 63) := by decide
theorem test_decode_lcd_display_on : decodeCommand Config.suggested 0b00111111 = some .displayOn := by decide
theorem test_decode_lcd_unknown : ([0x00, 0x3E, 0x80, 0xB7] : List Byte).all fun b =>
    decodeCommand Config.suggested b == none := by decide

/-- The four controller rows of the opcode table, and a byte that both spaces leave to RESERVED. -/
theorem test_table_words : decodeTableWord 8 0xB8 = some (.lcdSetPage 0) ∧ decodeTableWord 8 0x40 = some (.lcdSetCol 0) ∧
    decodeTableWord 8 0x3F = some .lcdDisplayOn ∧ decodeTableWord 8 0xC0 = some (.lcdStartLine 0) ∧
    decodeTableWord 8 0x00 = some (.reserved 0) ∧ decodeTableWord 32 0x02020005 = some (.wstr 0 2 2) := by decide

/-- V-DEC-2: text bytes are never opcodes. -/
theorem test_stream_text : decodeStream [0x06, 0x02, 0x01, 0x02, 0x02] =
    ([⟨.wpct 2, [0x01, 0x02]⟩, ⟨.clear, []⟩], []) := by decide
/-- V-DEC-1 and V-DEC-7: whole operations, then the bytes of an incomplete one. -/
theorem test_stream_rest : decodeStream [0x05, 0x00, 0x02, 0x02, 0x4F, 0x4B, 0x03, 0x01, 0x02, 0x03, 0x05] =
    ([⟨.wstr 0 2 2, [0x4F, 0x4B]⟩, ⟨.goto 1 2, []⟩], [0x03, 0x05]) := by decide
/-- V-DEC-5 and V-DEC-6. -/
theorem test_stream_reserved : decodeStream [0xEE, 0x03, 0x00, 0x00, 0x08, 0x2A, 0x00, 0x07, 0x0A] =
    ([⟨.reserved 0xEE, []⟩, ⟨.goto 0 0, []⟩, ⟨.itoa 42, []⟩, ⟨.bar 10, []⟩], []) := by decide

/-! ## Ill-formed terms that the checks refuse -/

theorem test_illformed_reserved : (Instr.reserved 0x12).wf = false := by decide
theorem test_illformed_short_text : Operation.wf ⟨.wstr 0 0 3, [0x41, 0x42]⟩ = false := by decide
theorem test_illformed_stray_text : Operation.wf ⟨.clear, [0x41]⟩ = false := by decide
theorem test_illformed_bus_operation : Operation.wf ⟨.lcdDisplayOn, []⟩ = false := by decide

/-- R4: each constraint on the command bases, broken by itself. -/
theorem test_illformed_bases :
    Config.basesValid { Config.suggested with setPageBase := 0xB9 } = false ∧
    Config.basesValid { Config.suggested with setColBase := 0x41 } = false ∧
    Config.basesValid { Config.suggested with startLineBase := 0xC1 } = false ∧
    Config.basesValid { Config.suggested with setPageBase := 0x48 } = false ∧
    Config.basesValid { Config.suggested with setPageBase := 0xC8 } = false ∧
    Config.basesValid { Config.suggested with startLineBase := 0x40 } = false ∧
    Config.basesValid { Config.suggested with displayOnCmd := 0xBF } = false ∧
    Config.basesValid { Config.suggested with displayOnCmd := 0x7F } = false ∧
    Config.basesValid { Config.suggested with displayOnCmd := 0xFF } = false := by decide

/-- R4: an empty range of codes, a font that does not cover it, a blank glyph outside it. -/
theorem test_illformed_font :
    Config.fontValid { Config.suggested with lastCode := 0x1F } = false ∧
    Config.fontValid { Config.suggested with lastCode := 0x7F } = false ∧
    Config.fontValid { Config.suggested with blankIndex := 95 } = false ∧
    Config.fontValid { Config.suggested with font := List.replicate 257 ⟨0, 0, 0, 0, 0⟩ } = false := by decide +kernel

/-- R200, R210: no enable pulse, one shorter than the controller's minimum, and delays under 10 ms. -/
theorem test_illformed_times :
    Config.timesValid { Config.suggested with tE := 0, eMin := 0 } = false ∧
    Config.timesValid { Config.suggested with tE := 449 } = false ∧
    Config.timesValid { Config.suggested with tRst := 9999999 } = false ∧
    Config.timesValid { Config.suggested with tSettle := 9999999 } = false := by decide

theorem test_suggested_valid : Config.suggested.valid = true := by decide

/-! ## Small states: one step, or one operation -/

/-- After hardware reset, with these levels of DB7 to come, these stream bytes, and known chip registers: chip 1 at page
1, column 63; chip 2 at page 2, column 6. -/
def probe (db7 : List Bool) (stream : List Byte) : State :=
  { State.reset with
    db7 := db7, stream := stream
    chip1 := ⟨1, some 63, 5, false, false⟩, chip2 := ⟨2, some 6, 9, false, false⟩ }

/-- The same with a chip selected. -/
def probeOn (k : ChipId) (db7 : List Bool) (stream : List Byte) : State :=
  { probe db7 stream with pins := { (probe db7 stream).pins with CS1 := k == .chip1, CS2 := k == .chip2 } }

/-- The outcome is a next state that passes a check. -/
def holds (o : Out) (p : State → Bool) : Bool :=
  match o with
  | .next t => p t
  | .fault _ => false
  | .refused _ => false

/-- One operation: its acceptance, then its steps to its end, or to a sample whose level the list does not hold. -/
def operate : Nat → State → Out
  | 0, s => .next s
  | n + 1, s =>
    match step s with
    | .next t => if t.RUN && !(t.todo.head? == some .rd7 && t.db7.isEmpty) then operate n t else .next t
    | .fault r => .fault r
    | .refused r => .refused r

/-- V-BW-1: the events of a busy-wait that succeeds on its first poll. -/
def waitEvents : List PinEvent :=
  [.dir false, .pin .RW true, .pin .RS false, .pin .E true, .delay .tE, .rd7 false, .pin .E false, .dir true, .pin .RW false]

/-- V-SEL-2. -/
theorem test_selchip_2 : holds (operate 600 (probe [false] [0x10, 0x02])) fun t =>
    t.pinTrace == [.pin .CS1 false, .pin .CS2 false, .pin .CS2 true] ++ waitEvents &&
    !t.pins.CS1 && t.pins.CS2 && !t.RUN && t.SP == 2 := by decide +kernel

/-- V-SEL-3: no chip selected, three polls of a floating line, 19 events, DIAG unchanged. -/
theorem test_selchip_none : holds (operate 600 (probeOn .chip1 [true, true, false] [0x10, 0x00])) fun t =>
    t.pinTrace.length == 19 && !t.pins.CS1 && !t.pins.CS2 && t.DIAG == 0 && !t.RUN &&
    t.busSince (probeOn .chip1 [] []) == [.sel none] := by decide +kernel

/-- V-CMD-1. -/
theorem test_wcmd_display_on : holds (operate 600 (probeOn .chip1 [false] [0x11, 0x3F])) fun t =>
    t.pinTrace == waitEvents ++
      [.pin .RS false, .pin .RW false, .dbw 0x3F, .pin .E true, .delay .tE, .pin .E false] &&
    t.chip1.regs == (1, some 63, 5, true) && t.chip2.regs == (2, some 6, 9, false) := by decide +kernel

/-- V-CMD-2: 0xFF sets the start line to 63. -/
theorem test_wcmd_start_line : holds (operate 600 (probeOn .chip2 [false] [0x11, 0xFF])) fun t =>
    t.chip2.regs == (2, some 6, 63, false) && t.chip1.regs == (1, some 63, 5, false) := by decide +kernel

/-- V-DAT-1. -/
theorem test_wdata_stores : holds (operate 600 (probeOn .chip2 [false] [0x12, 0xA5])) fun t =>
    t.ddram .chip2 2 6 == some 0xA5 && t.ddram .chip2 2 7 == none && t.chip2.regs == (2, some 7, 9, false) &&
    t.pins.RS && t.pins.DBOUT == 0xA5 := by decide +kernel

/-- V-DAT-2 with COL_AFTER_63 = 0: the page does not advance. -/
theorem test_wdata_wraps : holds (operate 600 (probeOn .chip1 [false] [0x12, 0x5A])) fun t =>
    t.ddram .chip1 1 63 == some 0x5A && t.chip1.regs == (1, some 0, 5, false) := by decide +kernel

/-- V-DAT-3: with no chip selected the byte is lost. -/
theorem test_wdata_lost : holds (operate 600 (probe [false] [0x12, 0x77])) fun t =>
    t.ram == [] && t.chip1.regs == (1, some 63, 5, false) && !t.RUN &&
    t.busSince (probe [] []) == [.data 0x77] := by decide +kernel

/-- V-GOTO-4. -/
theorem test_goto_seam : holds (operate 600 (probe (List.replicate 3 false) [0x03, 0x03, 0x46])) fun t =>
    t.busSince (probe [] []) == [.sel (some .chip2), .cmd 0xBB, .cmd 0x46] && t.pinTrace.length == 42 &&
    t.chip2.regs == (3, some 6, 9, false) && t.chip1.regs == (1, some 63, 5, false) := by decide +kernel

/-- V-GOTO-8, V-GOTO-9, V-GOTO-10: no pin event, DIAG bit 0, three bytes consumed. -/
theorem test_goto_invalid : ([[0x03, 0x08, 0x00], [0x03, 0x00, 0x80], [0x03, 0x07, 0x80], [0x03, 0x08, 0x7F]] :
    List (List Byte)).all fun bytes => holds (operate 600 (probe [] bytes)) fun t =>
      t.trace == [] && t.DIAG == 0b0001 && t.SP == 3 && !t.RUN := by decide +kernel

/-- V-WCHAR-6: the spacing column of a character at column 59 lands at column 0 of the same chip and page. -/
theorem test_wchar_surplus : holds (operate 600 (probe (List.replicate 9 false) [0x04, 0x01, 0x3B, 0x41])) fun t =>
    t.busSince (probe [] []) == [.sel (some .chip1), .cmd 0xB9, .cmd 0x7B, .data 0x7E, .data 0x11, .data 0x11,
      .data 0x11, .data 0x7E, .data 0x00] &&
    t.ddram .chip1 1 59 == some 0x7E && t.ddram .chip1 1 63 == some 0x7E && t.ddram .chip1 1 0 == some 0x00 &&
    t.chip1.Y == some 1 := by decide +kernel

/-- V-WCHAR-14: invalid coordinates and an unsupported code: six blank bytes at the cursor, DIAG bits 0 and 1. -/
theorem test_wchar_nowhere : holds (operate 600 (probeOn .chip2 (List.replicate 6 false) [0x04, 0x09, 0x80, 0x05])) fun t =>
    t.busSince (probeOn .chip2 [] []) == List.replicate 6 (.data 0x00) && t.DIAG == 0b0011 &&
    t.ddram .chip2 2 6 == some 0x00 && t.chip2.Y == some 12 := by decide +kernel

/-- V-WSTR-6: the seam rule applies to the first character; the final cursor is 70. -/
theorem test_wstr_snap : holds (operate 600 (probe (List.replicate 9 false) [0x05, 0x02, 0x3C, 0x01, 0x41])) fun t =>
    (t.busSince (probe [] [])).take 4 == [.sel (some .chip2), .cmd 0xBA, .cmd 0x40, .data 0x7E] &&
    t.work.CUR == 70 && t.SP == 5 && !t.RUN && t.DIAG == 0 := by decide +kernel

/-- V-WSTR-9: an exact fit stops the string; the byte after it is consumed and dropped. -/
theorem test_wstr_stop : holds (operate 600 (probe (List.replicate 9 false) [0x05, 0x03, 0x7A, 0x02, 0x41, 0x42])) fun t =>
    (t.busSince (probe [] [])).length == 9 && t.work.CUR == 128 && t.SP == 6 && t.DIAG == 0b0100 := by decide +kernel

/-- V-WPCT-7 shortened: the erase run is LABEL_ERASE_LEN bytes from column 100. -/
theorem test_wpct_erase :
    let s := { probe (List.replicate 5 false) [0x06, 0x00] with cfg := { Config.suggested with labelEraseLen := 2 } }
    holds (operate 600 s) fun t =>
      t.busSince s == [.sel (some .chip2), .cmd 0xB8, .cmd 0x64, .data 0x00, .data 0x00] && !t.RUN && t.SP == 2 := by
  decide +kernel

/-- V-WPCT-1: the label's first character follows the erase run at the same origin. -/
theorem test_wpct_label :
    let s := { probe (List.replicate 13 false) [0x06, 0x01, 0x37] with
      cfg := { Config.suggested with labelEraseLen := 1 } }
    holds (operate 600 s) fun t =>
      (t.busSince s).drop 4 == [.sel (some .chip2), .cmd 0xB8, .cmd 0x64, .data 0x01, .data 0x71, .data 0x09,
        .data 0x05, .data 0x03, .data 0x00] && t.work.CUR == 106 := by decide +kernel

/-- V-BAR-65. -/
theorem test_bar_illegal : ([[0x07, 0x41], [0x07, 0xFF]] : List (List Byte)).all fun bytes =>
    holds (operate 600 (probe [] bytes)) fun t => t.trace == [] && t.DIAG == 0b1000 && t.SP == 2 && !t.RUN := by decide +kernel

/-- V-BAR-1, seen when the panel stops answering after the first row's first three bytes. -/
theorem test_bar_starts : holds (operate 600 (probe (List.replicate 6 false) [0x07, 0x01])) fun t =>
    t.busSince (probe [] []) == [.sel (some .chip1), .cmd 0xBD, .cmd 0x40, .data 0xFF, .data 0xFF, .data 0x00] &&
    t.RUN && t.work.ROW == 0 := by decide +kernel

/-- V-CLEAR-1, its first five entries. -/
theorem test_clear_starts : holds (operate 600 (probe (List.replicate 5 false) [0x02])) fun t =>
    t.busSince (probe [] []) == [.sel (some .chip1), .cmd 0xB8, .cmd 0x40, .data 0x00, .data 0x00] && t.RUN := by
  decide +kernel

/-- V-INIT-1 and V-INIT-2: the opening of the pin trace, and DIAG. -/
theorem test_init_opens : holds (operate 600 { probe (List.replicate 3 false) [0x01] with DIAG := 0b1111 }) fun t =>
    t.pinTrace.take 9 == [.pin .RSTN false, .delay .tRst, .pin .RSTN true, .delay .tSettle, .dir true, .pin .CS1 false,
      .pin .CS2 false, .pin .CS1 true, .dir false] &&
    t.busSince (probe [] []) == [.sel (some .chip1), .cmd 0x3F, .cmd 0xC0] && t.DIAG == 0 &&
    t.chip1.ON && t.chip1.Z == 0 := by decide +kernel

/-- V-INIT-3: a chip that never answers; the operation does not end. -/
theorem test_init_hangs : holds (operate 600 (probe [true, true, true] [0x01])) fun t =>
    t.RUN && t.busSince (probe [] []) == [] && t.FSM == .busyPoll && t.SP == 1 := by decide +kernel

/-- V-ITOA-42. -/
theorem test_itoa_42 : holds (operate 600 (probe [] [0x08, 0x2A, 0x00])) fun t =>
    t.RLEN == 2 && t.RBUF[0] == 0x34 && t.RBUF[1] == 0x32 && t.SP == 3 && t.trace == [] := by decide +kernel

/-- V-ITOA-0 and V-ITOA-MAX. -/
theorem test_itoa_limits : decimal 0 = [0x30] ∧ decimal 65535 = [0x36, 0x35, 0x35, 0x33, 0x35] := by decide

/-- V-RSV-1. -/
theorem test_reserved : ([0x00, 0x09, 0x13, 0xFF] : List Byte).all fun b => holds (operate 600 (probe [] [b, 0x02])) fun t =>
    t.trace == [] && t.DIAG == 0b1000 && t.SP == 1 && !t.RUN := by decide +kernel

/-- V-DEC-7: GOTO whose `column` is still to come: RUN is 1, no pin event. -/
theorem test_operand_wait : holds (stepN 2 (probe [] [0x03, 0x05])) fun t =>
    t.RUN && t.lat.PG == 5 && t.SP == 2 && t.trace == [] && t.cmdReady := by decide +kernel

theorem test_lcd_set_page : holds (exec (.lcdSetPage 7) (probeOn .chip1 [] [])) fun t =>
    t.chip1.regs == (7, some 63, 5, false) && t.chip2.regs == (2, some 6, 9, false) := by decide +kernel
theorem test_lcd_set_col : holds (exec (.lcdSetCol 0) (probeOn .chip2 [] [])) fun t =>
    t.chip2.regs == (2, some 0, 9, false) && t.chip1.regs == (1, some 63, 5, false) := by decide +kernel
theorem test_lcd_display_on : holds (exec .lcdDisplayOn (probeOn .chip2 [] [])) fun t =>
    t.chip2.regs == (2, some 6, 9, true) && t.chip1.regs == (1, some 63, 5, false) := by decide +kernel
theorem test_lcd_start_line : holds (exec (.lcdStartLine 8) (probeOn .chip1 [] [])) fun t =>
    t.chip1.regs == (1, some 63, 8, false) && t.chip2.regs == (2, some 6, 9, false) := by decide +kernel

/-- A controller command placed on the bus runs in the next step, on the chip that is addressed. -/
theorem test_bus_word : holds (step ((probeOn .chip2 [] []).withFetchWord 8 0xBB)) fun t =>
    t.chip2.regs == (3, some 6, 9, false) && t.trace == [.pin .E false] := by decide +kernel

/-- R10, R30, R193: each pin event is a step, so that `rst_n` can fall while INIT holds the panel reset line low. The rise
of the line that reset causes ends the pulse: the chips are unspecified again (R31). -/
theorem test_reset_in_init : holds (stepN 3 (probe [] [0x01])) fun t =>
    t.pinTrace == [.pin .RSTN false] && !t.pins.RSTN && t.draws == 4 &&
    holds (step (t.driveReset false)) (fun u => u.pins.RSTN && u.draws == 6 && !u.RUN && u.todo == []) := by
  decide +kernel

/-- R193: reset in the middle of an enable pulse, between the events of a busy-wait. -/
theorem test_reset_in_pulse : holds (stepN 13 (probe [false] [0x10, 0x01])) fun t =>
    t.pins.E && t.trace.head? == some (.pin .E true) &&
    holds (step (t.driveReset false)) (fun u => !u.pins.E && !u.pins.CS1 && u.trace == []) := by decide +kernel

/-- V-RST-1. -/
theorem test_hardware_reset : holds (step { probeOn .chip2 [] [0x02] with rst_n := false, SP := 1, DIAG := 3 }) fun t =>
    t.pins == ⟨0, false, false, false, false, false, false, true⟩ && t.DIAG == 0 && t.SP == 0 && t.stream == [] &&
    t.chip2.regs == (2, some 6, 9, false) := by decide +kernel

/-! ## Witnesses: every hypothesis of a statement met, at boundary values -/

/-- A text of no byte, and one of two: both are whole operations. -/
theorem witness_OperationRoundTrip :
    Operation.wf ⟨.wstr 0 255 0, []⟩ = true ∧ Operation.wf ⟨.wpct 2, [0x00, 0xFF]⟩ = true ∧
    Operation.wf ⟨.reserved 0xFF, []⟩ = true := by decide

theorem witness_OperationDecodedIsEncoded :
    decodeOperation [0x06, 0x02, 0x01, 0x02, 0x02] = some (⟨.wpct 2, [0x01, 0x02]⟩, [0x02]) := by decide

theorem witness_CommandRoundTrip : Config.suggested.basesValid = true := by decide

theorem witness_CommandDecodedIsEncoded :
    Config.suggested.basesValid = true ∧ decodeCommand Config.suggested 0xBF = some (.setPage 7) ∧
    decodeCommand Config.suggested 0x7F = some (.setCol 63) ∧
    decodeCommand Config.suggested 0xC0 = some (.startLine 0) := by decide

theorem witness_StepRunsOperation :
    (probe [] [0x03, 0x07, 0x7F]).rst_n = true ∧ (probe [] [0x03, 0x07, 0x7F]).RUN = false ∧
    decode ((probe [] [0x03, 0x07, 0x7F]).stream.drop 0) = .ok (.goto 7 127, []) := by decide

/-- The end of a command write pulse to chip 2. -/
def pulse : State :=
  { probeOn .chip2 [] [] with
    pins := ⟨0x7F, true, false, false, true, false, true, true⟩, RUN := true, todo := [.pin .E false, .finish]
    trace := [.pin .E true, .dbw 0x7F, .dir true, .pin .CS2 true] }

theorem witness_StepRunsCommand :
    pulse.rst_n = true ∧ pulse.RUN = true ∧ pulse.todo = .pin .E false :: [.finish] ∧ pulse.pins.E = true ∧
    pulse.pins.RW = false ∧ pulse.pins.DBDIR = true ∧ pulse.pins.RS = false ∧
    decodeCommand pulse.cfg pulse.pins.DBOUT = some (.setCol 63) := by decide

theorem witness_StepWaitsForTheHost_idle :
    (probe [] []).rst_n = true ∧ (probe [] []).stream[(probe [] []).SP]? = none ∧ (probe [] []).RUN = false := by decide

/-- WSTR with its last text byte still to come. -/
def waiting : State := { probe [] [0x05, 0x00, 0x00, 0x01] with SP := 4, RUN := true, todo := [.chars 0 1, .finish] }

/-- GOTO with its second operand byte still to come. -/
def fetching : State :=
  { probe [] [0x03, 0x05] with SP := 2, RUN := true, todo := [.fetch .COLR, .dispatch, .finish] }

theorem witness_StepWaitsForTheHost_operand :
    fetching.rst_n = true ∧ fetching.stream[fetching.SP]? = none ∧ fetching.RUN = true ∧
    fetching.todo = .fetch .COLR :: [.dispatch, .finish] := by decide

theorem witness_StepWaitsForTheHost_text :
    waiting.rst_n = true ∧ waiting.stream[waiting.SP]? = none ∧ waiting.RUN = true ∧
    waiting.todo = .chars 0 (0 + 1) :: [.finish] := by decide

theorem witness_OperandsFetchedOneByOne :
    (probe [] [0x08, 0xFF, 0x03]).rst_n = true ∧
    (probe [] [0x08, 0xFF, 0x03]).stream[(probe [] [0x08, 0xFF, 0x03]).SP]? = some 0x08 ∧
    decode ((probe [] [0x08, 0xFF, 0x03]).stream.drop 0) = .ok (.itoa 1023, []) := by decide

/-- Hardware reset in the middle of a data write to chip 1 at column 63, and with nothing in progress. -/
def race : State :=
  { probeOn .chip1 [] [] with
    pins := ⟨0x55, true, true, false, true, true, false, true⟩, rst_n := false }

theorem witness_HardwareReset : race.rst_n = false ∧
    ({ probe [] [] with rst_n := false } : State).pins.E = false ∧
    ({ probe [] [] with rst_n := false } : State).pins.RSTN = true := by decide

/-- A command write to chip 2 of the byte `b`, cut off by a reset. -/
def raceCommand (b : Byte) : State := { race with pins := ⟨b, true, false, false, true, false, true, true⟩ }

/-- A status read of chip 2, cut off by a reset. -/
def raceStatus : State := { race with pins := ⟨0x3E, false, false, true, true, false, true, true⟩ }

/-- A reset in a data write at column 63, and at an undefined column. -/
theorem witness_HardwareResetRace_data :
    (race.rst_n = false ∧ race.pins.RSTN = true ∧ race.addressed = .one .chip1 ∧ race.pins.E = true) ∧
    race.pins.DBDIR = true ∧ race.pins.RW = false ∧ race.pins.RS = true ∧ (race.chip .chip1).Y = some 63 ∧
    (({ race with chip1 := { race.chip1 with Y := none } } : State).chip .chip1).Y = none := by decide

/-- A reset in a command write: each of the four commands at its largest operand, and a byte that is none. -/
theorem witness_HardwareResetRace_command :
    (∀ b, (raceCommand b).rst_n = false ∧ (raceCommand b).pins.RSTN = true ∧ (raceCommand b).addressed = .one .chip2 ∧
      (raceCommand b).pins.E = true ∧ (raceCommand b).pins.DBDIR = true ∧ (raceCommand b).pins.RW = false ∧
      (raceCommand b).pins.RS = false ∧ (raceCommand b).pins.DBOUT = b) ∧
    decodeCommand race.cfg 0xBF = some (.setPage 7) ∧ decodeCommand race.cfg 0x7F = some (.setCol 63) ∧
    decodeCommand race.cfg 0xFF = some (.startLine 63) ∧ decodeCommand race.cfg 0x3F = some .displayOn ∧
    decodeCommand race.cfg 0x3E = none := by
  refine ⟨fun b => ⟨rfl, rfl, rfl, rfl, rfl, rfl, rfl, rfl⟩, by decide⟩

/-- A reset in a status read. -/
theorem witness_HardwareResetRace_status :
    raceStatus.rst_n = false ∧ raceStatus.pins.RSTN = true ∧ raceStatus.addressed = .one .chip2 ∧
    raceStatus.pins.E = true ∧ raceStatus.pins.DBDIR = false ∧ raceStatus.pins.RW = true := by decide

/-- A state in the middle of an operation that meets the invariant, its trace invariant too, and has a next state. -/
theorem witness_invariant :
    pulse.Inv ∧ pulse.TraceInv ∧ holds (step pulse) (fun t => t.chip2.Y == some 63) = true :=
  ⟨⟨by decide, by decide, by decide, by decide, fun _ => ⟨[.pin .E false], by decide, by decide⟩, fun h => absurd h (by decide)⟩,
    ⟨by decide, by decide⟩, by decide +kernel⟩

/-- One step that goes on, and so a state the statements about next states speak of (ParametersAndStreamNotWritten,
DisplayChangesAtPinEvents). -/
theorem witness_DisplayChangesAtPinEvents :
    waiting.rst_n = true ∧ waiting.RUN = true ∧ waiting.todo = .chars 0 1 :: [.finish] ∧ step waiting = .next waiting := by
  refine ⟨by decide, by decide, by decide, rfl⟩

/-- A bit of DIAG that is set before a step, and the step that accepts INIT. -/
theorem witness_DiagIsSticky :
    waiting.rst_n = true ∧ waiting.todo.head? ≠ some .clearDiag ∧ step waiting = .next waiting ∧
    ({ pulse with DIAG := 0b1001 } : State).DIAG.getLsbD 3 = true ∧
    holds (step { pulse with DIAG := 0b1001 }) (fun t => t.DIAG == 0b1001) = true ∧
    (probe [] [0x01]).rst_n = true ∧ Act.clearDiag ∉ (probe [] [0x01]).todo ∧
    holds (step (probe [] [0x01])) (fun t => decide (Act.clearDiag ∈ t.todo) && t.lat.OPC == 0x01) = true := by
  refine ⟨by decide, by decide, rfl, by decide, by decide +kernel, by decide, by decide, by decide +kernel⟩

/-- A sample about to be taken: of chip 2, of no chip, while the bus is driven, and with an enable pulse too short. -/
def sampling : State :=
  { probeOn .chip2 [true, false] [] with
    pins := ⟨0, false, false, true, true, false, true, true⟩, RUN := true, FSM := .busyPoll, todo := [.rd7, .finish] }

theorem witness_SampleReadsBusyFlag :
    (sampling.rst_n = true ∧ sampling.RUN = true ∧ sampling.todo = .rd7 :: [.finish] ∧ sampling.db7 = true :: [false] ∧
      sampling.pins.E = true ∧ sampling.pins.RW = true ∧ sampling.pins.RS = false) ∧
    (sampling.pins.DBDIR = false ∧ sampling.addressed = .one .chip2 ∧ sampling.cfg.pulseValid = true) ∧
    ({ sampling with pins := { sampling.pins with CS2 := false } } : State).addressed = .nobody ∧
    ({ sampling with pins := { sampling.pins with DBDIR := true } } : State).pins.DBDIR = true ∧
    ({ sampling with cfg := { sampling.cfg with tE := 449 } } : State).cfg.pulseValid = false := by decide

/-- Two states that differ in chips, display data RAM, DIAG and result buffer, in the middle of a write pulse. -/
theorem witness_NothingIsReadBack :
    pulse.Agree { pulse with chip2 := ⟨0, none, 0, true, true⟩, ram := [(3, 7)], DIAG := 5, RLEN := 1, draws := 9 } ∧
    holds (step pulse) (fun _ => true) = true :=
  ⟨⟨rfl, rfl, rfl, rfl, rfl, rfl, rfl, rfl, rfl, rfl, rfl, rfl, rfl, rfl⟩, by decide +kernel⟩

theorem witness_SelchipSelects :
    (probe [true, false] []).rst_n = true ∧ (probe [true, false] []).answers 1 ∧ (probe [false] []).answers 1 := by
  unfold State.answers; decide

theorem witness_BusyWaitPinTrace :
    (probe [true, true, false] []).rst_n = true ∧ (probe [true, true, false] []).cfg.pulseValid = true ∧
    (probe [true, true, false] []).db7 = List.replicate 2 true ++ false :: [] := by decide

theorem witness_TransferPinTrace :
    (probeOn .chip1 [false, true] []).rst_n = true ∧ (probeOn .chip1 [false, true] []).cfg.pulseValid = true ∧
    (probeOn .chip1 [false, true] []).addressed ≠ .both ∧ (probeOn .chip1 [false, true] []).db7 = false :: [true] := by
  decide

/-- The last page, the last column, the last line, display on; either chip. -/
theorem witness_WcmdCommands :
    (probeOn .chip1 [false] []).rst_n = true ∧
    (probeOn .chip1 [false] []).answers 1 ∧ (probeOn .chip1 [false] []).addressed = .one .chip1 ∧
    (probeOn .chip2 [false] []).addressed = .one .chip2 ∧
    decodeCommand (probe [] []).cfg 0xBF = some (.setPage 7) ∧ decodeCommand (probe [] []).cfg 0x7F = some (.setCol 63) ∧
    decodeCommand (probe [] []).cfg 0xFF = some (.startLine 63) ∧ decodeCommand (probe [] []).cfg 0x3F = some .displayOn := by
  unfold State.answers; decide

theorem witness_WcmdUnknown :
    (probeOn .chip1 [false] []).rst_n = true ∧
    (probeOn .chip1 [false] []).answers 1 ∧ (probeOn .chip1 [false] []).addressed = .one .chip1 ∧
    decodeCommand (probeOn .chip1 [false] []).cfg 0x3E = none := by
  unfold State.answers; decide

/-- A column below 63 (chip 2) and the column 63 (chip 1). -/
theorem witness_WdataStores :
    (probeOn .chip2 [false] []).rst_n = true ∧
    (probeOn .chip2 [false] []).answers 1 ∧ (probeOn .chip2 [false] []).addressed = .one .chip2 ∧
    ((probeOn .chip2 [false] []).chip .chip2).Y = some 6 ∧
    (probeOn .chip1 [false] []).answers 1 ∧ (probeOn .chip1 [false] []).addressed = .one .chip1 ∧
    ((probeOn .chip1 [false] []).chip .chip1).Y = some 63 := by
  unfold State.answers; decide

/-- Chip 1 selected with its column register undefined. -/
def lost : State := { probeOn .chip1 [false] [] with chip1 := ⟨1, none, 5, false, false⟩ }

theorem witness_WdataUndefinedColumn :
    (lost).rst_n = true ∧
    lost.answers 1 ∧ lost.addressed = .one .chip1 ∧ (lost.chip .chip1).Y = none := by
  unfold State.answers; decide

theorem witness_TransferToNobody :
    (probe [false] []).rst_n = true ∧ (probe [false] []).answers 1 ∧ (probe [false] []).addressed = .nobody := by
  unfold State.answers; decide

theorem witness_BusyPanelHangs :
    (probe [true, true] []).rst_n = true ∧ (probe [true, true] []).cfg.pulseValid = true ∧
    (Instr.wcmd 0 = .selchip 0 ∨ Instr.wcmd 0 = .wcmd 0 ∨ Instr.wcmd 0 = .wdata 0) ∧
    false ∉ (probe [true, true] []).db7 ∧ (probe [true, true] []).addressed ≠ .both := by decide

/-- A poll about to begin. -/
def polling : State :=
  { probeOn .chip1 [true, false] [] with
    pins := { (probeOn .chip1 [] []).pins with RW := true }, RUN := true, FSM := .busyPoll, todo := [.poll, .finish] }

theorem witness_PollRepeats :
    polling.rst_n = true ∧ polling.cfg.pulseValid = true ∧ polling.RUN = true ∧ polling.todo = .poll :: [.finish] ∧ polling.db7 = true :: [false] ∧
    polling.pins.DBDIR = false ∧ polling.pins.RW = true ∧ polling.pins.RS = false ∧ polling.addressed ≠ .both := by decide

theorem witness_CommandsSetOneRegister :
    (probeOn .chip1 [] []).cfg.pulseValid = true ∧ (probeOn .chip2 [] []).cfg.pulseValid = true ∧
    (probeOn .chip1 [] []).addressed = .one .chip1 ∧ (probeOn .chip2 [] []).addressed = .one .chip2 := by decide

theorem witness_CommandsNeedOneChip :
    (probe [] []).addressed = .nobody ∧
    ({ probe [] [] with pins := { (probe [] []).pins with CS1 := true, CS2 := true } } : State).addressed = .both ∧
    (probeOn .chip1 [] []).addressed = .one .chip1 ∧
    ({ probeOn .chip1 [] [] with cfg := { Config.suggested with tE := 0 } } : State).cfg.pulseValid = false := by
  decide

/-- Columns on both sides of the seam and at the edge. -/
theorem witness_ColumnMapping :
    (63 : Byte).toNat < 128 ∧ (64 : Byte).toNat < 128 ∧ (127 : Byte).toNat < 128 := by decide

/-- The corners of the screen. -/
theorem witness_GotoPositions :
    (probe (List.replicate 3 false) []).rst_n = true ∧
    (0 : Byte).toNat < 8 ∧ (7 : Byte).toNat < 8 ∧ (0 : Byte).toNat < 128 ∧ (127 : Byte).toNat < 128 ∧
    (probe (List.replicate 3 false) []).cfg.basesValid = true ∧ (probe (List.replicate 3 false) []).answers 3 := by
  unfold State.answers; decide

theorem witness_GotoInvalidIgnored :
    (probe [] []).rst_n = true ∧
    (8 ≤ (8 : Byte).toNat ∨ 128 ≤ (0 : Byte).toNat) ∧ (8 ≤ (7 : Byte).toNat ∨ 128 ≤ (128 : Byte).toNat) := by decide

theorem witness_GotoThenWdata :
    (probe (List.replicate 4 false) []).rst_n = true ∧
    (7 : Byte).toNat < 8 ∧ (63 : Byte).toNat < 128 ∧ (probe (List.replicate 4 false) []).cfg.basesValid = true ∧
    (probe (List.replicate 4 false) []).answers 4 := by
  unfold State.answers; decide

/-- Valid coordinates with nine answers, invalid ones with six. -/
theorem witness_WcharSendsSixBytes :
    (probe (List.replicate 9 false) []).rst_n = true ∧
    (probe (List.replicate 9 false) []).addressed ≠ .both ∧
    (probe (List.replicate 9 false) []).answers (if (7 : Byte).toNat < 8 ∧ (127 : Byte).toNat < 128 then 9 else 6) ∧
    (probe (List.replicate 6 false) []).answers (if (8 : Byte).toNat < 8 ∧ (0 : Byte).toNat < 128 then 9 else 6) := by
  unfold State.answers; decide

/-- The last local column where a character fits, on both chips. -/
theorem witness_WcharDraws :
    (probe (List.replicate 9 false) []).rst_n = true ∧
    (7 : Byte).toNat < 8 ∧ (122 : Byte).toNat < 128 ∧ (lcolOf 122).toNat ≤ 58 ∧ (lcolOf 58).toNat ≤ 58 ∧
    (probe (List.replicate 9 false) []).cfg.basesValid = true ∧ (probe (List.replicate 9 false) []).answers 9 := by
  unfold State.answers; decide

theorem witness_WcharSurplus :
    (probe (List.replicate 9 false) []).rst_n = true ∧
    (1 : Byte).toNat < 8 ∧ (127 : Byte).toNat < 128 ∧ (probe (List.replicate 9 false) []).cfg.colAfter63 = some 0 ∧
    (probe (List.replicate 9 false) []).cfg.basesValid = true ∧ (probe (List.replicate 9 false) []).answers 9 := by
  unfold State.answers; decide

/-- The codes on either side of the supported range; the space is the blank glyph's own character. -/
theorem witness_UnsupportedDrawsBlank :
    (probe (List.replicate 9 false) []).rst_n = true ∧
    (probe (List.replicate 9 false) []).addressed ≠ .both ∧ (probe (List.replicate 9 false) []).answers 9 ∧
    supported Config.suggested 0x1F = false ∧ supported Config.suggested 0x7F = false ∧
    supported Config.suggested 0x20 = true ∧
    (0x20 : Byte) - Config.suggested.firstCode = Config.suggested.blankIndex := by
  unfold State.answers; decide

theorem witness_ClearZeroesAll :
    (probe (List.replicate 1072 false) []).rst_n = true ∧
    (probe (List.replicate 1072 false) []).cfg.basesValid = true ∧ (probe (List.replicate 1072 false) []).answers 1072 := by
  unfold State.answers; decide +kernel

/-- "AB" at column 58: one character before the seam, one after it. -/
theorem witness_WstrPlacesText :
    (probe (List.replicate 18 false) [0x05, 0x01, 0x3A, 0x02, 0x41, 0x42]).rst_n = true ∧
    ([0x41, 0x42] : List Byte).length = (2 : Byte).toNat ∧
    (probe (List.replicate 18 false) [0x05, 0x01, 0x3A, 0x02, 0x41, 0x42]).holdsText 4 [0x41, 0x42] ∧
    (probe (List.replicate 18 false) [0x05, 0x01, 0x3A, 0x02, 0x41, 0x42]).addressed ≠ .both ∧
    (probe (List.replicate 18 false) [0x05, 0x01, 0x3A, 0x02, 0x41, 0x42]).cfg.basesValid = true ∧
    (probe (List.replicate 18 false) [0x05, 0x01, 0x3A, 0x02, 0x41, 0x42]).answers
      (stringBus Config.suggested 1 58 [0x41, 0x42]).length := by
  unfold State.answers State.holdsText; decide +kernel

theorem witness_WstrPicture :
    (probe (List.replicate 18 false) [0x05, 0x01, 0x3A, 0x02, 0x41, 0x42]).rst_n = true ∧
    (1 : Byte).toNat < 8 ∧ (58 : Byte).toNat < 128 ∧ ∀ p ∈ placements (58 : Byte).toNat [0x41, 0x42], p.1 ≤ 122 := by
  decide

/-- A text that snaps to the seam, and one of no byte at column 255. -/
theorem witness_StringLayout :
    (probe (List.replicate 9 false) [0x05, 0x00, 0x3B, 0x01, 0x41]).rst_n = true ∧
    ([0x41] : List Byte).length = (1 : Byte).toNat ∧
    (probe (List.replicate 9 false) [0x05, 0x00, 0x3B, 0x01, 0x41]).holdsText 4 [0x41] ∧
    (probe (List.replicate 9 false) [0x05, 0x00, 0x3B, 0x01, 0x41]).addressed ≠ .both ∧
    (probe (List.replicate 9 false) [0x05, 0x00, 0x3B, 0x01, 0x41]).answers
      (stringBus Config.suggested 0 (59 : Byte).toNat [0x41]).length ∧
    ([] : List Byte).length = (0 : Byte).toNat ∧ (probe [] [0x05, 0x00, 0xFF, 0x00]).holdsText 4 [] ∧
    (probe [] [0x05, 0x00, 0xFF, 0x00]).answers (stringBus Config.suggested 0 (255 : Byte).toNat []).length := by
  unfold State.answers State.holdsText; decide +kernel

theorem witness_WstrWaitsForText :
    (probe (List.replicate 9 false) [0x05, 0x01, 0x3A, 0x02, 0x41]).rst_n = true ∧
    (probe (List.replicate 9 false) [0x05, 0x01, 0x3A, 0x02, 0x41]).stream.drop (0 + 4) = [0x41] ∧
    0 + 4 ≤ (probe (List.replicate 9 false) [0x05, 0x01, 0x3A, 0x02, 0x41]).stream.length ∧
    ([0x41] : List Byte).length < (2 : Byte).toNat ∧
    (probe (List.replicate 9 false) [0x05, 0x01, 0x3A, 0x02, 0x41]).addressed ≠ .both ∧
    (probe (List.replicate 9 false) [0x05, 0x01, 0x3A, 0x02, 0x41]).answers
      (stringBus Config.suggested 1 58 [0x41]).length := by
  unfold State.answers; decide +kernel

/-- "1000%": the fifth character runs over the edge. -/
theorem witness_WpctDrawsLabel :
    (probe (List.replicate 148 false) []).rst_n = true ∧
    ([0x31, 0x30, 0x30, 0x30, 0x25] : List Byte).length = (5 : Byte).toNat ∧
    (probe (List.replicate 148 false) [0x06, 0x05, 0x31, 0x30, 0x30, 0x30, 0x25]).holdsText 2
      [0x31, 0x30, 0x30, 0x30, 0x25] ∧
    (probe (List.replicate 148 false) []).cfg.basesValid = true ∧
    (probe (List.replicate 148 false) []).answers (103 + 9 * (placements 100 [0x31, 0x30, 0x30, 0x30, 0x25]).length) ∧
    (probe [] []).cfg.labelEraseLen = 100 := by
  unfold State.answers State.holdsText; decide +kernel

theorem witness_WpctEraseRun :
    (probe (List.replicate 103 false) []).rst_n = true ∧
    (probe (List.replicate 103 false) []).cfg.basesValid = true ∧ (probe (List.replicate 103 false) []).answers 103 ∧
    (probe [] []).cfg.labelEraseLen = 100 ∧ (probe [] []).cfg.colAfter63 = some 0 := by
  unfold State.answers; decide +kernel

/-- The empty bar, the shortest, the full one. -/
theorem witness_BarCompletes :
    (probe (List.replicate 536 false) []).rst_n = true ∧
    (0 : Byte).toNat ≤ 64 ∧ (1 : Byte).toNat ≤ 64 ∧ (64 : Byte).toNat ≤ 64 ∧
    (probe (List.replicate 536 false) []).cfg.basesValid = true ∧ (probe (List.replicate 536 false) []).answers 536 := by
  unfold State.answers; decide +kernel

theorem witness_BarDuringHold :
    (probe (List.replicate 268 false) []).rst_n = true ∧
    (63 : Byte).toNat ≤ 64 ∧ (probe (List.replicate 268 false) []).cfg.basesValid = true ∧
    (probe (List.replicate 268 false) []).answers 268 := by unfold State.answers; decide +kernel

theorem witness_BarAbove64Ignored : (probe [] []).rst_n = true ∧ 64 < (65 : Byte).toNat ∧ 64 < (255 : Byte).toNat := by decide

theorem witness_InitLaunchState :
    (probe (List.replicate 1078 false) []).rst_n = true ∧
    (probe (List.replicate 1078 false) []).cfg.basesValid = true ∧ (probe (List.replicate 1078 false) []).answers 1078 := by
  unfold State.answers; decide +kernel

theorem witness_ItoaWritesDecimal : (probe [] []).rst_n = true := by decide

theorem witness_ReservedConsumed : (probe [] []).rst_n = true := by decide

theorem witness_DecimalDigits : 9 < 10 ∧ 10 ≤ 10 ∧ 65535 < 65536 := by decide

/-- The label "7%" as a whole operation. -/
theorem witness_EveryOperationFollowsItsBusTrace :
    (probe (List.replicate 121 false) [0x06, 0x02, 0x37, 0x25]).rst_n = true ∧
    (Instr.wpct 2).isHost = true ∧ ([0x37, 0x25] : List Byte).length = (Instr.wpct 2).textLen ∧
    (probe (List.replicate 121 false) [0x06, 0x02, 0x37, 0x25]).holdsText (encode Config.suggested (.wpct 2)).length
      [0x37, 0x25] ∧
    (probe (List.replicate 121 false) [0x06, 0x02, 0x37, 0x25]).addressed ≠ .both ∧
    (probe (List.replicate 121 false) [0x06, 0x02, 0x37, 0x25]).answers
      (busOf Config.suggested [0x37, 0x25] (.wpct 2)).length := by
  unfold State.answers State.holdsText; decide +kernel

/-- The machine's clause: the hypotheses of `witness_EveryOperationFollowsItsBusTrace`, and INIT's. -/
theorem witness_BusyWaitCounts :
    Instr.init.isHost = true ∧ ([] : List Byte).length = Instr.init.textLen ∧
    (probe (List.replicate 1078 false) [0x01]).addressed ≠ .both ∧
    (probe (List.replicate 1078 false) [0x01]).answers (busOf Config.suggested [] .init).length ∧
    (probe (List.replicate 1078 false) [0x01]).holdsText (encode Config.suggested .init).length [] ∧
    Config.suggested.labelEraseLen = 100 ∧ (64 : Byte).toNat ≤ 64 ∧ ¬ (65 : Byte).toNat ≤ 64 := by
  unfold State.answers State.holdsText; decide +kernel

theorem witness_PixelLayout : 0 < 8 ∧ 7 < 8 := by decide

end Sys2Proof.Tests
end

section
/-! SUPPORT. What the idle sequencer does (R71), one equation for all host operations. -/

namespace Sys2Proof.Machine

/-- The operand latches after an operation's operand bytes are fetched (R15, R74). -/
def latched (l : Latches) : Instr → Latches
  | .goto page column => { l with PG := page, COLR := column }
  | .wchar page column ch => { l with PG := page, COLR := column, CH := ch }
  | .wstr page column len => { l with PG := page, COLR := column, LEN := len }
  | .wpct len => { l with LEN := len }
  | .bar height => { l with HT := height }
  | .itoa value => { l with VAL := value }
  | .selchip id => { l with ID := id }
  | .wcmd byte => { l with BY := byte }
  | .wdata byte => { l with BY := byte }
  | _ => l

/-- The state after the acceptance of a host operation. -/
def State.accepted (s : State) (i : Instr) : State :=
  s.accept ((encode s.cfg i).headD 0) (encode s.cfg i).length (latched s.lat i) (actsOf s.cfg i)

/-- R71: exec of a host operation is its acceptance. -/
theorem exec_host {i : Instr} (hi : i.isHost = true) (s : State) : exec i s = .next (s.accepted i) := by
  cases i with
  | lcdSetPage _ | lcdSetCol _ | lcdDisplayOn | lcdStartLine _ => cases hi
  | _ => rfl

/-- The stream decoder reads host operations only (R72). -/
theorem decode_isHost {bytes rest : List Byte} {i : Instr} (h : decode bytes = .ok (i, rest)) : i.isHost = true := by
  unfold decode at h
  split at h
  · cases h
  · split at h <;> cases h <;> rfl

/-- What the idle sequencer can do: wait, accept an operation, or accept one whose operand bytes are still to come. -/
theorem fetchStep_cases {s t : State} (h : fetchStep s = .next t) :
    t = s ∨ (∃ i, t = s.accepted i) ∨ ∃ opcode, t = s.acceptPartial opcode := by
  unfold fetchStep at h
  split at h
  · rename_i i _ hd
    rw [exec_host (decode_isHost hd)] at h
    cases h
    exact .inr (.inl ⟨i, rfl⟩)
  · cases h; exact .inl rfl
  · rename_i opcode _
    cases h; exact .inr (.inr ⟨opcode, rfl⟩)

end Sys2Proof.Machine
end

section
/-! SUPPORT and the settling of O18: the event an act adds to the pin trace, and its discipline (R82, R105, R201). -/

namespace Sys2Proof.Machine

/-- The pin event of an act, where it has one (R82). -/
def Act.event (s : State) : Act → Option PinEvent
  | .dir out => some (.dir out)
  | .dbw v => some (.dbw v)
  | .pin n l => some (.pin n l)
  | .rd7 => some (.rd7 s.busLevel)
  | .delay t => some (.delay t)
  | _ => none

theorem drivePin_trace {n : PinName} {l : Bool} {s t : State} (h : drivePin n l s = .next t) :
    t.trace = .pin n l :: s.trace := by
  unfold drivePin at h
  simp only at h
  split at h
  · split at h
    · rw [latchByte_next h]
      refine onChip_keeps State.trace _ (fun k u => ?_) _
      unfold transferOn
      split
      · exact dataOn_trace ..
      · exact commandOn_trace ..
    · cases h; rfl
  · split at h <;> cases h <;> rfl
  · cases h; rfl

/-- An act adds its event, and nothing else, to the pin trace. -/
theorem act_trace {a : Act} {s t : State} (h : act a s = .next t) : t.trace = (a.event s).toList ++ s.trace := by
  cases a with
  | pin n l => exact drivePin_trace h
  | rd7 =>
    simp only [act, readDB7] at h
    split at h
    · cases h
    split at h
    · cases h
    split at h
    · cases h
    cases h; rfl
  | fetch o =>
    simp only [act, withNext] at h
    split at h <;> cases h <;> rfl
  | goTo p c =>
    cases h
    unfold startGoTo
    split <;> rfl
  | fill n b => cases h; cases n <;> rfl
  | chars p n =>
    cases n with
    | zero => cases h; rfl
    | succ n =>
      simp only [act, withNext] at h
      split at h <;> cases h
      · rfl
      · simp only [placeChar]
        split <;> rfl
  | bar hh => cases h; split <;> rfl
  | _ => cases h; rfl

/-- An act turns the pin registers as its event says (R82). -/
theorem act_pins {a : Act} {s t : State} (h : act a s = .next t) : t.pins = replay s.pins (a.event s).toList := by
  obtain ⟨es, -, htrace, hpins⟩ := (act_frame h).event
  rw [act_trace h] at htrace
  have hes : es = (a.event s).toList := by
    have := List.append_cancel_right htrace
    rw [← List.reverse_eq_iff] at this
    rw [← this]
    cases a.event s <;> rfl
  rw [hpins, hes]

/-- A `PIN` event whose flow goes on keeps the discipline. -/
theorem afterPin_disciplined {s : State} {active : Bool} {n : PinName} {l : Bool} {j : Known}
    (h : s.known.afterPin active n l = some j) : s.pins.disciplined (.pin n l) = true := by
  cases n with
  | RS | RW | RSTN =>
    simp only [Known.afterPin] at h
    split at h
    · cases h
    · rename_i he; simpa [Pins.disciplined, State.known] using he
  | CS1 | CS2 =>
    obtain ⟨hc, -⟩ := of_ite_some h
    simp only [Bool.and_eq_true] at hc
    exact hc.1
  | E =>
    cases l with
    | true => exact (of_ite_some h).1
    | false => exact (of_ite_some h).1

/-- An act whose flow goes on adds a disciplined event, if any. -/
theorem flow_disciplined {a : Act} {s : State} {active : Bool} {j : Known} {e : PinEvent}
    (h : a.flow active s.known = some j) (he : a.event s = some e) : s.pins.disciplined e = true := by
  cases a with
  | pin n l => cases he; exact afterPin_disciplined h
  | rd7 =>
    cases he
    obtain ⟨hc, -⟩ := of_ite_some h
    simp only [Bool.and_eq_true, Known.polling, beq_iff_eq, State.known, Option.some.injEq] at hc
    obtain ⟨h1, ⟨h2, h3⟩, h4⟩ := hc
    simp [Pins.disciplined, h1, h2, h3, h4]
  | dir _ | dbw _ =>
    cases he
    simp only [Act.flow] at h
    split at h
    · cases h
    · rename_i he; simpa [Pins.disciplined, State.known] using he
  | delay _ => cases he; rfl
  | _ => cases he

theorem allDisciplined_append (p : Pins) (xs ys : List PinEvent) :
    allDisciplined p (xs ++ ys) = (allDisciplined p xs && allDisciplined (replay p xs) ys) := by
  induction xs generalizing p with
  | nil => rfl
  | cons x xs ih => simp [allDisciplined, ih, replay, Bool.and_assoc]

theorem replay_append (p : Pins) (xs ys : List PinEvent) : replay p (xs ++ ys) = replay (replay p xs) ys :=
  List.foldl_append

/-- A step that adds the events `es` to the pin trace, each disciplined, keeps the trace invariant. -/
theorem traceInv_append {s t : State} {es : List PinEvent} (hs : s.TraceInv) (hc : t.cfg = s.cfg)
    (htrace : t.pinTrace = s.pinTrace ++ es) (hpins : t.pins = replay s.pins es)
    (hd : allDisciplined s.pins es = true) : t.TraceInv where
  history := by rw [hc, htrace, replay_append, hs.history, hpins]
  discipline := by rw [hc, htrace, allDisciplined_append, hs.history, hs.discipline, hd]; rfl

/-- One act of an operation that keeps the discipline. -/
theorem act_traceInv {a : Act} {rest : List Act} {s t : State} (hs : s.TraceInv)
    (hf : (flows s.cfg.csActive (a :: rest) s.known).isSome) (h : act a (s.doing rest) = .next t) :
    t.TraceInv ∧ t.pinTrace = s.pinTrace ++ (a.event (s.doing rest)).toList := by
  have htrace : t.pinTrace = s.pinTrace ++ (a.event (s.doing rest)).toList := by
    unfold State.pinTrace
    rw [act_trace h]
    cases a.event (s.doing rest) <;> simp
  refine ⟨traceInv_append hs (act_frame h).cfg htrace (act_pins h : t.pins = replay (s.doing rest).pins _) ?_, htrace⟩
  obtain ⟨j', hj'⟩ := Option.isSome_iff_exists.mp hf
  simp only [flows, Option.bind_eq_some_iff] at hj'
  obtain ⟨j, hj, -⟩ := hj'
  cases he : a.event (s.doing rest) with
  | none => rfl
  | some e =>
    have := flow_disciplined (s := s.doing rest) hj he
    simpa [allDisciplined] using this

/-- A hardware reset begins a new pin trace at the reset levels (R30). -/
theorem hardReset_traceInv (s : State) : (hardReset s).TraceInv := by
  have hc := (hardReset_keeps s).1
  refine ⟨?_, rfl⟩
  rw [hc]
  have hr : ∀ u : State, (if u.pins.RSTN then u else u.panelReset).cfg = u.cfg := fun u => by split <;> rfl
  show Pins.reset s.cfg = Pins.reset (if (resetRace s).pins.RSTN then resetRace s else (resetRace s).panelReset).cfg
  rw [hr, resetRace_rest]

/-- The idle sequencer causes no pin event (R70). -/
theorem fetchStep_silent {s t : State} (h : fetchStep s = .next t) :
    t.cfg = s.cfg ∧ t.pins = s.pins ∧ t.trace = s.trace := by
  obtain rfl | ⟨i, rfl⟩ | ⟨opcode, rfl⟩ := fetchStep_cases h <;> exact ⟨rfl, rfl, rfl⟩

/-- Settles O18: a reset begins a new trace, the idle sequencer adds nothing to it, and an act adds at most its own event,
which its flow shows disciplined. -/
theorem stepKeepsBusDiscipline : Obligations.StepKeepsBusDiscipline := by
  intro s t hi hs h
  cases hr : s.rst_n with
  | false =>
    simp only [step, hr, Bool.not_false, if_true] at h
    cases h
    exact ⟨hardReset_traceInv s, fun h => nomatch h⟩
  | true =>
    cases hrun : s.RUN with
    | true =>
      obtain ⟨l, hl, -⟩ := hi.running hrun
      obtain ⟨a, rest, htodo⟩ : ∃ a rest, s.todo = a :: rest := by rw [hl]; cases l <;> exact ⟨_, _, rfl⟩
      rw [step_act hr hrun htodo] at h
      obtain ⟨ht, htrace⟩ := act_traceInv hs (htodo ▸ hi.flow) h
      refine ⟨ht, fun _ => ?_⟩
      cases he : a.event (s.doing rest) with
      | none => exact .inl (by rw [htrace, he]; simp)
      | some e => exact .inr ⟨e, by rw [htrace, he]; rfl⟩
    | false =>
      have hf : fetchStep s = .next t := by simpa [step, hr, hrun] using h
      obtain ⟨hc, hp, htr⟩ := fetchStep_silent hf
      have htrace : t.pinTrace = s.pinTrace := congrArg List.reverse htr
      exact ⟨traceInv_append (es := []) hs hc (by simpa using htrace) hp rfl, fun _ => .inl htrace⟩

end Sys2Proof.Machine
end

section
/-! SUPPORT and the settling of O23: a step looks at nothing that `State.Agree` leaves open (R7, R22, R173). -/

namespace Sys2Proof.Machine

theorem State.Agree.trans {s u v : State} (h1 : s.Agree u) (h2 : u.Agree v) : s.Agree v where
  cfg := h2.cfg.trans h1.cfg
  pins := h2.pins.trans h1.pins
  DBIN := h2.DBIN.trans h1.DBIN
  FSM := h2.FSM.trans h1.FSM
  SP := h2.SP.trans h1.SP
  RUN := h2.RUN.trans h1.RUN
  todo := h2.todo.trans h1.todo
  lat := h2.lat.trans h1.lat
  work := h2.work.trans h1.work
  stream := h2.stream.trans h1.stream
  rst_n := h2.rst_n.trans h1.rst_n
  db7 := h2.db7.trans h1.db7
  sampled := h2.sampled.trans h1.sampled
  trace := h2.trace.trans h1.trace

theorem State.Agree.symm {s u : State} (h : s.Agree u) : u.Agree s :=
  ⟨h.cfg.symm, h.pins.symm, h.DBIN.symm, h.FSM.symm, h.SP.symm, h.RUN.symm, h.todo.symm, h.lat.symm, h.work.symm,
    h.stream.symm, h.rst_n.symm, h.db7.symm, h.sampled.symm, h.trace.symm⟩

/-- `s` with the fields that DPIPE never reads replaced by those of `u`. -/
def State.unread (s u : State) : State :=
  { s with chip1 := u.chip1, chip2 := u.chip2, ram := u.ram, DIAG := u.DIAG, RBUF := u.RBUF, RLEN := u.RLEN
           draws := u.draws }

/-- States agree exactly when one is the other with those fields replaced. -/
theorem agree_iff {s u : State} : s.Agree u ↔ u = s.unread u := by
  constructor
  · rintro ⟨h1, h2, h3, h4, h5, h6, h7, h8, h9, h10, h11, h12, h13, h14⟩
    rw [State.unread, ← h1, ← h2, ← h3, ← h4, ← h5, ← h6, ← h7, ← h8, ← h9, ← h10, ← h11, ← h12, ← h13, ← h14]
  · intro h
    rw [h]
    exact ⟨rfl, rfl, rfl, rfl, rfl, rfl, rfl, rfl, rfl, rfl, rfl, rfl, rfl, rfl⟩

/-! ## The chips' reaction -/

theorem dataOn_agree (b : Byte) (k : ChipId) (s : State) : s.Agree (dataOn b k s) := by
  constructor <;> simp

theorem commandOn_agree (b : Byte) (k : ChipId) (s : State) : s.Agree (commandOn b k s) := by
  constructor <;> simp

theorem transferOn_agree (rs : Bool) (b : Byte) (k : ChipId) (s : State) : s.Agree (transferOn rs b k s) := by
  unfold transferOn
  split
  · exact dataOn_agree b k s
  · exact commandOn_agree b k s

theorem panelReset_agree (s : State) : s.Agree s.panelReset := by constructor <;> rfl

theorem latchCommand_forAddressed (b : Byte) (s : State) : latchCommand b s = s.forAddressed (commandOn b) := by
  have congr : ∀ f, (∀ k, f k s = commandOn b k s) → s.forAddressed f = s.forAddressed (commandOn b) := by
    intro f hf
    unfold State.forAddressed
    split <;> simp only [hf]
  unfold latchCommand
  split
  · rename_i c hc
    cases c <;> exact congr _ fun k => by simp only [commandOn, hc]
  · rename_i hc
    exact congr _ fun k => by simp only [commandOn, hc]

/-- R46 for both kinds of transfer: what the addressed chip does with the byte on the bus. -/
theorem latchByte_forAddressed (s : State) :
    latchByte s = s.forAddressed (transferOn s.pins.RS s.pins.DBOUT) := by
  unfold latchByte transferOn
  split
  · rfl
  · exact latchCommand_forAddressed _ s

/-- Whether an addressed chip's reaction stops the machine does not depend on the chip. -/
theorem forAddressed_agree {s u t : State} {f : ChipId → State → State}
    (hf : ∀ (k : ChipId) (w : State), w.Agree (f k w)) (h : s.Agree u) (ht : s.forAddressed f = .next t) :
    ∃ v, u.forAddressed f = .next v ∧ t.Agree v := by
  have ha : u.addressed = s.addressed := by unfold State.addressed; rw [h.cfg, h.pins]
  unfold State.forAddressed at ht ⊢
  rw [ha, h.cfg]
  split at ht
  · cases ht; exact ⟨u, rfl, h⟩
  · rename_i k _
    split at ht
    · rename_i hp
      cases ht
      exact ⟨f k u, if_pos hp, ((hf k s).symm.trans h).trans (hf k u)⟩
    · cases ht
  · cases ht

theorem latchByte_agree {s u t : State} (h : s.Agree u) (ht : latchByte s = .next t) :
    ∃ v, latchByte u = .next v ∧ t.Agree v := by
  rw [latchByte_forAddressed] at ht ⊢
  rw [h.pins]
  exact forAddressed_agree (transferOn_agree _ _) h ht

/-! ## The acts -/

theorem drivePin_agree {n : PinName} {l : Bool} {s u t : State} (h : s.Agree u) (ht : drivePin n l s = .next t) :
    ∃ v, drivePin n l u = .next v ∧ t.Agree v := by
  have hline : (s.line n l).Agree (u.line n l) := by
    rw [agree_iff.mp h]
    constructor <;> rfl
  cases n with
  | E =>
    have e : ∀ w : State, drivePin .E l w =
      if !l && w.pins.writePulse then latchByte (w.line .E l) else .next (w.line .E l) := fun _ => rfl
    rw [e] at ht ⊢
    rw [h.pins]
    split at ht <;> rename_i hw
    · rw [if_pos hw]; exact latchByte_agree hline ht
    · cases ht; exact ⟨_, if_neg hw, hline⟩
  | RSTN =>
    have e : ∀ w : State, drivePin .RSTN l w =
      if l && w.pins.RSTN then .next (w.line .RSTN l) else .next (w.line .RSTN l).panelReset := fun _ => rfl
    rw [e] at ht ⊢
    rw [h.pins]
    split at ht <;> rename_i hl
    · cases ht; exact ⟨_, if_pos hl, hline⟩
    · cases ht; exact ⟨_, if_neg hl, ((panelReset_agree _).symm.trans hline).trans (panelReset_agree _)⟩
  | RS | RW | CS1 | CS2 => cases ht; exact ⟨_, rfl, hline⟩

theorem readDB7_agree {s u t : State} (h : s.Agree u) (ht : readDB7 s = .next t) :
    ∃ v, readDB7 u = .next v ∧ t.Agree v := by
  rw [agree_iff.mp h]
  unfold readDB7 at ht
  split at ht
  · cases ht
  rename_i hd
  split at ht
  · cases ht
  rename_i ha
  split at ht
  · cases ht
  rename_i hp
  cases ht
  exact ⟨_, (if_neg hd).trans ((if_neg ha).trans (if_neg hp)), by constructor <;> rfl⟩

/-- Where the next byte of the stream is awaited, the two machines wait together or take the same byte. -/
theorem withNext_agree {wait : Act} {use : Byte → State → State} {s u t : State} (h : s.Agree u)
    (huse : ∀ b, (use b { s with SP := s.SP + 1 }).Agree (use b { u with SP := u.SP + 1 }))
    (ht : withNext wait s (fun b s => .next (use b s)) = .next t) :
    ∃ v, withNext wait u (fun b s => .next (use b s)) = .next v ∧ t.Agree v := by
  have hb : u.nextByte = s.nextByte := by unfold State.nextByte; rw [h.stream, h.SP]
  unfold withNext at ht ⊢
  rw [hb]
  split at ht <;> cases ht
  · refine ⟨_, rfl, ?_⟩
    rw [agree_iff.mp h]
    constructor <;> rfl
  · exact ⟨_, rfl, huse _⟩

theorem placeChar_agree (page : Byte) (n : Nat) (ch : Byte) (s u : State) :
    (placeChar page n ch s).Agree (placeChar page n ch (s.unread u)) := by
  cases hs : s.work.STOP with
  | true =>
    have hu : (s.unread u).work.STOP = true := hs
    simp only [placeChar, hs, hu, if_true]
    constructor <;> rfl
  | false =>
    have hu : (s.unread u).work.STOP = false := hs
    simp only [placeChar, hs, hu]
    constructor <;> rfl

theorem startGoTo_agree (page column : Byte) (s u : State) :
    (startGoTo page column s).Agree (startGoTo page column (s.unread u)) := by
  unfold startGoTo
  split <;> constructor <;> rfl

theorem act_agree {a : Act} {s u t : State} (h : s.Agree u) (ht : act a s = .next t) :
    ∃ v, act a u = .next v ∧ t.Agree v := by
  cases a with
  | pin n l => exact drivePin_agree h ht
  | rd7 => exact readDB7_agree h ht
  | fetch o =>
    refine withNext_agree (use := fun b s => { s with lat := s.lat.put o b }) h (fun b => ?_) ht
    rw [agree_iff.mp h]
    constructor <;> rfl
  | chars p n =>
    cases n with
    | zero => cases ht; exact ⟨u, rfl, h⟩
    | succ n =>
      refine withNext_agree (use := placeChar p n) h (fun b => ?_) ht
      rw [agree_iff.mp h]
      exact placeChar_agree p n b _ u
  | goTo p c =>
    cases ht
    rw [agree_iff.mp h]
    exact ⟨_, rfl, startGoTo_agree p c s u⟩
  | fill n b =>
    cases ht
    rw [agree_iff.mp h]
    refine ⟨_, rfl, ?_⟩
    cases n <;> constructor <;> rfl
  | bar hh =>
    cases ht
    rw [agree_iff.mp h]
    refine ⟨_, rfl, ?_⟩
    split <;> constructor <;> rfl
  | _ =>
    cases ht
    rw [agree_iff.mp h]
    exact ⟨_, rfl, by constructor <;> rfl⟩

/-! ## The step -/

/-- A hardware reset leaves of DPIPE what does not depend on the chips (R30). -/
theorem hardReset_agree {s u : State} (h : s.Agree u) : (hardReset s).Agree (hardReset u) := by
  obtain ⟨hc, hr, hd, hn, hb, -⟩ := hardReset_keeps s
  obtain ⟨hc', hr', hd', hn', hb', -⟩ := hardReset_keeps u
  have hp : ∀ w : State, (hardReset w).pins = Pins.reset (hardReset w).cfg := fun _ => rfl
  exact ⟨by rw [hc, hc', h.cfg], by rw [hp, hp, hc, hc', h.cfg], by rw [hb, hb', h.DBIN], rfl, rfl, rfl, rfl, rfl, rfl, rfl,
    by rw [hr, hr', h.rst_n], by rw [hd, hd', h.db7], by rw [hn, hn', h.sampled], rfl⟩

theorem tick_agree {s u t : State} (h : s.Agree u) (ht : tick s = .next t) : ∃ v, tick u = .next v ∧ t.Agree v := by
  unfold tick at ht ⊢
  rw [h.todo]
  rw [agree_iff.mp h]
  split at ht
  · cases ht
    exact ⟨_, rfl, by constructor <;> rfl⟩
  · exact act_agree (by constructor <;> rfl) ht

theorem fetchStep_agree {s u t : State} (h : s.Agree u) (ht : fetchStep s = .next t) :
    ∃ v, fetchStep u = .next v ∧ t.Agree v := by
  unfold fetchStep at ht ⊢
  rw [h.stream, h.SP]
  split at ht
  · rename_i i _ hd
    rw [exec_host (decode_isHost hd)] at ht ⊢
    cases ht
    rw [agree_iff.mp h]
    exact ⟨_, rfl, by constructor <;> rfl⟩
  · cases ht; exact ⟨u, rfl, h⟩
  · cases ht
    rw [agree_iff.mp h]
    exact ⟨_, rfl, by constructor <;> rfl⟩

/-- Settles O23, by a simulation of the one run by the other: reset, act and acceptance each keep the agreement. -/
theorem nothingIsReadBack : Obligations.NothingIsReadBack := by
  intro s u t h ht
  unfold step at ht ⊢
  rw [h.rst_n, h.RUN]
  split at ht <;> rename_i hr
  · cases ht; exact ⟨_, if_pos hr, hardReset_agree h⟩
  rw [if_neg hr]
  split at ht <;> rename_i hrun
  · rw [if_pos hrun]; exact tick_agree h ht
  · rw [if_neg hrun]; exact fetchStep_agree h ht

end Sys2Proof.Machine
end

section
/-! SUPPORT and the settling of O4 and O5: command bytes (R4, R47, R78, R79). A set command's byte splits into its base,
which the mask of the bits above the operand picks out, and the operand. -/

namespace Sys2Proof.Machine

/-- `hi` masks the bits above an `n`-bit operand. -/
def MasksAbove (n : Nat) (hi : Byte) : Prop := ∀ i (h : i < 8), hi[i] = decide (n ≤ i)

theorem masksAbove_page : MasksAbove 3 0xF8 := by unfold MasksAbove; decide
theorem masksAbove_column : MasksAbove 6 0xC0 := by unfold MasksAbove; decide

section
variable {n : Nat} {hi base b : Byte} (hm : MasksAbove n hi)
include hm

theorem base_bit_below (hb : base &&& ~~~hi = 0) {i : Nat} (h8 : i < 8) (h : i < n) : base[i] = false := by
  have hbit : (base &&& ~~~hi)[i] = false := by rw [hb]; simp
  simpa [hm i h8, Nat.not_le.mpr h] using hbit

theorem masked_or_operand (hb : base &&& ~~~hi = 0) (p : BitVec n) : (base ||| p.setWidth 8) &&& hi = base := by
  ext i h8
  rcases Nat.lt_or_ge i n with h | h
  · simp [hm i h8, h, base_bit_below hm hb h8 h]
  · simp [hm i h8, h]

theorem operand_of_or (hn : n ≤ 8) (hb : base &&& ~~~hi = 0) (p : BitVec n) :
    (base ||| p.setWidth 8).extractLsb' 0 n = p := by
  ext i h
  have h8 : i < 8 := by omega
  simp [h8, base_bit_below hm hb h8 h, BitVec.getLsbD_eq_getElem h]

theorem masked_or_extract : (b &&& hi) ||| (b.extractLsb' 0 n).setWidth 8 = b := by
  ext i h8
  rcases Nat.lt_or_ge i n with h | h
  · simp [hm i h8, h, BitVec.getLsbD_eq_getElem h8, Nat.not_le.mpr h]
  · simp [hm i h8, h]

end

/-- The page mask lies over the column mask. -/
theorem column_mask_of_page_mask (b : Byte) : (b &&& 0xF8) &&& 0xC0 = b &&& 0xC0 := by
  rw [BitVec.and_assoc]; rfl

/-- The constraints of R4 on the command bases, one by one. -/
theorem basesValid_iff (c : Config) : c.basesValid = true ↔
    c.setPageBase &&& 0x07 = 0 ∧ c.setColBase &&& 0x3F = 0 ∧ c.startLineBase &&& 0x3F = 0 ∧
    c.setPageBase &&& 0xC0 ≠ c.setColBase ∧ c.setPageBase &&& 0xC0 ≠ c.startLineBase ∧
    c.setColBase ≠ c.startLineBase ∧ c.displayOnCmd &&& 0xF8 ≠ c.setPageBase ∧
    c.displayOnCmd &&& 0xC0 ≠ c.setColBase ∧ c.displayOnCmd &&& 0xC0 ≠ c.startLineBase := by
  simp [Config.basesValid, and_assoc]

/-- Settles O4: the masks give the base and the operand back, and R4 keeps the other bases from matching before. -/
theorem commandRoundTrip : Obligations.CommandRoundTrip := by
  intro cfg c h
  obtain ⟨hp, hc, hl, hpc, hpl, hcl, hdp, hdc, hdl⟩ := (basesValid_iff cfg).mp h
  have notPage : ∀ {b base : Byte}, b &&& 0xC0 = base → cfg.setPageBase &&& 0xC0 ≠ base → b &&& 0xF8 ≠ cfg.setPageBase := by
    rintro b base hb hne he
    exact hne (by rw [← he, column_mask_of_page_mask, hb])
  unfold decodeCommand encodeCommand
  cases c with
  | setPage p =>
    simp only
    rw [if_pos (masked_or_operand masksAbove_page hp p), operand_of_or masksAbove_page (by decide) hp p]
  | setCol l =>
    have hm := masked_or_operand masksAbove_column hc l
    simp only
    rw [if_neg (notPage hm hpc), if_pos hm, operand_of_or masksAbove_column (by decide) hc l]
  | startLine z =>
    have hm := masked_or_operand masksAbove_column hl z
    simp only
    rw [if_neg (notPage hm hpl), if_neg (by rw [hm]; exact hcl.symm), if_pos hm,
      operand_of_or masksAbove_column (by decide) hl z]
  | displayOn => simp only [if_neg hdp, if_neg hdc, if_neg hdl, if_true]

/-- Settles O5: a byte under its mask is the base that matched, and the bits below are the operand read. -/
theorem commandDecodedIsEncoded : Obligations.CommandDecodedIsEncoded := by
  intro cfg b c _ h
  unfold decodeCommand at h
  split at h
  · rename_i hb; cases h
    unfold encodeCommand; rw [← hb]; exact masked_or_extract masksAbove_page
  split at h
  · rename_i hb; cases h
    unfold encodeCommand; rw [← hb]; exact masked_or_extract masksAbove_column
  split at h
  · rename_i hb; cases h
    unfold encodeCommand; rw [← hb]; exact masked_or_extract masksAbove_column
  split at h
  · rename_i hb; cases h
    exact hb.symm
  · cases h

end Sys2Proof.Machine
end

section
/-! The settling of O22: which acts reach the chips (R7, R22, R46, R82). That a byte is taken at the fall of E only is log
entry 17, and that a sample changes no register of a chip is log entry 18. -/

namespace Sys2Proof.Machine

/-- Chips' registers and bytes that a change of state leaves alone. -/
theorem same_of_regs {s t : State} (h1 : t.chip1.regs = s.chip1.regs) (h2 : t.chip2.regs = s.chip2.regs)
    (hr : t.ram = s.ram) : s.SameChip t .chip1 ∧ s.SameChip t .chip2 ∧ s.SameBytes t :=
  ⟨h1, h2, fun k p l => by unfold State.ddram; rw [hr]⟩

/-- Settles O22: of the acts that are left, `act_frame` names ITOA alone as one that may change the display, and ITOA
changes no more of it than the count of draws. -/
theorem displayChangesAtPinEvents : Obligations.DisplayChangesAtPinEvents := by
  intro s t a rest hr hrun htodo hE hR h
  rw [step_act hr hrun htodo] at h
  by_cases hi : ∃ v, a = .itoa v
  · obtain ⟨v, rfl⟩ := hi
    cases h
    exact same_of_regs rfl rfl rfl
  · obtain ⟨h1, h2, h3, -⟩ := display_iff.mp ((act_frame h).display hE hR (not_exists.mp hi))
    exact same_of_regs h1 h2 h3

end Sys2Proof.Machine
end

section
/-! SUPPORT and the settling of O58: the steps of every host operation, carried out whole (R9, R71, R106). -/

namespace Sys2Proof.Machine

/-! ## Stretches that also consume text -/

/-- The acts `acts`, from `s`, lead to `t` whatever follows them, with the bus trace `es` and `n` stream bytes consumed. -/
structure Stretch (acts : List Act) (s t : State) (es : List BusEntry) (n : Nat) : Prop where
  runs : ∀ rest, Runs (s.doing (acts ++ rest)) (t.doing rest)
  did : Did s t es
  SP : t.SP = s.SP + n

theorem Proc.stretch {acts : List Act} {s t : State} {es : List BusEntry} {w : Work} {d : BitVec 4}
    (h : Proc acts s t es w d) : Stretch acts s t es 0 := ⟨h.runs, h.did, h.SP⟩

theorem LoopProc.stretch {acts : List Act} {s t : State} {es : List BusEntry} {d : BitVec 4}
    (h : LoopProc acts s t es d) : Stretch acts s t es 0 := h.choose_spec.1.stretch

theorem Stretch.trans {xs ys : List Act} {s t u : State} {es fs : List BusEntry} {m n : Nat}
    (h1 : Stretch xs s t es m) (h2 : Stretch ys t u fs n) : Stretch (xs ++ ys) s u (es ++ fs) (m + n) :=
  ⟨fun rest => by rw [List.append_assoc]; exact (h1.runs _).trans (h2.runs rest), h1.did.trans h2.did,
    by rw [h2.SP, h1.SP, Nat.add_assoc]⟩

/-- GOTO with any coordinates (R121). -/
theorem stretch_goTo (p c : Byte) {s : State} (h : s.answers (gotoBus s.cfg p c).length) :
    ∃ t, Stretch [.goTo p c] s t (gotoBus s.cfg p c) 0 := by
  cases hv : coordsValid p c with
  | true =>
    obtain ⟨t, p⟩ := proc_goTo_valid hv (s := s) (by rw [gotoBus_valid hv] at h; exact h)
    exact ⟨t, p.stretch⟩
  | false => exact ⟨_, (proc_goTo_invalid hv s).stretch⟩

/-- STRING with its text in the stream (R142). -/
theorem stretch_string (p c : Byte) (text : List Byte) {s : State} (ht : text <+: s.stream.drop s.SP)
    (ha : s.addressed ≠ .both) (h : s.answers (stringBus s.cfg p c.toNat text).length) :
    ∃ t, Stretch [.string p c text.length] s t (stringBus s.cfg p c.toNat text) text.length := by
  set s1 : State := { s with work := { s.work with CUR := c.setWidth 9, STOP := false, TI := 0 } } with hs1
  have hcur : s1.work.CUR.toNat = c.toNat := by simp [hs1]; omega
  have d0 : Did s s1 [] := Did.silent rfl rfl rfl rfl rfl rfl rfl rfl rfl rfl rfl
  obtain ⟨t, q⟩ := wrote_chars p text (s := s1) rfl (by rw [hcur]; exact c.isLt) ha ht (by rw [hcur]; exact h)
  rw [hcur] at q
  exact ⟨t, fun rest => (runs_string s rest p c text.length).trans ((q.runs 0 rest).trans (runs_chars_zero t rest p)),
    d0.trans q.did, q.SP⟩

theorem coordsValid_label : coordsValid labelPage labelCol = true := by decide

/-- WPCT (R146). -/
theorem stretch_wpct (text : List Byte) {s : State} (ht : text <+: s.stream.drop s.SP)
    (h : s.answers (wpctBus s.cfg text).length) :
    ∃ t, Stretch (wpctBody s.cfg text.length) s t (wpctBus s.cfg text) text.length := by
  simp only [wpctBus, List.length_append, List.length_map, List.length_replicate, Nat.add_assoc] at h
  obtain ⟨t1, p1, n1⟩ := loop_goTo coordsValid_label (s := s)
    (by rw [gotoBus_valid coordsValid_label] at h; exact answers_mono h (by simp))
  have a1 := p1.did.answers h
  obtain ⟨t2, p2⟩ := loop_fill 0x00 s.cfg.labelEraseLen.toNat (answers_mono a1 (Nat.le_add_right _ _)) n1
  have q := p1.stretch.trans p2.stretch
  obtain ⟨t3, p3⟩ := stretch_string labelPage labelCol text (s := t2)
    (by rw [q.did.stream, q.SP]; exact ht) (p2.did.notBoth n1)
    (by rw [q.did.cfg]; exact p2.did.answers (by simpa using a1))
  rw [q.did.cfg] at p3
  have r := q.trans p3
  rw [Nat.zero_add] at r
  exact ⟨t3, r⟩

/-! ## Whole operations -/

/-- The chips' registers and display data RAM of `t` are those of `e`. -/
def State.Shows (t e : State) : Prop := t.chip1.regs = e.chip1.regs ∧ t.chip2.regs = e.chip2.regs ∧ t.ram = e.ram

theorem shows_of_display {t e : State} (h : t.display = e.display) : t.Shows e := by
  obtain ⟨h1, h2, h3, -⟩ := display_iff.mp h
  exact ⟨h1, h2, h3⟩

/-- The acts `acts`, from `s`, lead to `t` with the bus trace `es`, `n` stream bytes consumed and one answer taken for each
entry, and the panel shows what the bus trace does to that of `before`. -/
structure Carries (acts : List Act) (s t before : State) (es : List BusEntry) (n : Nat) : Prop where
  runs : ∀ rest, Runs (s.doing (acts ++ rest)) (t.doing rest)
  bus : t.busSince s = es
  shown : t.Shows (displayEffect (s.pins.selected s.cfg) es before)
  SP : t.SP = s.SP + n
  db7 : t.db7 = afterAnswers es.length s.db7

theorem Stretch.carries {acts : List Act} {s t : State} {es : List BusEntry} {n : Nat} (h : Stretch acts s t es n) :
    Carries acts s t s es n := ⟨h.runs, h.did.busSince, shows_of_display h.did.display, h.SP, h.did.db7⟩

/-- ITOA changes no more of the panel than the count of draws (R163). -/
theorem carries_itoa (v : Word) (s : State) : Carries [.itoa v] s (storeDecimal v s) s [] 0 where
  runs rest := runs_itoa s rest v
  bus := (Did.nil s).busSince
  shown := ⟨rfl, rfl, rfl⟩
  SP := rfl
  db7 := rfl

theorem busSince_of_events {s t : State} {es : List PinEvent} (h : t.trace = es.reverse ++ s.trace) :
    t.busSince s = busTrace s.cfg ⟨s.pins, false⟩ es := by
  unfold State.busSince State.eventsSince
  rw [h]
  simp

/-- The pin events of INIT's opening (R160). -/
def openingEvents : List PinEvent :=
  [.pin .RSTN false, .delay .tRst, .pin .RSTN true, .delay .tSettle, .dir true]

/-- The state after INIT's opening (R160): the panel has been reset at the fall and again at the rise of its reset line. -/
def opened (s : State) : State :=
  { s.panelReset.panelReset with
    DIAG := 0, pins := { s.pins with RSTN := true, DBDIR := true }, trace := openingEvents.reverse ++ s.trace }

theorem runs_opening (s : State) (rest : List Act) : Runs (s.doing (initOpening ++ rest)) ((opened s).doing rest) :=
  (runs_clearDiag s _).trans <| (runs_RSTN_fall _ _).trans <| (runs_delay _ _ _).trans <|
    (runs_RSTN_rise _ _ rfl).trans <| (runs_delay _ _ _).trans <| runs_dir _ _ _

theorem busTrace_opening (cfg : Config) (p : Pins) : busTrace cfg ⟨p, false⟩ openingEvents = [] ∧
    scan ⟨p, false⟩ openingEvents = ⟨{ p with RSTN := true, DBDIR := true }, false⟩ := ⟨rfl, rfl⟩

theorem clearBus_length (cfg : Config) : (clearBus cfg).length = 1072 := by
  simp [clearBus, List.length_flatMap, rowBus_length]

theorem initBus_length (cfg : Config) : (initBus cfg).length = 1078 := by simp [initBus, clearBus_length]

theorem barBus_length (cfg : Config) (h : Nat) : (barBus cfg h).length = 536 := by
  rw [barBus, List.length_append, barRowsBus_length _ (barBytes_length _ _), barRowsBus_length _ (by simp)]

/-- INIT (R160). -/
theorem carries_init {s : State} (h : s.answers (initBus s.cfg).length) :
    ∃ t, Carries (initBody s.cfg) s t s.panelReset.panelReset (initBus s.cfg) 0 := by
  obtain ⟨t, p⟩ := loop_init (s := opened s) (initBus_length s.cfg ▸ h)
  obtain ⟨es, htrace, hbus, -⟩ := p.did.events
  refine ⟨t, fun rest => ?_, ?_, ?_, p.stretch.SP, p.did.db7⟩
  · rw [initBody, List.append_assoc]
    exact (runs_opening s _).trans (p.stretch.runs rest)
  · have hall : t.trace = (openingEvents ++ es).reverse ++ s.trace := by
      rw [htrace, List.reverse_append, List.append_assoc]; rfl
    obtain ⟨ho, hs⟩ := busTrace_opening s.cfg s.pins
    rw [busSince_of_events hall, busTrace_append, ho, hs]
    exact hbus
  · exact shows_of_display (p.did.display.trans (displayEffect_congr (s := s.panelReset.panelReset) (u := opened s) rfl rfl
      (initBus s.cfg) (s.pins.selected s.cfg)))

/-- BAR with any height (R148, R149). -/
theorem stretch_bar (hh : Byte) {s : State} (h : s.answers (busOf s.cfg [] (.bar hh)).length) :
    ∃ t, Stretch [.bar hh] s t (busOf s.cfg [] (.bar hh)) 0 := by
  simp only [busOf] at h ⊢
  by_cases hle : hh.toNat ≤ 64
  · rw [if_pos hle] at h ⊢
    obtain ⟨t, p⟩ := loop_bar hle (barBus_length s.cfg hh.toNat ▸ h)
    exact ⟨t, p.stretch⟩
  · rw [if_neg hle]
    exact ⟨_, (Proc.diag fun rest => runs_bar_illegal s rest (Nat.lt_of_not_le hle)).stretch⟩

/-- The panel that the bus trace of an operation acts on: INIT's comes after its panel reset pulse. -/
def panelBefore (i : Instr) (s : State) : State := if i = .init then s.panelReset.panelReset else s

/-- R9, R71: the steps of every host operation, with its text in the stream. -/
theorem carries_actsOf {i : Instr} (hi : i.isHost = true) {text : List Byte} (hl : text.length = i.textLen) {s : State}
    (ht : text <+: s.stream.drop s.SP) (ha : s.addressed ≠ .both) (h : s.answers (busOf s.cfg text i).length) :
    ∃ t, Carries (actsOf s.cfg i) s t (panelBefore i s) (busOf s.cfg text i) text.length := by
  have other : i ≠ .init → ∀ {t : State}, Stretch (actsOf s.cfg i) s t (busOf s.cfg text i) text.length →
      Carries (actsOf s.cfg i) s t (panelBefore i s) (busOf s.cfg text i) text.length := by
    intro hne t p
    rw [panelBefore, if_neg hne]
    exact p.carries
  have empty : i.textLen = 0 → text = [] := fun h0 => List.eq_nil_of_length_eq_zero (hl.trans h0)
  cases i with
  | lcdSetPage _ | lcdSetCol _ | lcdDisplayOn | lcdStartLine _ => cases hi
  | wstr p c len =>
    have hlen : len.toNat = text.length := hl.symm
    obtain ⟨t, q⟩ := stretch_string p c text ht ha h
    exact ⟨t, other nofun (by rw [actsOf, hlen]; exact q)⟩
  | wpct len =>
    have hlen : len.toNat = text.length := hl.symm
    obtain ⟨t, q⟩ := stretch_wpct text ht h
    exact ⟨t, other nofun (by rw [actsOf, hlen]; exact q)⟩
  | init => rw [empty rfl]; exact carries_init h
  | itoa v => rw [empty rfl]; exact ⟨_, carries_itoa v s⟩
  | clear =>
    obtain rfl := empty rfl
    obtain ⟨t, p⟩ := loop_clear (clearBus_length s.cfg ▸ h)
    exact ⟨t, other nofun p.stretch⟩
  | goto p c =>
    obtain rfl := empty rfl
    obtain ⟨t, p⟩ := stretch_goTo p c h
    exact ⟨t, other nofun p⟩
  | wchar p c ch =>
    obtain rfl := empty rfl
    obtain ⟨t, p⟩ := proc_wchar (p := p) (c := c) (ch := ch) h (.inr ha)
    exact ⟨t, other nofun p.stretch⟩
  | bar hh =>
    obtain rfl := empty rfl
    obtain ⟨t, p⟩ := stretch_bar hh h
    exact ⟨t, other nofun p⟩
  | selchip id => obtain rfl := empty rfl; exact ⟨_, other nofun (proc_selChip id h).stretch⟩
  | wcmd b => obtain rfl := empty rfl; exact ⟨_, other nofun (proc_wcmd b h ha).stretch⟩
  | wdata b => obtain rfl := empty rfl; exact ⟨_, other nofun (proc_wdata b h ha).stretch⟩
  | reserved op =>
    obtain rfl := empty rfl
    exact ⟨_, other nofun (Proc.diag fun rest => runs_badCmd s rest).stretch⟩

/-! ## From acceptance to the end -/

theorem finish_not_mem_actsOf (cfg : Config) (i : Instr) : Act.finish ∉ actsOf cfg i := by
  cases i <;> simp [actsOf, initBody, initOpening, initChip, wpctBody]

/-- An operation that has been accepted in `s` and whose steps are carried out ends in `t.ended`. -/
theorem Carries.stepsTo {i : Instr} {s t before : State} {opcode : Byte} {m n : Nat} {lat : Latches} {es : List BusEntry}
    (h : Carries (actsOf s.cfg i) (s.taken opcode m lat) t before es n) (hr : s.rst_n = true) :
    (s.accept opcode m lat (actsOf s.cfg i)).stepsTo t.ended :=
  stepsTo_ended h.runs (finish_not_mem_actsOf s.cfg i) hr

/-- Settles O58: the operation is accepted, its steps are carried out, and the acceptance itself touches neither pins nor
panel. -/
theorem everyOperationFollowsItsBusTrace : Obligations.EveryOperationFollowsItsBusTrace := by
  intro i text s hr hi hl ht ha h before effect
  set s1 := s.taken ((encode s.cfg i).headD 0) (encode s.cfg i).length (latched s.lat i)
  obtain ⟨t, c⟩ := carries_actsOf hi hl (s := s1) ht ha h
  have hbefore : (panelBefore i s1).display = before.display ∧ (panelBefore i s1).cfg = before.cfg := by
    simp only [panelBefore, before]
    split <;> exact ⟨rfl, rfl⟩
  have heffect := displayEffect_congr hbefore.1 hbefore.2 (busOf s.cfg text i) (s.pins.selected s.cfg)
  obtain ⟨g1, g2, g3⟩ := shows_of_display heffect
  obtain ⟨h1, h2, h3⟩ := c.shown
  exact ⟨_, t.ended, exec_host hi s, c.stepsTo hr, rfl, rfl, c.SP, c.bus, h1.trans g1, h2.trans g2, h3.trans g3⟩

end Sys2Proof.Machine
end

section
/-! SUPPORT and the settling of O10, O12, O13, O15, O19 and O20: what the one step function does, case by case (R30, R32,
R70, R71), and what every step keeps. -/

namespace Sys2Proof.Machine

/-! ## What a step does -/

/-- While the reset input is low a step is a hardware reset (R30). -/
theorem step_reset {s : State} (hr : s.rst_n = false) : step s = .next (hardReset s) := by simp [step, hr]

/-- An idle machine's step is `fetchStep`: it accepts an operation or waits for one (R71). -/
theorem step_idle {s : State} (hr : s.rst_n = true) (hrun : s.RUN = false) : step s = fetchStep s := by
  simp [step, hr, hrun]

/-- While an operation runs, a step with nothing left to do ends it. -/
theorem step_ended {s : State} (hr : s.rst_n = true) (hrun : s.RUN = true) (htodo : s.todo = []) :
    step s = .next { s with RUN := false } := by
  simp [step, tick, hr, hrun, htodo]

/-- The next states of a step: one constructor for each thing a step can do. -/
inductive Stepped (s : State) : State → Prop
  | reset (hr : s.rst_n = false) : Stepped s (hardReset s)
  | acted {a : Act} {rest : List Act} {t : State} (hr : s.rst_n = true) (hrun : s.RUN = true)
      (htodo : s.todo = a :: rest) (h : act a (s.doing rest) = .next t) : Stepped s t
  | ended (hr : s.rst_n = true) (hrun : s.RUN = true) (htodo : s.todo = []) : Stepped s { s with RUN := false }
  | waited (hr : s.rst_n = true) (hrun : s.RUN = false) : Stepped s s
  | accepted (hr : s.rst_n = true) (hrun : s.RUN = false) (i : Instr) : Stepped s (s.accepted i)
  | begun (hr : s.rst_n = true) (hrun : s.RUN = false) (opcode : Byte) : Stepped s (s.acceptPartial opcode)

theorem stepped_of_step {s t : State} (h : step s = .next t) : Stepped s t := by
  cases hr : s.rst_n with
  | false =>
    rw [step_reset hr] at h
    cases h
    exact .reset hr
  | true =>
    cases hrun : s.RUN with
    | true =>
      cases htodo : s.todo with
      | nil =>
        rw [step_ended hr hrun htodo] at h
        cases h
        exact .ended hr hrun htodo
      | cons a rest => exact .acted hr hrun htodo (step_act hr hrun htodo ▸ h)
    | false =>
      rw [step_idle hr hrun] at h
      obtain rfl | ⟨i, rfl⟩ | ⟨opcode, rfl⟩ := fetchStep_cases h
      · exact .waited hr hrun
      · exact .accepted hr hrun i
      · exact .begun hr hrun opcode

/-! ## Parameters and stream -/

/-- Settles O19: a hardware reset keeps the parameters and the reset input, and every other step is one whose frame is
known. -/
theorem parametersAndStreamNotWritten : Obligations.ParametersAndStreamNotWritten := by
  intro s t h
  cases stepped_of_step h with
  | reset hr =>
    obtain ⟨hcfg, hrst, -⟩ := hardReset_keeps s
    exact ⟨hcfg, hrst, fun hhigh => by simp [hr] at hhigh⟩
  | acted _ _ _ h =>
    have frame := act_frame h
    exact ⟨frame.cfg, frame.rst_n, fun _ => ⟨frame.stream, frame.SP⟩⟩
  | ended | waited => exact ⟨rfl, rfl, fun _ => ⟨rfl, Nat.le_refl _⟩⟩
  | accepted | begun => exact ⟨rfl, rfl, fun _ => ⟨rfl, Nat.le_add_right _ _⟩⟩

/-! ## DIAG -/

theorem getLsbD_of_and_eq {d e : BitVec 4} (h : d &&& e = d) {n : Nat} (hn : d.getLsbD n = true) : e.getLsbD n = true := by
  rw [← h, BitVec.getLsbD_and, Bool.and_eq_true] at hn
  exact hn.2

/-- A step other than a hardware reset keeps every set bit of DIAG, unless it does the act that clears the register. -/
theorem Stepped.diag_sticky {s t : State} (h : Stepped s t) (hr : s.rst_n = true) (hc : s.todo.head? ≠ some .clearDiag) :
    s.DIAG &&& t.DIAG = s.DIAG := by
  cases h with
  | reset hlow => simp [hr] at hlow
  | acted _ _ htodo h => exact (act_frame h).DIAG fun ha => hc (by rw [htodo, ha]; rfl)
  | ended | waited | accepted | begun => exact BitVec.and_self

/-- INIT alone of all operations has the act that clears DIAG among its own (R160). -/
theorem init_of_clearDiag_mem {cfg : Config} {i : Instr} (h : Act.clearDiag ∈ actsOf cfg i) : i = .init := by
  cases i with
  | init => rfl
  | _ => simp [actsOf, wpctBody] at h

/-- A step puts the clearing of DIAG among what is left to do only by accepting INIT, or by the dispatch of INIT. -/
theorem Stepped.clearDiag_added {s t : State} (h : Stepped s t) (hs : Act.clearDiag ∉ s.todo)
    (ht : Act.clearDiag ∈ t.todo) : t.lat.OPC = 0x01 := by
  cases h with
  | reset => exact absurd ht List.not_mem_nil
  | ended | waited => exact absurd ht hs
  | accepted _ _ i =>
    have hi : Act.clearDiag ∈ actsOf s.cfg i := by simpa [State.accepted] using ht
    rw [init_of_clearDiag_mem hi]
    rfl
  | begun => simp [State.acceptPartial] at ht
  | acted _ _ htodo h =>
    obtain ⟨body, hbody, -, hclear⟩ := (act_frame h).todo
    have hrest := fun hm => hs (htodo ▸ List.mem_cons_of_mem _ hm)
    obtain ⟨rfl, hopc⟩ := hclear ((List.mem_append.mp (hbody ▸ ht)).resolve_right hrest)
    cases h
    exact hopc

/-- Settles O20, bit by bit from `Stepped.diag_sticky`, and from `Stepped.clearDiag_added`. -/
theorem diagIsSticky : Obligations.DiagIsSticky := fun _ _ hr h =>
  ⟨fun _ hc hn => getLsbD_of_and_eq ((stepped_of_step h).diag_sticky hr hc) hn, (stepped_of_step h).clearDiag_added⟩

/-! ## Waiting for the host -/

/-- An idle sequencer with no byte at SP waits (R32). -/
theorem fetchStep_waits {s : State} (h : s.nextByte = none) : fetchStep s = .next s := by
  have hdrop : s.stream.drop s.SP = [] := List.drop_eq_nil_of_le (List.getElem?_eq_none_iff.mp h)
  simp [fetchStep, hdrop, decode]

/-- `Next()` with no byte at SP leaves the fetch to be done again, and nothing else (R70). -/
theorem withNext_waits {wait : Act} {rest : List Act} {s : State} (htodo : s.todo = wait :: rest) (h : s.nextByte = none)
    (use : Byte → State → Out) : withNext wait (s.doing rest) use = .next s := by
  have hd : (s.doing rest).nextByte = none := h
  have hcall : (s.doing rest).call [wait] = s.doing s.todo := by rw [htodo]; rfl
  simp only [withNext, hd, hcall, doing_self]

/-- Settles O10: the idle sequencer waits for an opcode, and both fetches wait in `Next()`. -/
theorem stepWaitsForTheHost : Obligations.StepWaitsForTheHost := by
  intro s hr hb
  refine ⟨fun hrun => ?_, fun o rest hrun htodo => ?_, fun page n rest hrun htodo => ?_⟩
  · rw [step_idle hr hrun]; exact fetchStep_waits hb
  · rw [step_act hr hrun htodo]; exact withNext_waits htodo hb fun b s => .next { s with lat := s.lat.put o b }
  · rw [step_act hr hrun htodo]; exact withNext_waits htodo hb fun b s => .next (placeChar page n b s)

/-! ## Reset -/

/-- A hardware reset with E low and the panel reset line released leaves the panel as it is (R190). -/
theorem hardReset_quiet {s : State} (he : s.pins.E = false) (hp : s.pins.RSTN = true) :
    s.SameChip (hardReset s) .chip1 ∧ s.SameChip (hardReset s) .chip2 ∧ s.SameBytes (hardReset s) := by
  obtain ⟨hchip, hram⟩ := hardReset_panel hp
  rw [resetRace_quiet he] at hchip hram
  exact same_of_regs (congrArg Chip.regs (hchip .chip1)) (congrArg Chip.regs (hchip .chip2)) hram

theorem hardReset_pins (s : State) : (hardReset s).pins = Pins.reset s.cfg :=
  (hardReset_keeps s).1 ▸ (rfl : (hardReset s).pins = Pins.reset (hardReset s).cfg)

/-- Settles O13: the registers R30 names are set outright, and the rest is what `hardReset` keeps. -/
theorem hardwareReset : Obligations.HardwareReset := by
  intro s hr
  obtain ⟨hcfg, hrst, -⟩ := hardReset_keeps s
  exact ⟨hardReset s, step_reset hr, hardReset_pins s, rfl, rfl, rfl, rfl, rfl, rfl, rfl, hcfg, hrst.trans hr,
    hardReset_quiet⟩

/-- Settles O12: these are the fields of `State.reset`. -/
theorem resetValues : Obligations.ResetValues := ⟨rfl, rfl, rfl, rfl, rfl, rfl, rfl, rfl⟩

theorem reset_inv : State.reset.Inv where
  pulse := by decide
  exclusive := by decide
  flow := rfl
  ramWf := rfl
  running h := nomatch h
  idle _ := ⟨rfl, rfl⟩

theorem reset_traceInv : State.reset.TraceInv where
  history := rfl
  discipline := rfl

/-- Settles O15: the reset state is idle, with nothing selected and no pin event yet. -/
theorem invariantsAtReset : Obligations.InvariantsAtReset := ⟨reset_inv, reset_traceInv⟩

end Sys2Proof.Machine
end

section
/-! SUPPORT and the settling of O16: each thing a step can do keeps the invariant (R45, R100, R105, R201, R202). -/

namespace Sys2Proof.Machine

/-- A hardware reset establishes the invariant, but for what the parameters and display data RAM bring with them (R30). -/
theorem hardReset_inv {s : State} (hi : s.Inv) : (hardReset s).Inv := by
  obtain ⟨hcfg, -, -, -, -, hram⟩ := hardReset_keeps s
  refine ⟨hcfg ▸ hi.pulse, ?_, rfl, hram hi.ramWf, nofun, fun _ => ⟨rfl, rfl⟩⟩
  have hpins : (hardReset s).pins = Pins.reset (hardReset s).cfg := rfl
  simp [State.addressed, hpins, Pins.reset, addressedBy]

/-- The act that ends an operation leaves the machine idle with the bus at rest (R13, R71, R100). -/
theorem finish_inv {s : State} (hi : s.Inv) (htodo : s.todo = [.finish]) :
    State.Inv { s with RUN := false, todo := [] } := by
  have hrest : s.known.rest = true := by
    obtain ⟨k, hk⟩ := Option.isSome_iff_exists.mp (htodo ▸ hi.flow)
    obtain ⟨j, hj, -⟩ := Option.bind_eq_some_iff.mp hk
    exact (of_ite_some hj).1
  exact ⟨hi.pulse, hi.exclusive, rfl, hi.ramWf, nofun, fun _ => ⟨rfl, hrest⟩⟩

/-- An act of the operation in progress keeps the invariant: `act_flow` for the bus discipline, `act_frame` for the rest. -/
theorem act_inv {a : Act} {rest : List Act} {s t : State} (hi : s.Inv) (hrun : s.RUN = true) (htodo : s.todo = a :: rest)
    (h : act a (s.doing rest) = .next t) : t.Inv := by
  obtain ⟨l, hl, hfin⟩ := hi.running hrun
  rw [htodo] at hl
  cases l with
  | nil =>
    cases hl
    cases h
    exact finish_inv (s := s) hi htodo
  | cons b l =>
    cases hl
    have frame := act_frame h
    obtain ⟨body, hbody, hnone, -⟩ := frame.todo
    obtain ⟨u, hu, hexcl, hflow⟩ := act_flow hi.pulse hi.exclusive (htodo ▸ hi.flow)
    obtain rfl : t = u := by rw [h] at hu; cases hu; rfl
    have hrun' : t.RUN = true := (frame.RUN fun ha => hfin (ha ▸ List.mem_cons_self)).trans hrun
    refine ⟨frame.cfg ▸ hi.pulse, hexcl, hflow, frame.ramWf hi.ramWf, fun _ => ⟨body ++ l, ?_, ?_⟩, ?_⟩
    · rw [hbody, List.append_assoc]; rfl
    · simpa [hnone] using fun hm => hfin (List.mem_cons_of_mem a hm)
    · rw [hrun']; exact nofun

/-- From rest, the steps of a host operation and its end keep the bus discipline. -/
theorem flows_accepted {s : State} (hi : s.Inv) (hrest : s.known.rest = true) (i : Instr) :
    (flows s.cfg.csActive (actsOf s.cfg i ++ [.finish]) s.known).isSome := by
  obtain ⟨k, hk, hle⟩ := flows_actsOf s.cfg i (active := s.cfg.csActive) (known_one hi.exclusive) (if_pos hrest)
  have hrest' : k.rest = true := hle.rest.trans hrest
  simp [flows_append, hk, flows, Act.flow, hrest']

/-- The acceptance of an operation keeps the invariant (R71). -/
theorem accepted_inv {s : State} (hi : s.Inv) (hrun : s.RUN = false) (i : Instr) : (s.accepted i).Inv :=
  ⟨hi.pulse, hi.exclusive, flows_accepted hi (hi.idle hrun).2 i, hi.ramWf,
    fun _ => ⟨actsOf s.cfg i, rfl, finish_not_mem_actsOf s.cfg i⟩, nofun⟩

/-- The acceptance of an operation whose operands are still to come keeps the invariant (R71). -/
theorem acceptPartial_inv {s : State} (hi : s.Inv) (hrun : s.RUN = false) (opcode : Byte) :
    (s.acceptPartial opcode).Inv := by
  have hrestful : (s.acceptPartial opcode).todo.all Act.restful = true := by
    simp [State.acceptPartial, Act.restful]
  obtain ⟨k, hk, -⟩ := restful_flows hrestful s.cfg.csActive (hi.idle hrun).2 (known_one hi.exclusive)
  refine ⟨hi.pulse, hi.exclusive, Option.isSome_iff_exists.mpr ⟨k, hk⟩, hi.ramWf, fun _ =>
    ⟨(operandsOf opcode).map .fetch ++ [.dispatch], ?_, ?_⟩, nofun⟩
  · simp [State.acceptPartial]
  · simp

/-- Settles O16, by cases on what a step can do. -/
theorem stepKeepsInvariant : Obligations.StepKeepsInvariant := by
  intro s t hi h
  cases stepped_of_step h with
  | reset => exact hardReset_inv hi
  | acted _ hrun htodo h => exact act_inv hi hrun htodo h
  | ended _ hrun htodo =>
    obtain ⟨l, hl, -⟩ := hi.running hrun
    rw [htodo] at hl
    cases l <;> cases hl
  | waited => exact hi
  | accepted _ hrun i => exact accepted_inv hi hrun i
  | begun _ hrun opcode => exact acceptPartial_inv hi hrun opcode

end Sys2Proof.Machine
end

section
/-! The settling of O9, O34 and O35: what an addressed chip does with a command (R46, R47), and when it does nothing. -/

namespace Sys2Proof.Machine

/-- Settles O9: the fall of E ends a write pulse, and with RS low the byte on the bus is decoded and carried out. -/
theorem stepRunsCommand : Obligations.StepRunsCommand := by
  intro s c rest hr hrun htodo hE hRW hDIR hRS hc
  have hpulse : s.pins.writePulse = true := by simp [Pins.writePulse, hE, hRW, hDIR]
  set t : State := { s with todo := rest, pins := { s.pins with E := false }, trace := .pin .E false :: s.trace }
  calc step s = act (.pin .E false) (s.doing rest) := step_act hr hrun htodo
    _ = latchByte t := by simp [act, drivePin, hpulse]; rfl
    _ = latchCommand s.pins.DBOUT t := if_neg (by simp [t, hRS])
    _ = execCommand c t := by simp [latchCommand, t, hc]
    _ = exec c.toInstr t := by cases c <;> rfl

/-- A controller command is what the addressed chip makes of it, for a function of the chip that the command fixes. -/
theorem exec_command (c : Command) : ∃ f, ∀ s, exec c.toInstr s = s.forAddressed f := by
  cases c <;> exact ⟨_, fun _ => rfl⟩

/-- Settles O34: the one addressed chip carries the command out. -/
theorem commandsSetOneRegister : Obligations.CommandsSetOneRegister := by
  intro k s hp ha
  have one : ∀ f, s.forAddressed f = .next (f k s) := fun f => by simp [State.forAddressed, ha, hp]
  exact ⟨fun page => one (setPageOn page), fun lcol => one (setColOn lcol), one displayOnOn, fun line => one (startLineOn line)⟩

/-- Settles O35: the three branches of `forAddressed` in which no chip acts. -/
theorem commandsNeedOneChip : Obligations.CommandsNeedOneChip := by
  intro c s
  obtain ⟨f, hf⟩ := exec_command c
  rw [hf s]
  refine ⟨fun ha => ?_, fun ha => ?_, fun k ha hp => ?_⟩
  · simp [State.forAddressed, ha]
  · simp [State.forAddressed, ha]
  · simp [State.forAddressed, ha, hp]

end Sys2Proof.Machine
end

section
/-! The settling of O21 and O33: a sample of DB7 (R49, R82, R200), and the poll around it (R101, R174). -/

namespace Sys2Proof.Machine

/-- A sample by a chip that may answer: the level is sensed, and the end of the poll is put before what is left. -/
theorem readDB7_next {s : State} (hd : s.pins.DBDIR = false) (ha : s.addressed ≠ .both)
    (hp : s.addressed = .nobody ∨ s.cfg.pulseValid = true) :
    readDB7 s = .next ((sense s.busLevel s).call (afterSample s.busLevel)) := by
  have hok : ¬ (s.addressed ≠ .nobody ∧ s.cfg.pulseValid = false) := by
    rintro ⟨h1, h2⟩
    rcases hp with h | h
    · exact h1 h
    · simp [h] at h2
  unfold readDB7
  rw [if_neg (by simp [hd]), if_neg ha, if_neg hok]

/-- R49: in a status read the level sampled is the busy flag of the one chip addressed, and no other register of any chip
changes. -/
theorem sense_chip {s : State} (hs : s.pins.statusRead = true) (b : Bool) (k : ChipId) :
    (sense b s).chip k = if s.addressed = .one k then { s.chip k with BUSY := b } else s.chip k := by
  by_cases h : s.addressed = .one k
  · cases k <;> simp [sense, State.record, State.chip, Chip.sampled, hs, h]
  · cases k <;> simp [sense, State.record, State.chip, Chip.sampled, hs, h]

theorem sense_level (b : Bool) (s : State) : (sense b s).DBIN.getLsbD 7 = b := by
  show (BitVec.ofBool b ++ Config.drawLow s.sampled).getLsbD 7 = b
  rw [BitVec.getLsbD_append]
  simp

/-- Settles O21, one branch of `readDB7` for each clause. -/
theorem sampleReadsBusyFlag : Obligations.SampleReadsBusyFlag := by
  intro s b l rest hr hrun htodo hdb hE hRW hRS
  rw [step_act hr hrun htodo]
  have hlevel : (s.doing rest).busLevel = b := by simp [State.busLevel, hdb]
  refine ⟨fun hd => ?_, fun hd ha hp => ?_, fun k hd ha hp => ?_⟩
  · exact if_pos hd
  · have hstatus : (s.doing rest).pins.statusRead = true := by simp [Pins.statusRead, hE, hRW, hRS, hd]
    have hchip := sense_chip hstatus b
    refine ⟨_, readDB7_next hd ha hp, ?_⟩
    rw [hlevel]
    refine ⟨?_, rfl, ?_, rfl, rfl, rfl, rfl, fun k hk => ?_, fun k hk => ?_⟩
    · exact sense_level b _
    · simp [sense, State.call, State.record, hdb]
    · exact (hchip k).trans (by simp [hk])
    · exact (hchip k).trans (by simp [hk])
  · simp [act, readDB7, hd, ha, hp]

/-- One act at the head of a counted run. -/
theorem stepN_act {s t : State} {a : Act} {rest : List Act} (n : Nat) (hr : s.rst_n = true) (hrun : s.RUN = true)
    (htodo : s.todo = a :: rest) (h : act a (s.doing rest) = .next t) : stepN (n + 1) s = stepN n t := by
  simp [stepN, step_act hr hrun htodo, h]

/-- R101: a poll is five steps, the call and its four events. -/
theorem stepN_pollOnce {s : State} {rest : List Act} {b : Bool} {l : List Bool} (hr : s.rst_n = true)
    (hrun : s.RUN = true) (htodo : s.todo = .poll :: rest) (hdb : s.db7 = b :: l) (hp : s.cfg.pulseValid = true)
    (hd : s.pins.DBDIR = false) (ha : s.addressed ≠ .both) :
    stepN 5 s = .next ((pollOnce b s).doing ((if b then [Act.poll] else []) ++ rest)) := by
  set s1 := (s.line .E true).record (.delay .tE) with hs1
  have hlevel : (s1.doing rest).busLevel = b := by simp [hs1, State.busLevel, State.line, hdb]
  have hsample : act .rd7 (s1.doing rest) = .next ((sense b s1).doing (afterSample b ++ rest)) := by
    refine (readDB7_next (s := s1.doing rest) hd ha (.inr hp)).trans ?_
    rw [hlevel]; rfl
  have hfall : ∀ rest, act (.pin .E false) ((sense b s1).doing rest) = .next ((pollOnce b s).doing rest) := by
    intro rest
    have hpulse : ((sense b s1).doing rest).pins.writePulse = false := by
      have hd1 : ((sense b s1).doing rest).pins.DBDIR = false := hd
      rw [Pins.writePulse, hd1, Bool.and_false]
    simp only [act, drivePin, hpulse]; rfl
  calc stepN 5 s
    _ = stepN 4 (s.doing (.pin .E true :: .delay .tE :: .rd7 :: rest)) := stepN_act 4 hr hrun htodo rfl
    _ = stepN 3 ((s.line .E true).doing (.delay .tE :: .rd7 :: rest)) := stepN_act 3 hr hrun rfl rfl
    _ = stepN 2 (s1.doing (.rd7 :: rest)) := stepN_act 2 hr hrun rfl rfl
    _ = stepN 1 ((sense b s1).doing (.pin .E false :: ((if b then [Act.poll] else []) ++ rest))) :=
      stepN_act 1 hr hrun rfl hsample
    _ = .next ((pollOnce b s).doing ((if b then [Act.poll] else []) ++ rest)) := stepN_act 0 hr hrun rfl (hfall _)

theorem eventsSince_of_trace {s t : State} {es : List PinEvent} (h : t.trace = es.reverse ++ s.trace) :
    t.eventsSince s = es := by
  unfold State.eventsSince
  rw [h]
  simp

/-- Settles O33: `stepN_pollOnce` with the level 1, after which the poll stands again before what was left. -/
theorem pollRepeats : Obligations.PollRepeats := by
  intro s rest l hr hp hrun htodo hdb hd hRW hRS ha
  refine ⟨_, stepN_pollOnce hr hrun htodo hdb hp hd ha, rfl, ?_⟩
  rw [pollOnce_eq hd hRW hRS]
  refine ⟨?_, ?_, hrun, rfl, rfl, rfl, same_of_regs rfl rfl rfl⟩
  · simp [hdb]
  · exact eventsSince_of_trace (es := pollEvents true) rfl

end Sys2Proof.Machine
end

section
/-! The settling of O36 and O60: logical columns (R42, R120) and pixels (R41). -/

namespace Sys2Proof.Machine

theorem chipOf_left {c : Byte} (h : c.toNat < 64) : chipOf c = .chip1 ∧ (lcolOf c).toNat = c.toNat := by
  have hlt : c.toNat < seam := h
  refine ⟨if_pos hlt, ?_⟩
  rw [lcolOf, if_pos hlt, BitVec.toNat_setWidth]
  omega

theorem chipOf_right {c : Byte} (h : 64 ≤ c.toNat) (h2 : c.toNat < 128) :
    chipOf c = .chip2 ∧ (lcolOf c).toNat = c.toNat - 64 := by
  have hne : ¬ c.toNat < seam := Nat.not_lt.mpr h
  refine ⟨if_neg hne, ?_⟩
  rw [lcolOf, if_neg hne, BitVec.toNat_setWidth, BitVec.toNat_sub]
  show (2 ^ 8 - 64 + c.toNat) % 2 ^ 8 % 2 ^ 6 = c.toNat - 64
  omega

/-- R42: a logical column is `64 (chip - 1) + lcol`. -/
theorem column_eq {c : Byte} (h : c.toNat < 128) : c.toNat = 64 * (chipOf c).index + (lcolOf c).toNat := by
  rcases Nat.lt_or_ge c.toNat 64 with h1 | h1
  · obtain ⟨hk, hl⟩ := chipOf_left h1
    rw [hk, hl]; simp [ChipId.index]
  · obtain ⟨hk, hl⟩ := chipOf_right h1 h
    rw [hk, hl]; simp only [ChipId.index]; omega

/-- The logical column of a chip and a local column (R42). -/
def columnOf (k : ChipId) (l : BitVec 6) : Byte := BitVec.ofNat 8 (64 * k.index + l.toNat)

theorem columnOf_toNat (k : ChipId) (l : BitVec 6) : (columnOf k l).toNat = 64 * k.index + l.toNat := by
  have hl := l.isLt
  cases k <;> simp only [columnOf, ChipId.index, BitVec.toNat_ofNat] <;> omega

theorem columnOf_lt (k : ChipId) (l : BitVec 6) : (columnOf k l).toNat < 128 := by
  have hl := l.isLt
  rw [columnOf_toNat]
  cases k <;> simp only [ChipId.index] <;> omega

theorem index_inj {k j : ChipId} : k.index = j.index ↔ k = j := by cases k <;> cases j <;> simp [ChipId.index]

/-- Of a chip index and a local column, their logical column tells both. -/
theorem split_column {k j : ChipId} {l m : BitVec 6} (h : 64 * k.index + l.toNat = 64 * j.index + m.toNat) :
    k = j ∧ l = m := by
  have hl := l.isLt
  have hm := m.isLt
  exact ⟨index_inj.mp (by omega), BitVec.eq_of_toNat_eq (by omega)⟩

/-- Settles O36: `columnOf` is the inverse of the translation. -/
theorem columnMapping : Obligations.ColumnMapping := by
  refine ⟨fun c h => column_eq h, fun k l => ⟨columnOf k l, ⟨columnOf_lt k l, ?_⟩, ?_⟩⟩
  · exact split_column ((column_eq (columnOf_lt k l)).symm.trans (columnOf_toNat k l))
  · rintro c ⟨hc, rfl, rfl⟩
    exact BitVec.eq_of_toNat_eq ((column_eq hc).trans (columnOf_toNat _ _).symm)

/-- Settles O60: the row and the column of the pixel name its byte's page, chip and local column back. -/
theorem pixelLayout : Obligations.PixelLayout := by
  intro s k page lcol i hi
  have hp := page.isLt
  have hl := lcol.isLt
  have hrow : (BitVec.ofNat 6 (8 * page.toNat + i)).toNat = 8 * page.toNat + i := by
    rw [BitVec.toNat_ofNat]; omega
  have hpage : BitVec.ofNat 3 ((8 * page.toNat + i) / pageH) = page := by
    apply BitVec.eq_of_toNat_eq
    rw [BitVec.toNat_ofNat, pageH]; omega
  have hbit : (8 * page.toNat + i) % pageH = i := by rw [pageH]; omega
  have hcol : (BitVec.ofNat 7 (64 * k.index + lcol.toNat)).toNat = 64 * k.index + lcol.toNat := by
    cases k <;> simp only [ChipId.index, BitVec.toNat_ofNat] <;> omega
  have hchip : (if (64 * k.index + lcol.toNat) < seam then ChipId.chip1 else ChipId.chip2) = k := by
    cases k <;> simp [ChipId.index, seam, hl]
  have hlcol : (BitVec.ofNat 7 (64 * k.index + lcol.toNat)).setWidth 6 = lcol := by
    apply BitVec.eq_of_toNat_eq
    rw [BitVec.toNat_setWidth, hcol]; omega
  unfold State.pixel
  simp only [hrow, hcol, hpage, hbit, hchip, hlcol]

end Sys2Proof.Machine
end

section
/-! SUPPORT and the settling of O27 to O31: WCMD and WDATA from their acceptance to their end (R103, R104), and what the
display effect of their one bus-trace entry is on the chip addressed (R46 to R48). -/

namespace Sys2Proof.Machine

/-! ## The operations -/

/-- WCMD completes (R103). -/
theorem exec_wcmd_performed (b : Byte) {s : State} (hr : s.rst_n = true) (h : s.answers 1) (ha : s.addressed ≠ .both) :
    ∃ u t, exec (.wcmd b) s = .next u ∧ u.stepsTo t ∧ s.Performed t 0x11 2 [.cmd b] ∧
      t.lat = { s.lat with OPC := 0x11, BY := b } ∧ t.work = { s.work with SAMP := false } ∧ t.DIAG = s.DIAG :=
  ⟨_, _, rfl, (proc_wcmd b (s := s.taken 0x11 2 { s.lat with BY := b }) h ha).exec (by simp) hr⟩

/-- WDATA completes (R104). -/
theorem exec_wdata_performed (b : Byte) {s : State} (hr : s.rst_n = true) (h : s.answers 1) (ha : s.addressed ≠ .both) :
    ∃ u t, exec (.wdata b) s = .next u ∧ u.stepsTo t ∧ s.Performed t 0x12 2 [.data b] ∧
      t.lat = { s.lat with OPC := 0x12, BY := b } ∧ t.work = { s.work with SAMP := false } ∧ t.DIAG = s.DIAG :=
  ⟨_, _, rfl, (proc_wdata b (s := s.taken 0x12 2 { s.lat with BY := b }) h ha).exec (by simp) hr⟩

/-! ## Which chip receives, and what a display shows of it -/

/-- The chip that the lines select is the one addressed (R45). -/
theorem selected_iff {s : State} {k : ChipId} : s.pins.selected s.cfg = some k ↔ s.addressed = .one k := by
  unfold State.addressed addressedBy Pins.selected Pins.selects
  cases s.pins.CS1 == s.cfg.csActive <;> cases s.pins.CS2 == s.cfg.csActive <;> simp

theorem selected_of_nobody {s : State} (h : s.addressed = .nobody) : s.pins.selected s.cfg = none :=
  Option.eq_none_iff_forall_ne_some.mpr fun k hk => by simp [selected_iff.mp hk] at h

theorem one_ne_both {s : State} {k : ChipId} (h : s.addressed = .one k) : s.addressed ≠ .both := by simp [h]

theorem ddram_of_display {s u : State} (h : u.display = s.display) (k : ChipId) (p : BitVec 3) (l : BitVec 6) :
    u.ddram k p l = s.ddram k p l := by
  obtain ⟨-, -, hram, -⟩ := display_iff.mp h
  unfold State.ddram
  rw [hram]

/-- The one chip addressed has taken the command byte. -/
theorem State.Performed.display_cmd {s t : State} {opcode b : Byte} {n : Nat} {k : ChipId}
    (h : s.Performed t opcode n [.cmd b]) (ha : s.addressed = .one k) : t.display = (commandOn b k s).display := by
  have hd := h.display
  rw [selected_iff.mpr ha] at hd
  exact hd

/-- The one chip addressed has taken the data byte. -/
theorem State.Performed.display_data {s t : State} {opcode b : Byte} {n : Nat} {k : ChipId}
    (h : s.Performed t opcode n [.data b]) (ha : s.addressed = .one k) : t.display = (dataOn b k s).display := by
  have hd := h.display
  rw [selected_iff.mpr ha] at hd
  exact hd

/-! ## Command bytes -/

/-- R47: the registers of a chip after a command. -/
def commandChip (c : Command) (r : Chip) : Chip :=
  match c with
  | .setPage p => { r with X := p }
  | .setCol l => { r with Y := some l }
  | .startLine z => { r with Z := z }
  | .displayOn => { r with ON := true }

theorem commandOn_decoded {b : Byte} {c : Command} {s : State} (h : decodeCommand s.cfg b = some c) (k : ChipId) :
    commandOn b k s = s.setChip k (commandChip c (s.chip k)) := by
  unfold commandOn
  rw [h]
  cases c <;> rfl

/-- Settles O27: a command byte is one write of the addressed chip's registers. -/
theorem wcmdCommands : Obligations.WcmdCommands := by
  intro b c k s hr h ha hc
  obtain ⟨u, t, he, hst, hp, hlat, hwork, hdiag⟩ := exec_wcmd_performed b hr h (one_ne_both ha)
  have hd := hp.display_cmd ha
  rw [commandOn_decoded hc] at hd
  refine ⟨u, t, he, hst, hp, hlat, hwork, hdiag, fun j p l => ?_, fun j hj => ?_, ?_⟩
  · rw [ddram_of_display hd, ddram_setChip]
  · rw [State.SameChip, regs_chip hd, setChip_chip_other _ hj.symm]
  · rw [regs_chip hd, setChip_chip_same]
    cases c <;> rfl

/-- U8: what a byte that is no command leaves alone. -/
theorem commandOn_unknown {b : Byte} {k j : ChipId} {s : State} (h : decodeCommand s.cfg b = none) (hj : j ≠ k) :
    (commandOn b k s).chip j = s.chip j ∧ ∀ p l, (commandOn b k s).ddram j p l = s.ddram j p l := by
  have hu : commandOn b k s = unknownCommandOn k s := by unfold commandOn; rw [h]
  rw [hu]
  unfold unknownCommandOn
  refine ⟨?_, fun p l => ?_⟩
  · rw [setChip_chip_other _ hj.symm]
    cases j <;> rfl
  · rw [ddram_setChip]
    have hkey : ddramKey j p l / 512 ≠ k.index := by
      rw [ddramKey_chip]
      exact fun he => hj (index_inj.mp he)
    exact (Memory.read_forgetChip _ _ _).trans (if_neg hkey)

/-- Settles O28: what `commandOn_unknown` says of the other chip. -/
theorem wcmdUnknown : Obligations.WcmdUnknown := by
  intro b k s hr h ha hc
  obtain ⟨u, t, he, hst, hp, hlat, hwork, hdiag⟩ := exec_wcmd_performed b hr h (one_ne_both ha)
  have hd := hp.display_cmd ha
  refine ⟨u, t, he, hst, hp, hlat, hwork, hdiag, fun j hj => ?_, fun j p l hj => ?_⟩
  · rw [State.SameChip, regs_chip hd, (commandOn_unknown hc hj).1]
  · rw [ddram_of_display hd, (commandOn_unknown hc hj).2]

/-! ## Data bytes -/

/-- Settles O29 by `dataOn_defined`. -/
theorem wdataStores : Obligations.WdataStores := by
  intro b k y s hr h ha hy
  obtain ⟨u, t, he, hst, hp, hlat, hwork, hdiag⟩ := exec_wdata_performed b hr h (one_ne_both ha)
  have hd := hp.display_data ha
  obtain ⟨hbytes, hchip, hothers⟩ := dataOn_defined (b := b) hy
  refine ⟨u, t, he, hst, hp, hlat, hwork, hdiag, ?_, fun j p l hne => ?_, fun j hj => ?_, ?_⟩
  · rw [ddram_of_display hd, hbytes, if_pos ⟨rfl, rfl, rfl⟩]
  · rw [ddram_of_display hd, hbytes, if_neg hne]
  · rw [State.SameChip, regs_chip hd, hothers j hj]
  · rw [regs_chip hd, hchip]
    rfl

/-- R48: a data byte at an undefined column lands at a free one, and no register changes. -/
theorem dataOn_undefined {b : Byte} {k : ChipId} {s : State} (h : (s.chip k).Y = none) :
    (∀ j p l, (dataOn b k s).ddram j p l =
      if j = k ∧ p = (s.chip k).X ∧ l = Config.drawCol s.draws then some b else s.ddram j p l) ∧
    ∀ j, (dataOn b k s).chip j = s.chip j := by
  have he : dataOn b k s = { s with
      ram := s.ram.write (ddramKey k (s.chip k).X (Config.drawCol s.draws)) b, draws := s.draws + 1 } := by
    unfold dataOn
    simp only [h]
  rw [he]
  have hkey : ∀ j p l, ddramKey k (s.chip k).X (Config.drawCol s.draws) = ddramKey j p l ↔
      j = k ∧ p = (s.chip k).X ∧ l = Config.drawCol s.draws := fun j p l =>
    ddramKey_inj.trans (and_congr eq_comm (and_congr eq_comm eq_comm))
  exact ⟨fun j p l => (Memory.read_write _ _ _ _).trans (if_congr (hkey j p l) rfl rfl), fun j => by cases j <;> rfl⟩

/-- Settles O30: the column is the free one of `dataOn_undefined`. -/
theorem wdataUndefinedColumn : Obligations.WdataUndefinedColumn := by
  intro b k s hr h ha hy
  obtain ⟨u, t, he, hst, hp, hlat, hwork, hdiag⟩ := exec_wdata_performed b hr h (one_ne_both ha)
  have hd := hp.display_data ha
  obtain ⟨hbytes, hchip⟩ := dataOn_undefined (b := b) hy
  have hsame : ∀ j, s.SameChip t j := fun j => by rw [State.SameChip, regs_chip hd, hchip]
  refine ⟨u, t, Config.drawCol s.draws, he, hst, hp, hlat, hwork, hdiag, ?_, fun j p l hne => ?_, hsame _, hsame _⟩
  · rw [ddram_of_display hd, hbytes, if_pos ⟨rfl, rfl, rfl⟩]
  · rw [ddram_of_display hd, hbytes, if_neg hne]

/-! ## Nobody addressed -/

/-- A display that is as before shows the same registers and bytes. -/
theorem same_of_display {s t : State} (h : t.display = s.display) :
    s.SameChip t .chip1 ∧ s.SameChip t .chip2 ∧ s.SameBytes t := by
  obtain ⟨h1, h2, hram, -⟩ := display_iff.mp h
  exact same_of_regs h1 h2 hram

/-- Settles O31: an entry that nobody receives has no display effect. -/
theorem transferToNobody : Obligations.TransferToNobody := by
  intro b s hr h ha
  have hnb : s.addressed ≠ .both := by simp [ha]
  have hsel := selected_of_nobody ha
  constructor
  · obtain ⟨u, t, he, hst, hp, hlat, hwork, hdiag⟩ := exec_wcmd_performed b hr h hnb
    exact ⟨u, t, he, hst, hp, hlat, hwork, hdiag, same_of_display (by rw [hp.display, hsel]; rfl)⟩
  · obtain ⟨u, t, he, hst, hp, hlat, hwork, hdiag⟩ := exec_wdata_performed b hr h hnb
    exact ⟨u, t, he, hst, hp, hlat, hwork, hdiag, same_of_display (by rw [hp.display, hsel]; rfl)⟩

end Sys2Proof.Machine
end

section
/-! SUPPORT and the settling of O41 and O42: the display effect of WCHAR on valid coordinates (R130), the chip's cursor put
at the page and the local column (R121, R122), then a run of six data bytes (R48). -/

namespace Sys2Proof.Machine

/-! ## The cursor -/

/-- `s` with the cursor of the column's chip at a page and its local column (R121, R122). -/
def State.positioned (s : State) (page column : Byte) : State :=
  s.setChip (chipOf column) { s.chip (chipOf column) with X := page.setWidth 3, Y := some (lcolOf column) }

theorem coordsValid_of_lt {page column : Byte} (hp : page.toNat < 8) (hc : column.toNat < 128) :
    coordsValid page column = true := by simp [coordsValid, npage, width, hp, hc]

/-- R122: the "set page" byte of a page below 8 is the encoding of that page. -/
theorem setPageByte_eq (cfg : Config) {page : Byte} (h : page.toNat < 8) :
    setPageByte cfg page = encodeCommand cfg (.setPage (page.setWidth 3)) := by
  have hpage : (page.setWidth 3).setWidth 8 = page := by
    apply BitVec.eq_of_toNat_eq
    simp only [BitVec.toNat_setWidth]
    omega
  rw [encodeCommand, hpage]; rfl

theorem commandOn_encoded {cfg : Config} (hb : cfg.basesValid = true) (c : Command) (k : ChipId) {s : State}
    (hs : s.cfg = cfg) : commandOn (encodeCommand cfg c) k s = s.setChip k (commandChip c (s.chip k)) :=
  commandOn_decoded (by rw [hs]; exact commandRoundTrip cfg c hb) k

theorem setChip_setChip (s : State) (k : ChipId) (c d : Chip) : (s.setChip k c).setChip k d = s.setChip k d := by
  cases k <;> rfl

/-- The display effect of a valid GOTO (R121, R122). -/
theorem displayEffect_goto {page column : Byte} (hp : page.toNat < 8) (hc : column.toNat < 128) {s : State}
    (hb : s.cfg.basesValid = true) (k : Option ChipId) :
    displayEffect k (gotoBus s.cfg page column) s = s.positioned page column ∧
    receiver k (gotoBus s.cfg page column) = some (chipOf column) := by
  rw [gotoBus_valid (coordsValid_of_lt hp hc)]
  refine ⟨?_, rfl⟩
  simp only [displayEffect, receiver, BusEntry.on]
  rw [setPageByte_eq _ hp, commandOn_encoded hb _ _ rfl]
  have hcol : setColByte s.cfg (lcolOf column) = encodeCommand s.cfg (.setCol (lcolOf column)) := rfl
  rw [hcol, commandOn_encoded hb _ _ (setChip_cfg ..), setChip_setChip, setChip_chip_same]
  rfl

/-- The display effect of WCHAR on valid coordinates (R130). -/
theorem displayEffect_wchar {page column ch : Byte} (hp : page.toNat < 8) (hc : column.toNat < 128) {s : State}
    (hb : s.cfg.basesValid = true) (k : Option ChipId) :
    displayEffect k (wcharBus s.cfg page column ch) s =
      displayEffect (some (chipOf column)) ((charBytes s.cfg ch).map .data) (s.positioned page column) := by
  obtain ⟨hgoto, hrecv⟩ := displayEffect_goto hp hc hb k
  rw [wcharBus, displayEffect_append, hgoto, hrecv]

theorem receiver_data (k : Option ChipId) (bytes : List Byte) : receiver k (bytes.map .data) = k := by
  induction bytes with
  | nil => rfl
  | cons b bytes ih => exact ih

/-! ## The operation -/

/-- WCHAR on valid coordinates completes (R130). -/
theorem exec_wchar_performed {page column : Byte} (hp : page.toNat < 8) (hc : column.toNat < 128) (ch : Byte) {s : State}
    (hr : s.rst_n = true) (h : s.answers 9) :
    ∃ u t, exec (.wchar page column ch) s = .next u ∧ u.stepsTo t ∧ s.Performed t 0x04 4 (wcharBus s.cfg page column ch) := by
  have hv := coordsValid_of_lt hp hc
  obtain ⟨t, p⟩ := proc_wchar (p := page) (c := column) (ch := ch)
    (s := s.taken 0x04 4 { s.lat with PG := page, COLR := column, CH := ch })
    (by rw [wcharBus_length, if_pos hv]; exact h) (.inl hv)
  obtain ⟨hst, hperf, -⟩ := p.exec (by simp) hr
  exact ⟨_, _, rfl, hst, hperf⟩

/-- WCHAR on valid coordinates leaves the column's chip selected (R132). -/
theorem State.Performed.addressed_wchar {s t : State} {page column ch opcode : Byte} {n : Nat}
    (h : s.Performed t opcode n (wcharBus s.cfg page column ch)) (hp : page.toNat < 8) (hc : column.toNat < 128)
    (hb : s.cfg.basesValid = true) : t.addressed = .one (chipOf column) := by
  rw [← selected_iff, h.cfg, h.pins, selected_exitPins, wcharBus, receiver_append, receiver_data]
  exact (displayEffect_goto hp hc hb _).2

theorem positioned_chip (s : State) (page column : Byte) : (s.positioned page column).chip (chipOf column) =
    { s.chip (chipOf column) with X := page.setWidth 3, Y := some (lcolOf column) } := setChip_chip_same ..

theorem positioned_other (s : State) (page : Byte) {column : Byte} {j : ChipId} (hj : j ≠ chipOf column) :
    (s.positioned page column).chip j = s.chip j := setChip_chip_other _ hj.symm _

theorem positioned_ddram (s : State) (page column : Byte) (j : ChipId) (p : BitVec 3) (l : BitVec 6) :
    (s.positioned page column).ddram j p l = s.ddram j p l := ddram_setChip ..

theorem positioned_cfg (s : State) (page column : Byte) : (s.positioned page column).cfg = s.cfg := setChip_cfg ..

/-- The column register after a character that fits (R48, R132). -/
theorem columnEnd_char (cfg : Config) {y : BitVec 6} (h : y.toNat ≤ 58) :
    columnEnd cfg y 6 = if y.toNat = 58 then cfg.colAfter63 else some (y + 6) := by
  unfold columnEnd
  by_cases hy : y.toNat = 58
  · rw [if_neg (by omega), if_neg (by decide), if_pos hy]
  · rw [if_pos (by omega), if_neg hy]; rfl

/-- Settles O41: the run of six bytes from the cursor does not pass column 63. -/
theorem wcharDraws : Obligations.WcharDraws := by
  intro page column ch s hr hp hc hfit hb h k
  obtain ⟨u, t, he, hst, hperf⟩ := exec_wchar_performed hp hc ch hr h
  have hd := hperf.display
  rw [displayEffect_wchar hp hc hb] at hd
  have hlen : (charBytes s.cfg ch).length = 6 := rfl
  have hchip := positioned_chip s page column
  obtain ⟨hbytes, hframe, hregs, hothers⟩ := displayEffect_run (charBytes s.cfg ch) (k := k) (s := s.positioned page column)
    (y := lcolOf column) (by rw [hchip]) (by omega)
  rw [hchip] at hbytes hframe hregs
  refine ⟨u, t, he, hst, fun i hi => ?_, fun j p l hne => ?_, fun j hj => ?_, hperf.addressed_wchar hp hc hb, ?_⟩
  · exact (ddram_of_display hd ..).trans (hbytes i hi)
  · rw [ddram_of_display hd, hframe j p l hne, positioned_ddram]
  · rw [State.SameChip, regs_chip hd, hothers j hj, positioned_other s page hj]
  · rw [regs_chip hd, hregs, hlen, positioned_cfg, columnEnd_char s.cfg hfit]

/-! ## Runs that pass column 63 -/

/-- The columns of a run after its first are those of a run from the next column. -/
theorem runColumn_succ {cfg : Config} {y z : BitVec 6} (h : columnAfter cfg y = some z) (i : Nat) :
    runColumn cfg y (i + 1) = runColumn cfg z i := by
  induction i with
  | zero => exact h
  | succ i ih => rw [runColumn, ih]; rfl

/-- With a numeric COL_AFTER_63 every column has a next one (R48). -/
theorem columnAfter_isSome {cfg : Config} {n : BitVec 6} (h : cfg.colAfter63 = some n) (y : BitVec 6) :
    ∃ z, columnAfter cfg y = some z := by
  unfold columnAfter
  split
  · exact ⟨_, rfl⟩
  · exact ⟨n, h⟩

/-- R48, R51: a run of data bytes with a numeric COL_AFTER_63. Of the bytes that fall on one column the last stays. -/
theorem displayEffect_wrap {k : ChipId} {n : BitVec 6} (bytes : List Byte) {s : State} {y : BitVec 6}
    (hn : s.cfg.colAfter63 = some n) (h : (s.chip k).Y = some y) :
    let t := displayEffect (some k) (bytes.map .data) s
    (∀ i (hi : i < bytes.length) l, runColumn s.cfg y i = some l →
      (∀ j, i < j → j < bytes.length → runColumn s.cfg y j ≠ some l) → t.ddram k (s.chip k).X l = some bytes[i]) ∧
    (∀ j p l, ¬ (j = k ∧ p = (s.chip k).X ∧ ∃ i, i < bytes.length ∧ runColumn s.cfg y i = some l) →
      t.ddram j p l = s.ddram j p l) ∧
    (∀ j, j ≠ k → t.chip j = s.chip j) := by
  induction bytes generalizing s y with
  | nil => exact ⟨fun i hi => absurd hi (Nat.not_lt_zero i), fun _ _ _ _ => rfl, fun _ _ => rfl⟩
  | cons b bytes ih =>
    obtain ⟨hb, hchip, hothers⟩ := dataOn_defined (b := b) h
    obtain ⟨z, hz⟩ := columnAfter_isSome hn y
    have hcol := runColumn_succ hz
    obtain ⟨g1, g2, g3⟩ := ih (s := dataOn b k s) (y := z) (by rw [dataOn_cfg]; exact hn) (by rw [hchip]; exact hz)
    rw [hchip, dataOn_cfg] at g1 g2
    refine ⟨fun i hi l hl hlast => ?_, fun j p l hne => ?_, fun j hj => (g3 j hj).trans (hothers j hj)⟩
    · cases i with
      | zero =>
        obtain rfl : y = l := Option.some.inj hl
        refine (g2 k _ y ?_).trans ((hb k _ y).trans (if_pos ⟨rfl, rfl, rfl⟩))
        rintro ⟨-, -, i, hi, hc⟩
        exact hlast (i + 1) (Nat.succ_pos i) (Nat.succ_lt_succ hi) ((hcol i).trans hc)
      | succ i =>
        refine g1 i (Nat.lt_of_succ_lt_succ hi) l ((hcol i).symm.trans hl) fun j hij hj hc => ?_
        exact hlast (j + 1) (Nat.succ_lt_succ hij) (Nat.succ_lt_succ hj) ((hcol j).trans hc)
    · refine (g2 j p l ?_).trans ((hb j p l).trans (if_neg ?_))
      · rintro ⟨hj, hp, i, hi, hc⟩
        exact hne ⟨hj, hp, i + 1, Nat.succ_lt_succ hi, (hcol i).trans hc⟩
      · rintro ⟨hj, hp, rfl⟩
        exact hne ⟨hj, hp, 0, Nat.succ_pos _, rfl⟩

/-- Settles O42 by `displayEffect_wrap`. -/
theorem wcharSurplus : Obligations.WcharSurplus := by
  intro page column ch n s hr hp hc hn hb h k col
  obtain ⟨u, t, he, hst, hperf⟩ := exec_wchar_performed hp hc ch hr h
  have hd := hperf.display
  rw [displayEffect_wchar hp hc hb] at hd
  have hchip := positioned_chip s page column
  have hcfg := positioned_cfg s page column
  obtain ⟨hbytes, hframe, hothers⟩ := displayEffect_wrap (charBytes s.cfg ch) (k := k) (s := s.positioned page column)
    (y := lcolOf column) (by rw [hcfg]; exact hn) (by rw [hchip])
  rw [hchip, hcfg] at hbytes hframe
  refine ⟨u, t, he, hst, fun i hi l hl hlast => ?_, fun j p l hne => ?_, fun j hj => ?_⟩
  · exact (ddram_of_display hd ..).trans (hbytes i hi l hl hlast)
  · rw [ddram_of_display hd, hframe j p l hne, positioned_ddram]
  · rw [State.SameChip, regs_chip hd, hothers j hj, positioned_other s page hj]

end Sys2Proof.Machine
end

section
/-! SUPPORT and the settling of O1, O2, O3, O6 and O7: the stream decoder and the encoder are inverse (R71 to R77, R80). -/

namespace Sys2Proof

/-! ## Opcode and operands -/

/-- A byte that is no opcode of R72 is an operation by itself (R80). -/
theorem decode_reserved {op : Byte} (h : isHostOpcode op = false) (rest : List Byte) :
    decode (op :: rest) = .ok (.reserved op, rest) := by
  simp only [isHostOpcode, hostOpcodes] at h
  unfold decode
  split
  · contradiction
  · split <;> simp_all

/-- Reading the opcode and operand bytes of a well-formed host operation gives it back (R72, R73, R75). -/
theorem decode_encode (cfg : Config) {i : Instr} (hw : i.wf = true) (hi : i.isHost = true) (rest : List Byte) :
    decode (encode cfg i ++ rest) = .ok (i, rest) := by
  cases i with
  | lcdSetPage _ | lcdSetCol _ | lcdDisplayOn | lcdStartLine _ => cases hi
  | reserved op => exact decode_reserved (by simpa [Instr.wf] using hw) rest
  | itoa value =>
    have hvalue : value.extractLsb' 8 8 ++ value.extractLsb' 0 8 = value := BitVec.extractLsb'_append_extractLsb'
    exact congrArg (fun v => Except.ok (Instr.itoa v, rest)) hvalue
  | _ => rfl

/-- What is read is well formed, and its encoding is the bytes consumed (R72, R75, R80). -/
theorem encode_of_decode (cfg : Config) {bytes rest : List Byte} {i : Instr} (h : decode bytes = .ok (i, rest)) :
    i.wf = true ∧ encode cfg i ++ rest = bytes := by
  unfold decode at h
  split at h
  · cases h
  · split at h <;> cases h
    case h_13 lo hi hop =>  -- ITOA (R75)
      have hlo : (hi ++ lo).extractLsb' 0 8 = lo := BitVec.extractLsb'_append_eq_right
      have hhi : (hi ++ lo).extractLsb' 8 8 = hi := BitVec.extractLsb'_append_eq_left
      refine ⟨rfl, ?_⟩
      rw [encode, hlo, hhi, BitVec.eq_of_toNat_eq (y := 0x08) hop]
      rfl
    case h_21 =>  -- no opcode of R72
      exact ⟨by simp_all [Instr.wf, isHostOpcode, hostOpcodes], rfl⟩
    all_goals
      rename_i hop
      exact ⟨rfl, congrArg (· :: _) (BitVec.eq_of_toNat_eq hop.symm)⟩

/-! ## Whole operations -/

/-- A whole operation is its opcode and operand bytes, then as many text bytes as they say (R71, R76). -/
theorem decodeOperation_eq_some {bytes rest : List Byte} {o : Operation} : decodeOperation bytes = some (o, rest) ↔
    decode bytes = .ok (o.instr, o.text ++ rest) ∧ o.text.length = o.instr.textLen := by
  obtain ⟨i, text⟩ := o
  unfold decodeOperation
  split
  next h => simp [h]
  next j tail h =>
    rw [h]
    simp only [Except.ok.injEq, Prod.mk.injEq]
    split
    next hshort =>
      refine ⟨nofun, ?_⟩
      rintro ⟨⟨rfl, rfl⟩, hlen⟩
      simp [hlen] at hshort
    next hlong =>
      simp only [Option.some.injEq, Prod.mk.injEq, Operation.mk.injEq]
      constructor
      · rintro ⟨⟨rfl, rfl⟩, rfl⟩
        exact ⟨⟨rfl, (List.take_append_drop ..).symm⟩, List.length_take_of_le (Nat.le_of_not_lt hlong)⟩
      · rintro ⟨⟨rfl, rfl⟩, hlen⟩
        exact ⟨⟨rfl, List.take_left' hlen⟩, List.drop_left' hlen⟩

theorem Operation.wf_iff {o : Operation} :
    o.wf = true ↔ o.instr.wf = true ∧ o.instr.isHost = true ∧ o.text.length = o.instr.textLen := by
  simp [Operation.wf, and_assoc]

/-- Settles O1 by `decode_encode`: the text is what follows the operands. -/
theorem operationRoundTrip : Obligations.OperationRoundTrip := by
  intro cfg o rest h
  obtain ⟨hw, hi, hlen⟩ := Operation.wf_iff.mp h
  rw [encodeOperation, List.append_assoc]
  exact decodeOperation_eq_some.mpr ⟨decode_encode cfg hw hi _, hlen⟩

/-- Settles O2 by `encode_of_decode`. -/
theorem operationDecodedIsEncoded : Obligations.OperationDecodedIsEncoded := by
  intro cfg bytes rest o h
  obtain ⟨hdecode, hlen⟩ := decodeOperation_eq_some.mp h
  obtain ⟨hw, henc⟩ := encode_of_decode cfg hdecode
  exact ⟨Operation.wf_iff.mpr ⟨hw, Machine.decode_isHost hdecode, hlen⟩, by rw [encodeOperation, List.append_assoc, henc]⟩

/-! ## Streams -/

theorem encode_ne_nil (cfg : Config) (i : Instr) : encode cfg i ≠ [] := by cases i <;> exact List.cons_ne_nil _ _

/-- With a unit of fuel for every byte, what is read is whole operations, and no whole operation is left over (R77). -/
theorem decodeStreamAux_spec (cfg : Config) {fuel : Nat} {bytes : List Byte} (hfuel : bytes.length ≤ fuel) :
    (∀ o ∈ (decodeStreamAux fuel bytes).1, o.wf = true) ∧
    (decodeStreamAux fuel bytes).1.flatMap (encodeOperation cfg) ++ (decodeStreamAux fuel bytes).2 = bytes ∧
    decodeOperation (decodeStreamAux fuel bytes).2 = none := by
  induction fuel generalizing bytes with
  | zero =>
    obtain rfl := List.eq_nil_of_length_eq_zero (Nat.le_zero.mp hfuel)
    exact ⟨nofun, rfl, rfl⟩
  | succ fuel ih =>
    unfold decodeStreamAux
    split
    next h => exact ⟨nofun, rfl, h⟩
    next o rest h =>
      obtain ⟨hw, rfl⟩ := operationDecodedIsEncoded cfg bytes rest o h
      have hshorter : rest.length ≤ fuel := by
        have hpos := List.length_pos_of_ne_nil (encode_ne_nil cfg o.instr)
        simp only [encodeOperation, List.length_append] at hfuel
        omega
      obtain ⟨hall, hjoin, hend⟩ := ih hshorter
      refine ⟨List.forall_mem_cons.mpr ⟨hw, hall⟩, ?_, hend⟩
      rw [List.flatMap_cons, List.append_assoc, hjoin]

/-- Settles O3: the stream decoder has a unit of fuel for every byte. -/
theorem streamDecodingTotal : Obligations.StreamDecodingTotal := fun cfg _ => decodeStreamAux_spec cfg (Nat.le_refl _)

/-! ## Single words -/

/-- Settles O6: both of the table's spaces, on six closed words. -/
theorem wordsDecode : Obligations.WordsDecode := by
  unfold Obligations.WordsDecode
  decide

/-- Settles O7: the byte after the opcode is the low byte. -/
theorem itoaOperand : Obligations.ItoaOperand := fun _ _ _ => rfl

end Sys2Proof
end

section
/-! SUPPORT and the settling of O8, O11, O38 and O48: the fetches of an operation, of its opcode and operands and of its
text (R70, R71, R74, R142). -/

namespace Sys2Proof.Machine

/-! ## Operand fetches -/

/-- The operand latches that an operation's operand bytes go to, with the bytes, in stream order (R73 to R75). -/
def operandFields : Instr → List (Operand × Byte)
  | .goto page column => [(.PG, page), (.COLR, column)]
  | .wchar page column ch => [(.PG, page), (.COLR, column), (.CH, ch)]
  | .wstr page column len => [(.PG, page), (.COLR, column), (.LEN, len)]
  | .wpct len => [(.LEN, len)]
  | .bar height => [(.HT, height)]
  | .itoa value => [(.VALlo, value.extractLsb' 0 8), (.VALhi, value.extractLsb' 8 8)]
  | .selchip id => [(.ID, id)]
  | .wcmd byte => [(.BY, byte)]
  | .wdata byte => [(.BY, byte)]
  | _ => []

/-- Bytes put into their latches one after another (R74). -/
def Latches.putAll (l : Latches) (fields : List (Operand × Byte)) : Latches := fields.foldl (fun l f => l.put f.1 f.2) l

theorem encode_fields (cfg : Config) (i : Instr) :
    encode cfg i = (encode cfg i).headD 0 :: (operandFields i).map Prod.snd := by cases i <;> rfl

/-- The opcode names the operands that the encoding holds (R72, R80). -/
theorem operandsOf_fields (cfg : Config) {i : Instr} (hw : i.wf = true) (hi : i.isHost = true) :
    operandsOf ((encode cfg i).headD 0) = (operandFields i).map Prod.fst := by
  cases i with
  | lcdSetPage _ | lcdSetCol _ | lcdDisplayOn | lcdStartLine _ => cases hi
  | reserved op =>
    obtain ⟨-, -, hshape⟩ := Laws.Shape.reserved op cfg
    have hlen := hshape hw hi op rfl
    simpa [encode, operandFields] using hlen
  | _ => rfl

/-- Fetching the operand bytes one by one latches what taking them at once does (R74, R75). -/
theorem putAll_fields (l : Latches) (op : Byte) (i : Instr) :
    Latches.putAll { l with OPC := op } (operandFields i) = { latched l i with OPC := op } := by
  cases i with
  | itoa value =>
    have hlo : (l.VAL.extractLsb' 8 8 ++ value.extractLsb' 0 8).extractLsb' 0 8 = value.extractLsb' 0 8 :=
      BitVec.extractLsb'_append_eq_right
    have hvalue : value.extractLsb' 8 8 ++ value.extractLsb' 0 8 = value := BitVec.extractLsb'_append_extractLsb'
    simp only [Latches.putAll, operandFields, List.foldl, Latches.put, latched, hlo, hvalue]
  | _ => rfl

/-- The latches hold the operation they were filled from (R71, R72). -/
theorem instr_latched (cfg : Config) (l : Latches) {i : Instr} (hw : i.wf = true) (hi : i.isHost = true) :
    Latches.instr { latched l i with OPC := (encode cfg i).headD 0 } = i := by
  cases i with
  | lcdSetPage _ | lcdSetCol _ | lcdDisplayOn | lcdStartLine _ => cases hi
  | reserved op =>
    simp only [Instr.wf, isHostOpcode, hostOpcodes, Bool.not_eq_true'] at hw
    simp only [encode, List.headD_cons, Latches.instr]
    split <;> simp_all
  | _ => rfl

theorem runs_fetch {s : State} {b : Byte} (o : Operand) (rest : List Act) (hb : s.nextByte = some b) :
    Runs (s.doing (.fetch o :: rest)) (State.doing { s with SP := s.SP + 1, lat := s.lat.put o b } rest) := by
  have hd : (s.doing rest).nextByte = some b := hb
  refine runs_act ?_
  simp only [act, withNext, hd]; rfl

theorem runs_fetches (fields : List (Operand × Byte)) {s : State} (rest : List Act)
    (h : fields.map Prod.snd <+: s.stream.drop s.SP) :
    Runs (s.doing ((fields.map Prod.fst).map .fetch ++ rest))
      (State.doing { s with SP := s.SP + fields.length, lat := s.lat.putAll fields } rest) := by
  induction fields generalizing s with
  | nil => exact Runs.refl _
  | cons f fields ih =>
    have hrest := ih (s := { s with SP := s.SP + 1, lat := s.lat.put f.1 f.2 }) (prefix_next h)
    refine ((runs_fetch f.1 _ (nextByte_of_prefix h)).trans hrest).to ?_
    simp only [List.length_cons, Nat.add_assoc, Nat.add_comm 1]
    rfl

/-- From the state in which the opcode alone is consumed, the fetches and the dispatch lead to the accepted state. -/
theorem runs_acceptPartial {s : State} {i : Instr} (hw : i.wf = true) (hi : i.isHost = true)
    (h : encode s.cfg i <+: s.stream.drop s.SP) :
    Runs (s.acceptPartial ((encode s.cfg i).headD 0)) (s.accepted i) := by
  set op := (encode s.cfg i).headD 0
  set begun := s.taken op 1 s.lat
  set whole := s.taken op (encode s.cfg i).length (latched s.lat i)
  rw [encode_fields] at h
  have hfetch := runs_fetches (operandFields i) (s := begun) [.dispatch, .finish] (prefix_next h)
  have hlat : begun.lat.putAll (operandFields i) = whole.lat := putAll_fields s.lat op i
  have hSP : begun.SP + (operandFields i).length = whole.SP := by
    have hlen := congrArg List.length (encode_fields s.cfg i)
    rw [List.length_cons, List.length_map] at hlen
    simp only [begun, whole, State.taken]
    omega
  rw [← operandsOf_fields s.cfg hw hi, hlat, hSP] at hfetch
  have hinstr : whole.lat.instr = i := instr_latched s.cfg s.lat hw hi
  have hdispatch := runs_dispatch whole [.finish]
  rw [hinstr] at hdispatch
  exact hfetch.trans hdispatch

/-- Settles O11: the operand bytes are fetched one by one into the latches that the acceptance fills at once, and the
dispatch finds there the same operation. -/
theorem operandsFetchedOneByOne : Obligations.OperandsFetchedOneByOne := by
  intro s i rest opcode hr hop hdec
  have hi := decode_isHost hdec
  obtain ⟨hw, hbytes⟩ := encode_of_decode s.cfg hdec
  have hprefix : encode s.cfg i <+: s.stream.drop s.SP := ⟨rest, hbytes⟩
  have hopcode : some opcode = some ((encode s.cfg i).headD 0) :=
    hop.symm.trans (nextByte_of_prefix (encode_fields s.cfg i ▸ hprefix))
  obtain rfl := Option.some.inj hopcode
  refine ⟨_, exec_host hi s, (runs_acceptPartial hw hi hprefix).stepsTo hr rfl ?_⟩
  exact ⟨(operandsOf ((encode s.cfg i).headD 0)).map .fetch ++ [.dispatch], by simp [State.acceptPartial], by simp⟩

/-! ## The idle sequencer -/

/-- Settles O8: the idle sequencer decodes at SP and executes. -/
theorem stepRunsOperation : Obligations.StepRunsOperation := by
  intro s i rest hr hrun hdec
  rw [step_idle hr hrun, fetchStep, hdec]

/-! ## An operation without a pin event -/

theorem coordsValid_of_ge {page column : Byte} (h : 8 ≤ page.toNat ∨ 128 ≤ column.toNat) :
    coordsValid page column = false := by
  rw [coordsValid, Bool.and_eq_false_iff]
  exact h.imp (fun hp => decide_eq_false (Nat.not_lt.mpr hp)) fun hc => decide_eq_false (Nat.not_lt.mpr hc)

/-- Settles O38: the one act of the operation sets the bit. -/
theorem gotoInvalidIgnored : Obligations.GotoInvalidIgnored := by
  intro page column s hr h
  have hgoto := (proc_goTo_invalid (coordsValid_of_ge h)
    (s.taken 0x03 3 { s.lat with PG := page, COLR := column })).runs
  exact ⟨_, rfl, stepsTo_ended hgoto (by simp) hr⟩

/-! ## Text fetches -/

/-- A string with `text` of its text in the stream and `more` bytes missing places the text, and is at its next fetch. -/
theorem runs_string_part (p c : Byte) (text : List Byte) {s : State} (ht : text <+: s.stream.drop s.SP)
    (ha : s.addressed ≠ .both) (h : s.answers (stringBus s.cfg p c.toNat text).length) :
    ∃ t, Did s t (stringBus s.cfg p c.toNat text) ∧ t.SP = s.SP + text.length ∧ ∀ more rest,
      Runs (s.doing (.string p c (text.length + more) :: rest)) (t.doing (.chars p more :: rest)) := by
  set s1 : State := { s with work := { s.work with CUR := c.setWidth 9, STOP := false, TI := 0 } }
  have hcur : s1.work.CUR.toNat = c.toNat := by simp [s1]; omega
  have d0 : Did s s1 [] := Did.silent rfl rfl rfl rfl rfl rfl rfl rfl rfl rfl rfl
  obtain ⟨t, q⟩ := wrote_chars p text (s := s1) rfl (by rw [hcur]; exact c.isLt) ha ht (by rw [hcur]; exact h)
  rw [hcur] at q
  exact ⟨t, d0.trans q.did, q.SP, fun more rest => (runs_string s rest p c _).trans (q.runs more rest)⟩

/-- Settles O48: once the text at hand is placed, the string is at a fetch with no byte at SP. -/
theorem wstrWaitsForText : Obligations.WstrWaitsForText := by
  intro page column len text s hr ht hsp hlen ha h
  set s1 := s.taken 0x05 4 { s.lat with PG := page, COLR := column, LEN := len }
  obtain ⟨t, hdid, hSP, hruns⟩ := runs_string_part page column text (s := s1) (ht ▸ List.prefix_refl _) ha h
  obtain ⟨more, hmore⟩ := Nat.exists_eq_add_of_lt hlen
  have hend : t.stream[t.SP]? = none := by
    have hall : text.length = s.stream.length - (s.SP + 4) := by rw [← ht, List.length_drop]
    have hstream : t.stream = s.stream := hdid.stream
    have hat : t.SP = s.SP + 4 + text.length := hSP
    rw [hstream, hat, List.getElem?_eq_none_iff]
    omega
  have hrst : t.rst_n = true := hdid.rst_n.trans hr
  set waiting := t.doing [.chars page (more + 1), .finish]
  obtain ⟨-, -, hwait⟩ := stepWaitsForTheHost waiting hrst hend
  have hruns := hruns (more + 1) [.finish]
  rw [← Nat.add_assoc, ← hmore] at hruns
  refine ⟨_, waiting, rfl, hruns.stepsTo hr rfl ⟨[.string page column len.toNat], rfl, by simp⟩, hdid.RUN, hSP,
    hdid.busSince, ?_, hwait page more _ hdid.RUN rfl⟩
  simp [State.cmdReady, waiting, hrst]

end Sys2Proof.Machine
end

section
/-! The settling of O24, O25, O26 and O59: SELCHIP completes (R102), the exact pin traces of a busy-wait and of the two
transfers (R101 to R104), and the number of busy-waits of each operation (R106, R175). -/

namespace Sys2Proof.Machine

/-! ## SELCHIP -/

/-- R45, R102: after SELCHIP the chip its operand names is addressed, or none. -/
theorem addressed_selected (id : Byte) (s : State) :
    (selected id s).addressed = if id = 1 then .one .chip1 else if id = 2 then .one .chip2 else .nobody := by
  refine (addressed_chosen id s).trans ?_
  unfold chipOfId
  split_ifs <;> rfl

/-- Settles O24: a selection is an entry without a display effect. That the samples of its busy-wait change no register of
a chip is log entry 18. -/
theorem selchipSelects : Obligations.SelchipSelects := by
  intro id s hr h
  set s1 := s.taken 0x10 2 { s.lat with ID := id }
  obtain ⟨hst, hp, hlat, hwork, hdiag⟩ := (proc_selChip id (s := s1) h).exec (by simp) hr
  have hdisplay : (selected id s1).ended.display = s.display := hp.display
  exact ⟨_, _, rfl, hst, hp, addressed_selected id s1, hlat, hwork, hdiag, same_of_display hdisplay⟩

/-! ## Pin traces -/

theorem selected_trace (id : Byte) (s : State) :
    (selected id s).trace = (selEvents s.cfg id ++ waitEvents (polls s.db7)).reverse ++ s.trace := by
  rw [List.reverse_append, List.append_assoc]; rfl

theorem strobed_trace (rs : Bool) (b : Byte) (s : State) :
    (strobed rs b (waited s)).trace = (waitEvents (polls s.db7) ++ strobeEvents rs b).reverse ++ s.trace := by
  rw [List.reverse_append, List.append_assoc]; rfl

/-- What the chip does with a command adds no event to those of the transfer. -/
theorem commanded_trace (b : Byte) (s : State) :
    (commanded b s).trace = (waitEvents (polls s.db7) ++ strobeEvents false b).reverse ++ s.trace :=
  (onChip_keeps State.trace _ (commandOn_trace b) _).trans (strobed_trace false b s)

/-- What the chip does with a data byte adds no event to those of the transfer. -/
theorem written_trace (b : Byte) (s : State) :
    (written b s).trace = (waitEvents (polls s.db7) ++ strobeEvents true b).reverse ++ s.trace :=
  (onChip_keeps State.trace _ (dataOn_trace b) _).trans (strobed_trace true b s)

theorem polls_replicate (n : Nat) (l : List Bool) : polls (List.replicate n true ++ false :: l) = n := by
  induction n with
  | zero => rfl
  | succ n ih => exact congrArg (· + 1) ih

theorem afterAnswer_replicate (n : Nat) (l : List Bool) : afterAnswer (List.replicate n true ++ false :: l) = l := by
  induction n with
  | zero => rfl
  | succ n ih => exact ih

/-- Settles O25: the chip-select events, then those of a busy-wait with `n` busy answers. -/
theorem busyWaitPinTrace : Obligations.BusyWaitPinTrace := by
  intro s n l hr hp hdb select enter poll leave
  set s1 := s.taken 0x10 2 { s.lat with ID := 2 }
  have hmem : false ∈ s.db7 := by simp [hdb]
  have hst : (s.accept 0x10 2 { s.lat with ID := 2 } [.selChip 2]).stepsTo (selected 2 s1).ended :=
    stepsTo_ended (fun _ => runs_selected 2 (s := s1) hmem hp) (by simp) hr
  have hsamples : (selected 2 s1).db7 = l := (congrArg afterAnswer hdb).trans (afterAnswer_replicate n l)
  have hpolls : polls s1.db7 = n := (congrArg polls hdb).trans (polls_replicate n l)
  have hevents := eventsSince_of_trace (s := s) (t := (selected 2 s1).ended) (selected_trace 2 s1)
  have hwait : waitEvents n = enter ++ (List.replicate n (poll true)).flatten ++ poll false ++ leave := by
    simp [waitEvents, pollEvents, enter, poll, leave]
  rw [hpolls, hwait] at hevents
  refine ⟨_, _, rfl, hst, rfl, hsamples, hevents.trans ?_⟩
  simp only [List.append_assoc]; rfl

/-- Settles O26: the events of a busy-wait without a busy answer, then those of the transfer. -/
theorem transferPinTrace : Obligations.TransferPinTrace := by
  intro s b l hr hp ha hdb wait transfer
  have hmem : false ∈ s.db7 := by simp [hdb]
  have hwait : waitEvents (polls s.db7) = wait := by rw [hdb]; rfl
  constructor
  · set s1 := s.taken 0x11 2 { s.lat with BY := b }
    have hevents := eventsSince_of_trace (s := s) (t := (commanded b s1).ended) (commanded_trace b s1)
    refine ⟨_, _, rfl, stepsTo_ended (acts := [.wcmd b]) (fun _ => runs_commanded b hmem hp ha) (by simp) hr, rfl,
      hevents.trans ?_⟩
    exact congrArg (· ++ transfer false) hwait
  · set s1 := s.taken 0x12 2 { s.lat with BY := b }
    have hevents := eventsSince_of_trace (s := s) (t := (written b s1).ended) (written_trace b s1)
    refine ⟨_, _, rfl, stepsTo_ended (acts := [.wdata b]) (fun _ => runs_written b hmem hp ha) (by simp) hr, rfl,
      hevents.trans ?_⟩
    exact congrArg (· ++ transfer true) hwait

/-! ## The number of busy-waits -/

theorem gotoBus_length (cfg : Config) (page column : Byte) :
    (gotoBus cfg page column).length = if coordsValid page column then 3 else 0 := by
  unfold gotoBus
  split <;> rfl

/-- A string that begins inside the panel places every character inside it (R143, R144). -/
theorem placements_lt {cur : Nat} (h : cur < 128) (text : List Byte) : ∀ p ∈ placements cur text, p.1 < 128 := by
  induction text generalizing cur with
  | nil => simp [placements]
  | cons ch text ih =>
    set c := if cur < 64 ∧ 64 < cur + 6 then 64 else cur with hc
    have hlt : c < 128 := by rw [hc]; split <;> omega
    intro p hp
    simp only [placements, ← hc, List.mem_cons] at hp
    obtain rfl | hp := hp
    · exact hlt
    split at hp
    · cases hp
    · exact ih (by omega) p hp

/-- Every character of a string on a page of the panel that begins inside it has nine busy-waits (R142, R175). -/
theorem stringBus_length (cfg : Config) {page : Byte} {cur : Nat} (hp : page.toNat < 8) (hc : cur < 128)
    (text : List Byte) : (stringBus cfg page cur text).length = 9 * (placements cur text).length := by
  have hchar : ∀ p ∈ placements cur text, (wcharBus cfg page (BitVec.ofNat 8 p.1) p.2).length = 9 := by
    intro p hmem
    have hlt := placements_lt hc text p hmem
    have hcol : (BitVec.ofNat 8 p.1).toNat < 128 := by rw [BitVec.toNat_ofNat]; omega
    rw [wcharBus_length, if_pos (coordsValid_of_lt hp hcol)]
  rw [stringBus, List.length_flatMap, List.map_congr_left hchar]
  simp [Nat.mul_comm]

/-- WPCT's busy-waits: the GOTO, the erase run, the characters placed (R146, R175). -/
theorem wpctBus_length (cfg : Config) (text : List Byte) :
    (wpctBus cfg text).length = 3 + cfg.labelEraseLen.toNat + 9 * (placements 100 text).length := by
  have hstring := stringBus_length cfg (page := labelPage) (cur := labelCol.toNat) (by decide) (by decide) text
  rw [wpctBus, List.length_append, List.length_append, gotoBus_length, if_pos coordsValid_label, List.length_map,
    List.length_replicate, hstring]
  rfl

/-- Settles O59: each entry of the bus trace of `carries_actsOf` takes one answer, and the entries are counted rule by
rule. -/
theorem busyWaitCounts : Obligations.BusyWaitCounts := by
  refine ⟨fun i text s hr hi hl ht ha h => ?_, fun cfg text => ?_⟩
  · set s1 := s.taken ((encode s.cfg i).headD 0) (encode s.cfg i).length (latched s.lat i)
    obtain ⟨t, c⟩ := carries_actsOf hi hl (s := s1) ht ha h
    refine ⟨_, t.ended, exec_host hi s, c.stepsTo hr, rfl, c.SP, ?_⟩
    have hsamples : t.ended.db7 = afterAnswers (busOf s.cfg text i).length s.db7 := c.db7
    rw [hsamples, count_afterAnswers, Nat.sub_add_cancel h.1]
  · refine ⟨fun _ => ⟨rfl, rfl, rfl, rfl⟩, fun _ => rfl, gotoBus_length cfg, wcharBus_length cfg, clearBus_length cfg,
      initBus_length cfg, fun height => ?_, fun _ herase => ?_⟩
    · rw [busOf]
      split
      · exact barBus_length cfg _
      · rfl
    · rw [busOf, wpctBus_length, herase]
      rfl

end Sys2Proof.Machine
end

section
/-! SUPPORT and the settling of O37 and O39: GOTO with valid coordinates from its acceptance to its end (R121, R122), and a
data write after it (R123). -/

namespace Sys2Proof.Machine

/-- GOTO with valid coordinates completes (R121). -/
theorem exec_goto_performed {page column : Byte} (hp : page.toNat < 8) (hc : column.toNat < 128) {s : State}
    (hr : s.rst_n = true) (h : s.answers 3) :
    ∃ u t, exec (.goto page column) s = .next u ∧ u.stepsTo t ∧ s.Performed t 0x03 3 (gotoBus s.cfg page column) ∧
      t.lat = { s.lat with OPC := 0x03, PG := page, COLR := column } ∧
      t.work = { s.work with CHIPID := (chipOf column).id.setWidth 2, LCOL := lcolOf column, SAMP := false } ∧
      t.DIAG = s.DIAG := by
  obtain ⟨t, p⟩ := proc_goTo_valid (coordsValid_of_lt hp hc)
    (s := s.taken 0x03 3 { s.lat with PG := page, COLR := column }) h
  exact ⟨_, _, rfl, p.exec (by simp) hr⟩

/-- GOTO leaves the column's chip selected (R102, R121). -/
theorem State.Performed.addressed_goto {s t : State} {page column opcode : Byte} {n : Nat}
    (h : s.Performed t opcode n (gotoBus s.cfg page column)) (hp : page.toNat < 8) (hc : column.toNat < 128)
    (hb : s.cfg.basesValid = true) : t.addressed = .one (chipOf column) := by
  rw [← selected_iff, h.cfg, h.pins, selected_exitPins]
  exact (displayEffect_goto hp hc hb _).2

/-- CHIPID holds the chip's number (R16, R121). -/
theorem chipId_number (k : ChipId) : (k.id.setWidth 2).toNat = k.index + 1 := by cases k <;> rfl

theorem toNat_setWidth_page {page : Byte} (h : page.toNat < 8) : (page.setWidth 3).toNat = page.toNat := by
  rw [BitVec.toNat_setWidth]
  exact Nat.mod_eq_of_lt h

/-- Settles O37: the display effect of GOTO's bus trace is `State.positioned`. -/
theorem gotoPositions : Obligations.GotoPositions := by
  intro page column s hr hp hc hb h
  obtain ⟨u, t, he, hst, hperf, hlat, hwork, hdiag⟩ := exec_goto_performed hp hc hr h
  have hd := hperf.display
  rw [(displayEffect_goto hp hc hb _).1] at hd
  have hregs := regs_chip hd (chipOf column)
  simp only [positioned_chip, Chip.regs, Prod.mk.injEq] at hregs
  obtain ⟨hX, hY, hZ, hON⟩ := hregs
  refine ⟨u, t, he, hst, gotoBus_valid (coordsValid_of_lt hp hc) ▸ hperf, hlat, hdiag, ?_, ?_, ?_, ?_,
    hperf.addressed_goto hp hc hb, ?_, hY, hZ, hON, fun j hj => ?_, fun j p l => ?_⟩
  · rw [hwork]; exact ⟨rfl, rfl, rfl, rfl⟩
  · rw [hwork]; exact ⟨rfl, rfl, rfl, rfl, rfl, rfl⟩
  · rw [hwork]; exact chipId_number _
  · rw [hwork]
  · rw [hX, toNat_setWidth_page hp]
  · rw [State.SameChip, regs_chip hd, positioned_other s page hj]
  · rw [ddram_of_display hd, positioned_ddram]

/-- The answers an operation has not taken are left to the next (R175). -/
theorem State.Performed.answers {s t : State} {opcode : Byte} {m n : Nat} {es : List BusEntry}
    (h : s.Performed t opcode m es) (ha : s.answers (es.length + n)) : t.answers n := by
  obtain ⟨hcount, hpulse⟩ := ha
  refine ⟨?_, fun hn => ?_⟩
  · rw [h.db7]; omega
  · rw [h.cfg]; exact hpulse (by omega)

/-- Settles O39: `gotoPositions` gives the cursor at which `wdataStores` stores the byte. -/
theorem gotoThenWdata : Obligations.GotoThenWdata := by
  intro page column b s hr hp hc hb h
  obtain ⟨u, t, he, hst, hgoto, -, -, -, -, -, -, haddr, hX, hY, -, -, -, hsame⟩ :=
    gotoPositions page column s hr hp hc hb (answers_mono h (by decide))
  obtain ⟨v, w, he', hst', hwdata, -, -, -, hstored, houtside, -⟩ :=
    wdataStores b _ _ t (hgoto.rst.trans hr) (hgoto.answers h) haddr hY
  have hpage : (t.chip (chipOf column)).X = page.setWidth 3 :=
    BitVec.eq_of_toNat_eq (hX.trans (toNat_setWidth_page hp).symm)
  rw [hpage] at hstored houtside
  refine ⟨u, t, v, w, he, hst, hgoto.run, hgoto.sp, he', hst', hwdata.run, ?_, hstored, fun k p l hne => ?_⟩
  · rw [hwdata.sp, hgoto.sp]
  · rw [houtside k p l hne, hsame]

end Sys2Proof.Machine
end

section
/-! SUPPORT and the settling of O40: WCHAR with any operands from its acceptance to its end (R130 to R133). -/

namespace Sys2Proof.Machine

/-- WCHAR completes whatever its operands (R130). -/
theorem exec_wchar_completes (page column ch : Byte) {s : State} (hr : s.rst_n = true) (ha : s.addressed ≠ .both)
    (h : s.answers (wcharBus s.cfg page column ch).length) :
    ∃ u t, exec (.wchar page column ch) s = .next u ∧ u.stepsTo t ∧
      s.Performed t 0x04 4 (wcharBus s.cfg page column ch) ∧
      t.lat = { s.lat with OPC := 0x04, PG := page, COLR := column, CH := ch } ∧
      t.work = wcharWork s.cfg page column ch s.work ∧ t.DIAG = wcharDiag s.cfg page column ch s.DIAG := by
  obtain ⟨t, p⟩ := proc_wchar (p := page) (c := column) (ch := ch)
    (s := s.taken 0x04 4 { s.lat with PG := page, COLR := column, CH := ch }) h (.inr ha)
  exact ⟨_, _, rfl, p.exec (by simp) hr⟩

theorem coordsValid_iff {page column : Byte} :
    coordsValid page column = true ↔ page.toNat < 8 ∧ column.toNat < 128 := by
  rw [coordsValid, Bool.and_eq_true, decide_eq_true_iff, decide_eq_true_iff]
  rfl

theorem not_coordsValid (page column : Byte) :
    (!coordsValid page column) = (decide (8 ≤ page.toNat) || decide (128 ≤ column.toNat)) := by
  rw [Bool.eq_iff_iff, Bool.not_eq_true', ← Bool.not_eq_true, coordsValid_iff, Bool.or_eq_true, decide_eq_true_iff,
    decide_eq_true_iff]
  omega

/-- R131: the glyph index, the range written out. -/
theorem glyphIndex_eq (cfg : Config) (ch : Byte) : glyphIndex cfg ch =
    if cfg.firstCode.toNat ≤ ch.toNat ∧ ch.toNat ≤ cfg.lastCode.toNat then ch - cfg.firstCode else cfg.blankIndex :=
  if_congr (by simp [supported]) rfl rfl

/-- Settles O40: the bus trace, the registers and DIAG are those of `exec_wchar_completes`. -/
theorem wcharSendsSixBytes : Obligations.WcharSendsSixBytes := by
  intro page column ch s hr ha h idx column'
  have hidx : glyphIndex s.cfg ch = idx := glyphIndex_eq s.cfg ch
  have hlen : (wcharBus s.cfg page column ch).length = if page.toNat < 8 ∧ column.toNat < 128 then 9 else 6 := by
    rw [wcharBus_length]
    exact if_congr coordsValid_iff rfl rfl
  obtain ⟨u, t, he, hst, hperf, hlat, hwork, hdiag⟩ := exec_wchar_completes page column ch hr ha (hlen ▸ h)
  have hbus : wcharBus s.cfg page column ch = gotoBus s.cfg page column ++
      [column' 0, column' 1, column' 2, column' 3, column' 4, .data 0x00] := by
    rw [wcharBus, charBytes, hidx]
    rfl
  refine ⟨u, t, he, hst, hbus ▸ hperf, hlat, ?_, ?_, ?_, ?_, ?_, ?_, ?_⟩
  · rw [hdiag, wcharDiag, not_coordsValid]
    rfl
  · rw [hwork, ← hidx]; rfl
  · rw [hwork]; exact ⟨rfl, rfl, rfl, rfl⟩
  all_goals rw [hwork]; rfl

end Sys2Proof.Machine
end

section
/-! SUPPORT and the settling of O43: after the look-up of its glyph a character's acts read neither the operand latches nor
DIAG (R15, R130, R173), so that two characters of one glyph run alike (R131). -/

namespace Sys2Proof.Machine

/-! ## Acts that read no latch -/

/-- `s` with other operand latches and diagnostic bits. -/
def State.relabelled (s : State) (l : Latches) (d : BitVec 4) : State := { s with lat := l, DIAG := d }

/-- The acts of a character after the look-up of its glyph, and those of the procedures it calls (R101 to R104, R121,
R130). -/
def Act.draws : Act → Bool
  | .dir _ | .dbw _ | .pin _ _ | .rd7 | .delay _ | .fsm _ | .setK _ | .busyWait | .poll | .selChip _ | .wcmd _ | .wdata _
  | .goTo _ _ | .glyphCol | .finish => true
  | _ => false

/-- A drawing act leads from `s` to `t`, calling drawing acts only, and `out`, its answer in a state with the latches `l`, is
`t` with those latches and some diagnostic bits. -/
def DrawsTo (s t : State) (l : Latches) (out : Out) : Prop :=
  (∃ body, t.todo = body ++ s.todo ∧ body.all Act.draws = true) ∧ ∃ d, out = .next (t.relabelled l d)

section
variable (l : Latches) (d : BitVec 4)

theorem relabelled_chip (s : State) (k : ChipId) : (s.relabelled l d).chip k = s.chip k := by cases k <;> rfl

theorem dataOn_relabelled (b : Byte) (k : ChipId) (s : State) :
    dataOn b k (s.relabelled l d) = (dataOn b k s).relabelled l d := by
  unfold dataOn
  simp only [relabelled_chip]
  split <;> cases k <;> rfl

theorem commandOn_relabelled (b : Byte) (k : ChipId) (s : State) :
    commandOn b k (s.relabelled l d) = (commandOn b k s).relabelled l d := by
  have hcfg : (s.relabelled l d).cfg = s.cfg := rfl
  unfold commandOn setPageOn setColOn displayOnOn startLineOn unknownCommandOn
  simp only [relabelled_chip, hcfg]
  split <;> cases k <;> rfl

theorem transferOn_relabelled (rs : Bool) (b : Byte) (k : ChipId) (s : State) :
    transferOn rs b k (s.relabelled l d) = (transferOn rs b k s).relabelled l d := by
  unfold transferOn
  split
  · exact dataOn_relabelled l d b k s
  · exact commandOn_relabelled l d b k s

theorem latchByte_relabelled {s t : State} (h : latchByte s = .next t) :
    latchByte (s.relabelled l d) = .next (t.relabelled l d) := by
  have haddr : (s.relabelled l d).addressed = s.addressed := rfl
  rw [latchByte_forAddressed] at h ⊢
  unfold State.forAddressed at h ⊢
  rw [haddr]
  split at h
  · cases h; rfl
  · rename_i k _
    split at h <;> rename_i hp
    · cases h
      exact (if_pos hp).trans (congrArg _ (transferOn_relabelled l d _ _ k s))
    · cases h
  · cases h

theorem drivePin_drawsTo {n : PinName} {b : Bool} {s t : State} (h : drivePin n b s = .next t) :
    DrawsTo s t l (drivePin n b (s.relabelled l d)) := by
  have silent : t.todo = s.todo → drivePin n b (s.relabelled l d) = .next (t.relabelled l d) →
      DrawsTo s t l (drivePin n b (s.relabelled l d)) :=
    fun htodo hout => ⟨⟨[], htodo, rfl⟩, d, hout⟩
  cases n with
  | E =>
    have e : ∀ w : State, drivePin .E b w =
      if !b && w.pins.writePulse then latchByte (w.line .E b) else .next (w.line .E b) := fun _ => rfl
    rw [e] at h
    split at h <;> rename_i hw
    · obtain ⟨-, -, -, -, -, -, -, -, htodo, -⟩ := latchByte_frame h
      exact silent htodo ((if_pos hw).trans (latchByte_relabelled l d h))
    · cases h
      exact silent rfl (if_neg hw)
  | RSTN =>
    have e : ∀ w : State, drivePin .RSTN b w =
      if b && w.pins.RSTN then .next (w.line .RSTN b) else .next (w.line .RSTN b).panelReset := fun _ => rfl
    rw [e] at h
    split at h <;> rename_i hb <;> cases h
    · exact silent rfl (if_pos hb)
    · exact silent rfl (if_neg hb)
  | RS | RW | CS1 | CS2 => cases h; exact silent rfl rfl

theorem readDB7_drawsTo {s t : State} (h : readDB7 s = .next t) : DrawsTo s t l (readDB7 (s.relabelled l d)) := by
  unfold readDB7 at h
  split at h
  · cases h
  rename_i hd
  split at h
  · cases h
  rename_i ha
  split at h
  · cases h
  rename_i hp
  cases h
  refine ⟨⟨afterSample s.busLevel, rfl, ?_⟩, d, (if_neg hd).trans ((if_neg ha).trans (if_neg hp))⟩
  cases s.busLevel <;> rfl

theorem selChipBody_draws (cfg : Config) (id : Byte) : (selChipBody cfg id).all Act.draws = true := by
  unfold selChipBody assertBody
  split_ifs <;> rfl

/-- A drawing act does the same with other latches and diagnostic bits, and calls drawing acts only. -/
theorem act_drawsTo {a : Act} {s t : State} (ha : a.draws = true) (h : act a s = .next t) :
    DrawsTo s t l (act a (s.relabelled l d)) := by
  have body : ∀ b : List Act, b.all Act.draws = true →
      act a (s.relabelled l d) = .next ((s.relabelled l d).call b) → act a s = .next (s.call b) →
      DrawsTo s t l (act a (s.relabelled l d)) := by
    intro b hb hu hs
    obtain rfl : s.call b = t := Host.Outcome.next.inj (hs.symm.trans h)
    exact ⟨⟨b, rfl, hb⟩, d, hu⟩
  cases a with
  | pin n b => exact drivePin_drawsTo l d h
  | rd7 => exact readDB7_drawsTo l d h
  | goTo p c =>
    cases h
    show DrawsTo s _ l (.next (startGoTo p c (s.relabelled l d)))
    unfold startGoTo
    split
    · exact ⟨⟨goToBody s.cfg p c, rfl, rfl⟩, d, rfl⟩
    · exact ⟨⟨[], rfl, rfl⟩, raise .COORD d, rfl⟩
  | busyWait => exact body busyWaitBody rfl rfl rfl
  | poll => exact body pollBody rfl rfl rfl
  | selChip id => exact body (selChipBody s.cfg id) (selChipBody_draws s.cfg id) rfl rfl
  | wcmd b => exact body (wcmdBody b) rfl rfl rfl
  | wdata b => exact body (wdataBody b) rfl rfl rfl
  | glyphCol => exact body [.wdata (s.cfg.fontByte s.work.IDX.toNat s.work.K.toNat)] rfl rfl rfl
  | dir _ | dbw _ | delay _ | fsm _ | setK _ | finish => cases h; exact ⟨⟨[], rfl, rfl⟩, d, rfl⟩
  | _ => cases ha

end

/-! ## Runs -/

/-- A run that only draws is one with other latches and diagnostic bits too. -/
theorem Runs.relabelled {s t : State} (h : Runs s t) (hs : s.todo.all Act.draws = true) (l : Latches) (d : BitVec 4) :
    ∃ d', Runs (s.relabelled l d) (t.relabelled l d') := by
  induction h using Relation.ReflTransGen.head_induction_on generalizing d with
  | refl => exact ⟨d, Runs.refl _⟩
  | @head s u htick _ ih =>
    obtain ⟨hne, ht⟩ := htick
    obtain ⟨a, rest, htodo⟩ := List.exists_cons_of_ne_nil hne
    rw [htodo, List.all_cons, Bool.and_eq_true] at hs
    obtain ⟨ha, hrest⟩ := hs
    have hs : s = s.doing (a :: rest) := by rw [← htodo, doing_self]
    rw [hs] at ht
    obtain ⟨⟨body, hu, hbody⟩, d1, hact⟩ := act_drawsTo l d (s := s.doing rest) ha ht
    obtain ⟨d', hruns⟩ := ih (by rw [hu, List.all_append, hbody, Bool.true_and]; exact hrest) d1
    rw [hs]
    exact ⟨d', (runs_act (s := s.relabelled l d) hact).trans hruns⟩

/-- A run past its first act goes on from where that act leads. -/
theorem Runs.after_act {s t u : State} {a : Act} {rest : List Act} (h : Runs (s.doing (a :: rest)) t)
    (ht : t.todo = []) (hact : act a (s.doing rest) = .next u) : Runs u t := by
  obtain rfl | ⟨v, ⟨-, htick⟩, hruns⟩ := Relation.ReflTransGen.cases_head h
  · cases ht
  · have : u = v := Host.Outcome.next.inj (hact.symm.trans htick)
    exact this ▸ hruns

/-- R131: a character run to its end is, but for the latches and DIAG, the run of any character of the same glyph. -/
theorem Runs.same_glyph {page column ch ch' : Byte} {s t : State} (hg : glyphIndex s.cfg ch' = glyphIndex s.cfg ch)
    (h : Runs (s.doing [.wchar page column ch, .finish]) t) (ht : t.todo = []) (l : Latches) :
    ∃ d, Runs ((s.relabelled l s.DIAG).doing [.wchar page column ch', .finish]) (t.relabelled l d) := by
  obtain ⟨d, hruns⟩ := (h.after_act ht rfl).relabelled rfl l (raiseIf (!supported s.cfg ch') .CHSUB s.DIAG)
  refine ⟨d, ((runs_wchar (s.relabelled l s.DIAG) [.finish] page column ch').to ?_).trans hruns⟩
  have hg' : glyphIndex (s.relabelled l s.DIAG).cfg ch' = glyphIndex s.cfg ch := hg
  rw [hg']
  rfl

/-- R130, R131, R171: an unsupported character is recorded whatever its coordinates. -/
theorem raised_wcharDiag {cfg : Config} {ch : Byte} (h : supported cfg ch = false) (page column : Byte) (d : BitVec 4) :
    raised .CHSUB (wcharDiag cfg page column ch d) = true := by
  rw [wcharDiag, h]
  cases coordsValid page column <;> simp [raised, raiseIf, raise, DiagBit.index]

/-- Settles O43: after the look-up of the glyph the two runs differ in the latches and DIAG only. -/
theorem unsupportedDrawsBlank : Obligations.UnsupportedDrawsBlank := by
  intro page column bad blank s hr ha h hbad hblank hidx
  set s1 : Byte → State := fun ch => s.taken 0x04 4 { s.lat with PG := page, COLR := column, CH := ch }
  have hlen : (wcharBus s.cfg page column bad).length ≤ 9 := by
    rw [wcharBus_length]
    split <;> decide
  have hglyph : glyphIndex s.cfg blank = glyphIndex s.cfg bad := by
    rw [glyphIndex, if_pos hblank, glyphIndex, hbad, hidx]
    rfl
  obtain ⟨t, p⟩ := proc_wchar (p := page) (c := column) (ch := bad) (s := s1 bad) (answers_mono h hlen) (.inr ha)
  have hruns : Runs ((s1 bad).doing [.wchar page column bad, .finish]) t.ended :=
    (p.runs [.finish]).trans (runs_finish t [])
  obtain ⟨d, hruns'⟩ := Runs.same_glyph (s := s1 bad) hglyph hruns rfl (s1 blank).lat
  have steps : ∀ {ch : Byte} {v : State}, Runs ((s1 ch).doing [.wchar page column ch, .finish]) v →
      ((s1 ch).doing [.wchar page column ch, .finish]).stepsTo v :=
    fun hv => Runs.stepsTo hv hr rfl ⟨[.wchar page column _], rfl, by simp⟩
  have hchsub : raised .CHSUB t.ended.DIAG = true := by
    have hdiag : t.ended.DIAG = _ := p.DIAG
    rw [hdiag]
    exact raised_wcharDiag hbad page column s.DIAG
  exact ⟨_, t.ended, _, t.ended.relabelled _ d, rfl, steps hruns, rfl, p.SP, rfl, steps hruns', rfl, p.SP, rfl, rfl, hchsub⟩

end Sys2Proof.Machine
end

section
/-! SUPPORT and the settling of O46: the picture of a list of characters (R130, R142, R143). A character that fits stands at
six columns of one chip, and the placed characters of a string follow one another at a distance of six columns or more. -/

namespace Sys2Proof.Machine

/-! ## The cells of a character -/

/-- The six columns of a character at column `c` are on one chip (R143). -/
def CharFits (c : Nat) : Prop := c ≤ 58 ∨ 64 ≤ c ∧ c ≤ 122

/-- The cell holds one of the six bytes of a character at column `c` of a page (R130). -/
def CharCell (page : Byte) (c : Nat) (k : ChipId) (p : BitVec 3) (l : BitVec 6) : Prop :=
  p = page.setWidth 3 ∧ ∃ i, i < 6 ∧ k = chipOf (BitVec.ofNat 8 c) ∧ l = lcolOf (BitVec.ofNat 8 (c + i))

theorem CharFits.lt {c : Nat} (h : CharFits c) : c < 128 := by unfold CharFits at h; omega

theorem toNat_column {n : Nat} (h : n < 128) : (BitVec.ofNat 8 n).toNat = n := by rw [BitVec.toNat_ofNat]; omega

/-- R120: the local column is the logical one without its chip. -/
theorem lcolOf_column {n : Nat} (h : n < 128) : (lcolOf (BitVec.ofNat 8 n)).toNat = n % 64 := by
  have hn := toNat_column h
  have heq := column_eq (c := BitVec.ofNat 8 n) (by rw [hn]; exact h)
  rw [hn] at heq
  have hl := (lcolOf (BitVec.ofNat 8 n)).isLt
  omega

theorem chipOf_column {n : Nat} (h : n < 128) : (chipOf (BitVec.ofNat 8 n)).index = n / 64 := by
  have hn := toNat_column h
  have heq := column_eq (c := BitVec.ofNat 8 n) (by rw [hn]; exact h)
  rw [hn] at heq
  have hl := (lcolOf (BitVec.ofNat 8 n)).isLt
  omega

theorem CharFits.lcol_le {c : Nat} (h : CharFits c) : (lcolOf (BitVec.ofNat 8 c)).toNat ≤ 58 := by
  rw [lcolOf_column h.lt]
  unfold CharFits at h
  omega

/-- The columns of a character that fits follow one another on its chip. -/
theorem CharFits.lcol_add {c i : Nat} (h : CharFits c) (hi : i < 6) :
    lcolOf (BitVec.ofNat 8 (c + i)) = lcolOf (BitVec.ofNat 8 c) + BitVec.ofNat 6 i := by
  apply BitVec.eq_of_toNat_eq
  have hlt := h.lt
  unfold CharFits at h
  rw [BitVec.toNat_add, BitVec.toNat_ofNat, lcolOf_column hlt, lcolOf_column (by omega)]
  omega

/-- Characters six columns apart share no cell. -/
theorem CharCell.apart {page : Byte} {c d i : Nat} (hc : CharFits c) (hd : CharFits d) (hcd : c + 6 ≤ d) (hi : i < 6) :
    ¬ CharCell page d (chipOf (BitVec.ofNat 8 c)) (page.setWidth 3) (lcolOf (BitVec.ofNat 8 (c + i))) := by
  rintro ⟨-, j, hj, hk, hl⟩
  have hclt := hc.lt
  have hdlt := hd.lt
  have hchip := congrArg ChipId.index hk
  rw [chipOf_column hclt, chipOf_column hdlt] at hchip
  have hcol := congrArg BitVec.toNat hl
  unfold CharFits at hc hd
  rw [lcolOf_column (by omega), lcolOf_column (by omega)] at hcol
  omega

/-! ## Display effect -/

/-- R130: a character that fits stands at its six cells, and every other byte reads as before. -/
theorem displayEffect_char {page : Byte} (hp : page.toNat < 8) {c : Nat} (hc : CharFits c) (ch : Byte) {s : State}
    (hb : s.cfg.basesValid = true) (k : Option ChipId) :
    let t := displayEffect k (wcharBus s.cfg page (BitVec.ofNat 8 c) ch) s
    (∀ i (h : i < 6), t.ddram (chipOf (BitVec.ofNat 8 c)) (page.setWidth 3) (lcolOf (BitVec.ofNat 8 (c + i))) =
      some ((charBytes s.cfg ch)[i]'h)) ∧
    s.BytesOutside t (CharCell page c) := by
  set col := BitVec.ofNat 8 c with hcol
  have hlt : col.toNat < 128 := by rw [hcol, toNat_column hc.lt]; exact hc.lt
  have hle : (lcolOf col).toNat ≤ 58 := hc.lcol_le
  have hlen : (charBytes s.cfg ch).length = 6 := rfl
  have hchip := positioned_chip s page col
  obtain ⟨hbytes, hframe, -⟩ := displayEffect_run (charBytes s.cfg ch) (k := chipOf col) (s := s.positioned page col)
    (y := lcolOf col) (by rw [hchip]) (by omega)
  rw [← displayEffect_wchar hp hlt hb k, hchip] at hbytes hframe
  refine ⟨fun i hi => ?_, fun j p l hne => ?_⟩
  · rw [hc.lcol_add hi]
    exact hbytes i hi
  · rw [hframe j p l, positioned_ddram]
    rintro ⟨rfl, rfl, hfrom, hto⟩
    refine hne ⟨rfl, l.toNat - (lcolOf col).toNat, by omega, rfl, ?_⟩
    rw [hc.lcol_add (by omega), ← hcol]
    apply BitVec.eq_of_toNat_eq
    rw [BitVec.toNat_add, BitVec.toNat_ofNat]
    have hl := l.isLt
    omega

/-- The bus trace of a list of characters and their columns (R142). -/
def charsBus (cfg : Config) (page : Byte) (ps : List (Nat × Byte)) : List BusEntry :=
  ps.flatMap fun p => wcharBus cfg page (BitVec.ofNat 8 p.1) p.2

/-- Characters that fit and do not overlap stand at their cells, and every other byte reads as before. -/
theorem displayEffect_chars {page : Byte} (hp : page.toNat < 8) (ps : List (Nat × Byte)) {s : State}
    (hb : s.cfg.basesValid = true) (hfits : ∀ p ∈ ps, CharFits p.1) (hapart : ps.Pairwise fun p q => p.1 + 6 ≤ q.1)
    (k : Option ChipId) :
    let t := displayEffect k (charsBus s.cfg page ps) s
    (∀ p ∈ ps, ∀ i (h : i < 6), t.ddram (chipOf (BitVec.ofNat 8 p.1)) (page.setWidth 3)
      (lcolOf (BitVec.ofNat 8 (p.1 + i))) = some ((charBytes s.cfg p.2)[i]'h)) ∧
    s.BytesOutside t (fun j q l => ∃ p ∈ ps, CharCell page p.1 j q l) := by
  induction ps generalizing s k with
  | nil => exact ⟨nofun, fun _ _ _ _ => rfl⟩
  | cons p ps ih =>
    obtain ⟨hfit, hfits⟩ := List.forall_mem_cons.mp hfits
    obtain ⟨hafter, hapart⟩ := List.pairwise_cons.mp hapart
    set bus := wcharBus s.cfg page (BitVec.ofNat 8 p.1) p.2 with hbus
    obtain ⟨hbytes, hframe⟩ := displayEffect_char hp hfit p.2 hb k
    rw [← hbus] at hbytes hframe
    have hcfg : (displayEffect k bus s).cfg = s.cfg := displayEffect_cfg ..
    obtain ⟨gbytes, gframe⟩ := ih (s := displayEffect k bus s) (by rw [hcfg]; exact hb) hfits hapart (receiver k bus)
    rw [hcfg] at gbytes gframe
    have hsplit : displayEffect k (charsBus s.cfg page (p :: ps)) s =
        displayEffect (receiver k bus) (charsBus s.cfg page ps) (displayEffect k bus s) := displayEffect_append k bus _ s
    simp only [hsplit]
    refine ⟨List.forall_mem_cons.mpr ⟨fun i hi => ?_, gbytes⟩, fun j q l hne => ?_⟩
    · rw [gframe, hbytes i hi]
      rintro ⟨q, hq, hcell⟩
      exact CharCell.apart hfit (hfits q hq) (hafter q hq) hi hcell
    · rw [gframe, hframe]
      · exact fun hcell => hne ⟨p, List.mem_cons_self, hcell⟩
      · rintro ⟨r, hr, hcell⟩
        exact hne ⟨r, List.mem_cons_of_mem p hr, hcell⟩

/-! ## Placements -/

/-- R143, R144: the first character of a string stands at the snapped cursor, the others are placed from six columns
further on. -/
theorem placements_cons (cur : Nat) (ch : Byte) (text : List Byte) : ∃ c, cur ≤ c ∧ (c ≤ 58 ∨ 64 ≤ c) ∧
    (placements cur (ch :: text) = [(c, ch)] ∨ placements cur (ch :: text) = (c, ch) :: placements (c + 6) text) := by
  set c := if cur < 64 ∧ 64 < cur + 6 then 64 else cur with hc
  refine ⟨c, by rw [hc]; split <;> omega, by rw [hc]; split <;> omega, ?_⟩
  simp only [placements, ← hc]
  split
  · exact .inl rfl
  · exact .inr rfl

/-- R143: no placed character straddles the seam, and each stands at or after the cursor. -/
theorem placements_from (cur : Nat) (text : List Byte) :
    ∀ p ∈ placements cur text, cur ≤ p.1 ∧ (p.1 ≤ 58 ∨ 64 ≤ p.1) := by
  induction text generalizing cur with
  | nil => exact nofun
  | cons ch text ih =>
    obtain ⟨c, hcur, hseam, heq | heq⟩ := placements_cons cur ch text <;> rw [heq]
    · exact List.forall_mem_singleton.mpr ⟨hcur, hseam⟩
    · refine List.forall_mem_cons.mpr ⟨⟨hcur, hseam⟩, fun p hp => ?_⟩
      obtain ⟨hle, hseam'⟩ := ih (c + 6) p hp
      exact ⟨by omega, hseam'⟩

/-- R142: of two placed characters the later stands six columns after the earlier, or further. -/
theorem placements_apart (cur : Nat) (text : List Byte) :
    (placements cur text).Pairwise fun p q => p.1 + 6 ≤ q.1 := by
  induction text generalizing cur with
  | nil => exact .nil
  | cons ch text ih =>
    obtain ⟨c, -, -, heq | heq⟩ := placements_cons cur ch text <;> rw [heq]
    · exact List.pairwise_singleton _ _
    · exact List.pairwise_cons.mpr ⟨fun q hq => (placements_from (c + 6) text q hq).1, ih (c + 6)⟩

/-- Settles O46: the display effect of the string's bus trace is that of its placed characters. -/
theorem wstrPicture : Obligations.WstrPicture := by
  intro page column len text s hr hlen ht hp hc hedge ha hb h
  obtain ⟨u, t, he, hst, -, -, -, -, -, -, hram⟩ :=
    everyOperationFollowsItsBusTrace (.wstr page column len) text s hr rfl hlen ht ha h
  have hdd : ∀ k p l, t.ddram k p l =
      (displayEffect (s.pins.selected s.cfg) (charsBus s.cfg page (placements column.toNat text)) s).ddram k p l :=
    fun k p l => congrArg (Memory.read · (ddramKey k p l)) hram
  have hfits : ∀ p ∈ placements column.toNat text, CharFits p.1 := by
    intro p hmem
    obtain ⟨-, hseam⟩ := placements_from _ _ p hmem
    have hle := hedge p hmem
    unfold CharFits
    omega
  obtain ⟨hbytes, hframe⟩ := displayEffect_chars hp _ hb hfits (placements_apart _ text) (s.pins.selected s.cfg)
  refine ⟨u, t, he, hst, fun c ch hmem i hi => (hdd ..).trans (hbytes (c, ch) hmem i hi), fun k p l hne => ?_⟩
  rw [hdd, hframe k p l]
  rintro ⟨⟨c, ch⟩, hmem, hpage, i, hi, hk, hl⟩
  exact hne ⟨hpage, c, ch, i, hmem, hi, hk, hl⟩

end Sys2Proof.Machine
end

section
/-! SUPPORT and the settling of O44, O51, O52 and O53: the display effect of whole rows of 64 bytes (R48, R140), and CLEAR
and BAR from their acceptance to their end (R140, R141, R148 to R150). -/

namespace Sys2Proof.Machine

/-! ## Whole rows -/

theorem chipOf_base (k : ChipId) : chipOf (chipBase k) = k := by cases k <;> rfl

theorem lcolOf_base (k : ChipId) : lcolOf (chipBase k) = 0 := by cases k <;> rfl

theorem chipBase_lt (k : ChipId) : (chipBase k).toNat < 128 := by cases k <;> decide

theorem rowBus_eq (cfg : Config) {p : Nat} (hp : p < 8) (k : ChipId) (bytes : List Byte) :
    rowBus cfg p k bytes = gotoBus cfg (BitVec.ofNat 8 p) (chipBase k) ++ bytes.map .data := by
  cases k with
  | chip1 => exact (gotoBus_row cfg hp bytes).1.symm
  | chip2 => exact (gotoBus_row cfg hp bytes).2.symm

/-- R48, R140: a row holds its 64 bytes, and its chip's cursor stands after the last column of the row's page. -/
theorem displayEffect_row {p : Nat} (hp : p < 8) (k : ChipId) {bytes : List Byte} (hn : bytes.length = 64) {s : State}
    (hb : s.cfg.basesValid = true) (r : Option ChipId) :
    let t := displayEffect r (rowBus s.cfg p k bytes) s
    (∀ j q (l : BitVec 6), t.ddram j q l = if q.toNat = p ∧ j = k then bytes[l.toNat]? else s.ddram j q l) ∧
    (t.chip k).regs = (BitVec.ofNat 3 p, s.cfg.colAfter63, (s.chip k).Z, (s.chip k).ON) ∧
    ∀ j, j ≠ k → t.chip j = s.chip j := by
  set page := BitVec.ofNat 8 p with hpage
  have hlt : page.toNat < 8 := by rw [hpage, BitVec.toNat_ofNat]; omega
  have hX : (page.setWidth 3).toNat = p := by rw [toNat_setWidth_page hlt, hpage, BitVec.toNat_ofNat]; omega
  obtain ⟨hgoto, hrecv⟩ := displayEffect_goto hlt (chipBase_lt k) hb r
  have hchip := positioned_chip s page (chipBase k)
  rw [chipOf_base, lcolOf_base] at hchip
  have hrun := displayEffect_run bytes (k := k) (s := s.positioned page (chipBase k)) (y := 0) (by rw [hchip])
    (by rw [hn]; decide)
  obtain ⟨hbytes, hframe, hregs, hothers⟩ := hrun
  rw [hchip] at hbytes hframe hregs
  rw [rowBus_eq s.cfg hp, displayEffect_append, hgoto, hrecv, chipOf_base]
  refine ⟨fun j q l => ?_, ?_, fun j hj => ?_⟩
  · have hl := l.isLt
    split
    · next h =>
      obtain ⟨hq, rfl⟩ := h
      obtain rfl : q = page.setWidth 3 := BitVec.eq_of_toNat_eq (hq.trans hX.symm)
      have hcol : (0 : BitVec 6) + BitVec.ofNat 6 l.toNat = l := by simp
      rw [List.getElem?_eq_getElem (by omega), ← hbytes l.toNat (by omega), hcol]
    · next h =>
      rw [hframe j q l, positioned_ddram]
      rintro ⟨rfl, rfl, -⟩
      exact h ⟨hX, rfl⟩
  · have hend : columnEnd s.cfg 0 64 = s.cfg.colAfter63 := by simp [columnEnd]
    have hp3 : page.setWidth 3 = BitVec.ofNat 3 p := BitVec.eq_of_toNat_eq (by rw [hX, BitVec.toNat_ofNat]; omega)
    rw [hregs, hn, positioned_cfg, hend, hp3]
  · rw [hothers j hj, positioned_other s page (by rwa [chipOf_base])]

/-- The bus trace of rows, each a page of a chip, that are overwritten with the same bytes (R140, R148). -/
def rowsBus (cfg : Config) (bytes : List Byte) (rows : List (Nat × ChipId)) : List BusEntry :=
  rows.flatMap fun r => rowBus cfg r.1 r.2 bytes

/-- A chip's registers after rows: each row of the chip leaves its page and the column after the last one (R48). -/
def rowsRegs (cfg : Config) (j : ChipId) (rows : List (Nat × ChipId))
    (regs : BitVec 3 × Option (BitVec 6) × BitVec 6 × Bool) : BitVec 3 × Option (BitVec 6) × BitVec 6 × Bool :=
  rows.foldl (fun regs r => if r.2 = j then (BitVec.ofNat 3 r.1, cfg.colAfter63, regs.2.2) else regs) regs

theorem receiver_rows (cfg : Config) (bytes : List Byte) (rows : List (Nat × ChipId)) (k : Option ChipId) :
    receiver k (rowsBus cfg bytes rows) = rows.foldl (fun _ r => some r.2) k := by
  induction rows generalizing k with
  | nil => rfl
  | cons r rows ih =>
    have hrow : receiver k (rowBus cfg r.1 r.2 bytes) = some r.2 := receiver_data (some r.2) bytes
    rw [rowsBus, List.flatMap_cons, receiver_append, hrow]
    exact ih _

theorem displayEffect_rows {bytes : List Byte} (hn : bytes.length = 64) (rows : List (Nat × ChipId))
    (hp : ∀ r ∈ rows, r.1 < 8) {s : State} (hb : s.cfg.basesValid = true) (k : Option ChipId) :
    let t := displayEffect k (rowsBus s.cfg bytes rows) s
    (∀ j q (l : BitVec 6), t.ddram j q l = if (q.toNat, j) ∈ rows then bytes[l.toNat]? else s.ddram j q l) ∧
    ∀ j, (t.chip j).regs = rowsRegs s.cfg j rows (s.chip j).regs := by
  induction rows generalizing s k with
  | nil => exact ⟨fun j q l => (if_neg nofun).symm, fun _ => rfl⟩
  | cons r rows ih =>
    obtain ⟨hr, hp⟩ := List.forall_mem_cons.mp hp
    set bus := rowBus s.cfg r.1 r.2 bytes with hbus
    obtain ⟨hbytes, hregs, hothers⟩ := displayEffect_row hr r.2 hn hb k
    rw [← hbus] at hbytes hregs hothers
    have hcfg : (displayEffect k bus s).cfg = s.cfg := displayEffect_cfg ..
    obtain ⟨gbytes, gregs⟩ := ih hp (s := displayEffect k bus s) (by rw [hcfg]; exact hb) (receiver k bus)
    rw [hcfg] at gbytes gregs
    have hsplit : displayEffect k (rowsBus s.cfg bytes (r :: rows)) s =
        displayEffect (receiver k bus) (rowsBus s.cfg bytes rows) (displayEffect k bus s) := displayEffect_append k bus _ s
    simp only [hsplit]
    refine ⟨fun j q l => ?_, fun j => ?_⟩
    · rw [gbytes, hbytes]
      by_cases hrow : (q.toNat, j) = r
      · simp [← hrow]
      · have hne : ¬ (q.toNat = r.1 ∧ j = r.2) := fun h => hrow (Prod.ext h.1 h.2)
        simp only [List.mem_cons, hrow, false_or, if_neg hne]
    · have hfirst : ((displayEffect k bus s).chip j).regs = rowsRegs s.cfg j [r] (s.chip j).regs := by
        by_cases hj : j = r.2
        · subst hj
          rw [hregs]
          exact (if_pos rfl).symm
        · rw [hothers j hj]
          exact (if_neg (Ne.symm hj)).symm
      rw [gregs, hfirst]
      rfl

/-- Rows of one byte read back as that byte. -/
theorem getElem?_row (b : Byte) (l : BitVec 6) : (List.replicate 64 b)[l.toNat]? = some b := by
  rw [List.getElem?_replicate, if_pos l.isLt]

/-- The working registers of texts stay through CLEAR and BAR (R16). -/
theorem Work.looped.sameText {w v : Work} (h : w.looped v) : w.SameText v := by
  unfold Work.looped at h
  refine ⟨?_, ?_, ?_, ?_, ?_, ?_⟩ <;> rw [h]

/-- The chip that receives after an operation's bus trace is the one addressed. -/
theorem State.Performed.addressed {s t : State} {opcode : Byte} {n : Nat} {es : List BusEntry} {k : ChipId}
    (h : s.Performed t opcode n es) (hk : receiver (s.pins.selected s.cfg) es = some k) : t.addressed = .one k := by
  rw [← selected_iff, h.cfg, h.pins, selected_exitPins, hk]

/-! ## CLEAR -/

/-- The rows of CLEAR, in their order (R140). -/
def clearRows : List (Nat × ChipId) := (List.range 8).flatMap fun p => [(p, .chip1), (p, .chip2)]

theorem clearBus_rows (cfg : Config) : clearBus cfg = rowsBus cfg (List.replicate 64 0x00) clearRows := by
  simp only [clearBus, rowsBus, clearRows, List.flatMap_assoc, List.flatMap_cons, List.flatMap_nil, List.append_nil]

theorem mem_clearRows (q : BitVec 3) (j : ChipId) : (q.toNat, j) ∈ clearRows := by
  have hq := q.isLt
  cases j <;> simp [clearRows, hq]

/-- Settles O44: CLEAR's rows are all there are, and the last row of either chip is of page 7. -/
theorem clearZeroesAll : Obligations.ClearZeroesAll := by
  intro s hr hb h
  obtain ⟨t, p⟩ := loop_clear (s := s.taken 0x02 1 s.lat) h
  obtain ⟨hst, hperf, hlat, hwork, hdiag⟩ := p.exec (by simp) hr
  replace hperf : s.Performed t.ended 0x02 1 (clearBus s.cfg) := hperf
  have hd := hperf.display
  obtain ⟨hbytes, hregs⟩ := displayEffect_rows (bytes := List.replicate 64 0x00) (by simp) clearRows (by decide) hb
    (s.pins.selected s.cfg)
  rw [← clearBus_rows] at hbytes hregs
  refine ⟨_, t.ended, rfl, hst, hperf, hlat, hdiag, hwork.sameText, fun k q l => ?_, hperf.addressed ?_, fun k => ?_⟩
  · rw [ddram_of_display hd, hbytes, if_pos (mem_clearRows q k), getElem?_row]
  · rw [clearBus_rows, receiver_rows]
    rfl
  · rw [regs_chip hd, hregs]
    cases k <;> rfl

/-! ## BAR -/

/-- The rows of BAR, in their order (R148). -/
def barRowList : List (Nat × ChipId) := [(5, .chip1), (6, .chip1), (5, .chip2), (6, .chip2)]

theorem barRowsBus_rows (cfg : Config) (bytes : List Byte) : barRowsBus cfg bytes = rowsBus cfg bytes barRowList := by
  simp [barRowsBus, rowsBus, barRowList]

theorem mem_barRowList (q : BitVec 3) (j : ChipId) : (q.toNat, j) ∈ barRowList ↔ q = 5 ∨ q = 6 := by
  revert q
  cases j <;> decide

/-- The display effect of the four rows of BAR (R148). -/
theorem displayEffect_barRows {bytes : List Byte} (hn : bytes.length = 64) {s : State} (hb : s.cfg.basesValid = true)
    (k : Option ChipId) :
    let t := displayEffect k (barRowsBus s.cfg bytes) s
    (∀ j q (l : BitVec 6), t.ddram j q l = if q = 5 ∨ q = 6 then bytes[l.toNat]? else s.ddram j q l) ∧
    ∀ j, (t.chip j).regs = (6, s.cfg.colAfter63, (s.chip j).Z, (s.chip j).ON) := by
  obtain ⟨hbytes, hregs⟩ := displayEffect_rows hn barRowList (by decide) hb k
  rw [← barRowsBus_rows] at hbytes hregs
  refine ⟨fun j q l => (hbytes j q l).trans (if_congr (mem_barRowList q j) rfl rfl), fun j => (hregs j).trans ?_⟩
  cases j <;> rfl

/-- R148, R150: the byte at a column of the bar. -/
theorem getElem?_barBytes (cfg : Config) (h : Nat) (l : BitVec 6) : (barBytes cfg h)[l.toNat]? =
    some (if l.toNat < h then cfg.barOn else if l.toNat = h ∧ 0 < h then cfg.barMark else cfg.barOff) := by
  rw [barBytes, List.getElem?_map, List.getElem?_range l.isLt]
  rfl

/-- Settles O51: the rows of zeros overwrite the rows of the bar. -/
theorem barCompletes : Obligations.BarCompletes := by
  intro height s hr hh hb h
  obtain ⟨t, p⟩ := loop_bar hh (s := s.taken 0x07 2 { s.lat with HT := height }) h
  obtain ⟨hst, hperf, hlat, hwork, hdiag⟩ := p.exec (by simp) hr
  replace hperf : s.Performed t.ended 0x07 2 (barBus s.cfg height.toNat) := hperf
  have hd := hperf.display
  set bar := displayEffect (s.pins.selected s.cfg) (barRowsBus s.cfg (barBytes s.cfg height.toNat)) s with hbar
  have hcfg : bar.cfg = s.cfg := displayEffect_cfg ..
  obtain ⟨hbytes, hregs⟩ := displayEffect_barRows (barBytes_length s.cfg height.toNat) hb (s.pins.selected s.cfg)
  obtain ⟨gbytes, gregs⟩ := displayEffect_barRows (bytes := List.replicate 64 0x00) (by simp) (s := bar)
    (by rw [hcfg]; exact hb) (receiver (s.pins.selected s.cfg) (barRowsBus s.cfg (barBytes s.cfg height.toNat)))
  rw [← hbar] at hbytes hregs
  rw [hcfg] at gbytes gregs
  rw [barBus, displayEffect_append, ← hbar] at hd
  refine ⟨_, t.ended, rfl, hst, hperf, hlat, hdiag, hwork.sameText, fun k q l hq => ?_, fun k q l hq => ?_,
    hperf.addressed ?_, fun k => ?_⟩
  · rw [ddram_of_display hd, gbytes, if_pos hq, getElem?_row]
  · rw [ddram_of_display hd, gbytes, if_neg hq, hbytes, if_neg hq]
  · rw [barBus, receiver_append, barRowsBus_rows, receiver_rows]
    rfl
  · have hzo := congrArg (fun r => r.2.2) (hregs k)
    rw [regs_chip hd, gregs]
    exact congrArg (fun zo => (6, s.cfg.colAfter63, zo)) hzo

/-- Settles O52: at the hold delay the bar's four rows are drawn, and the rows of zeros are left to do. -/
theorem barDuringHold : Obligations.BarDuringHold := by
  intro height s hr hh hb h
  set s1 := s.taken 0x07 2 { s.lat with HT := height } with hs1
  obtain ⟨t, p⟩ := loop_barDraw hh (s := s1) h
  set held := (t.record (.delay .tHold)).doing (barRows barClearRow ++ [.finish]) with hheld
  have hruns : Runs (s1.doing [.bar height, .finish]) held := by
    refine (runs_bar_legal s1 [.finish] hh).trans ?_
    rw [barBody, List.append_assoc]
    exact (p.stretch.runs _).trans (runs_delay t _ .tHold)
  have hd : held.display =
      (displayEffect (s.pins.selected s.cfg) (barRowsBus s.cfg (barBytes s.cfg height.toNat)) s).display :=
    p.did.display.trans (displayEffect_congr (s := s) (u := s1) rfl rfl _ _)
  obtain ⟨hbytes, -⟩ := displayEffect_barRows (barBytes_length s.cfg height.toNat) hb (s.pins.selected s.cfg)
  refine ⟨_, held, rfl, hruns.stepsTo hr rfl ⟨[.bar height], rfl, by simp⟩, p.did.RUN, rfl, p.stretch.SP,
    fun k q l hq => ?_, fun k q l hq => ?_⟩
  · rw [ddram_of_display hd, hbytes, if_pos hq, getElem?_barBytes]
  · rw [ddram_of_display hd, hbytes, if_neg hq]

/-- Settles O53: the one act of the operation sets the bit (R149). -/
theorem barAbove64Ignored : Obligations.BarAbove64Ignored := by
  intro height s hr hh
  have hbar := fun rest => runs_bar_illegal (s.taken 0x07 2 { s.lat with HT := height }) rest hh
  exact ⟨_, rfl, stepsTo_ended (acts := [.bar height]) hbar (by simp) hr⟩

end Sys2Proof.Machine
end

section
/-! SUPPORT and the settling of O45: WSTR with its text in the stream from its acceptance to its end (R142 to R144), and
which bytes of display data RAM the characters of a string can reach (R48, R121, R130). -/

namespace Sys2Proof.Machine

/-! ## Strings as stretches -/

/-- STRING with its text in the stream, with the registers and the diagnostic bits it leaves (R142). -/
theorem string_completes (p c : Byte) (text : List Byte) {s : State} (ht : text <+: s.stream.drop s.SP)
    (ha : s.addressed ≠ .both) (h : s.answers (stringBus s.cfg p c.toNat text).length) :
    ∃ t, Stretch [.string p c text.length] s t (stringBus s.cfg p c.toNat text) text.length ∧
      t.lat = { s.lat with CH := t.lat.CH } ∧ s.work.lettered t.work ∧
      t.DIAG = stringDiag s.cfg p c.toNat text s.DIAG := by
  set s1 : State := { s with work := { s.work with CUR := c.setWidth 9, STOP := false, TI := 0 } } with hs1
  have hcur : s1.work.CUR.toNat = c.toNat := by simp [hs1]; omega
  have d0 : Did s s1 [] := Did.silent rfl rfl rfl rfl rfl rfl rfl rfl rfl rfl rfl
  obtain ⟨t, q⟩ := wrote_chars p text (s := s1) rfl (by rw [hcur]; exact c.isLt) ha ht (by rw [hcur]; exact h)
  rw [hcur] at q
  exact ⟨t, ⟨fun rest => (runs_string s rest p c text.length).trans ((q.runs 0 rest).trans (runs_chars_zero t rest p)),
    d0.trans q.did, q.SP⟩, q.lat, Work.lettered.trans (v := s1.work) rfl q.work, q.DIAG⟩

/-- The loop registers and Q stay through a string (R16). -/
theorem Work.lettered.kept {w v : Work} (h : w.lettered v) : w.SameLoops v ∧ v.Q = w.Q := by
  unfold Work.lettered at h
  refine ⟨⟨?_, ?_, ?_, ?_⟩, ?_⟩ <;> rw [h]

/-! ## What the characters of a string can reach -/

/-- R48: a run of data bytes reaches the page of its chip's page register and no other chip. -/
theorem displayEffect_data_frame (k : ChipId) (bytes : List Byte) (s : State) :
    let t := displayEffect (some k) (bytes.map .data) s
    (t.chip k).X = (s.chip k).X ∧ s.BytesOutside t (fun j q _ => j = k ∧ q = (s.chip k).X) ∧
      ∀ j, j ≠ k → t.chip j = s.chip j := by
  induction bytes generalizing s with
  | nil => exact ⟨rfl, fun _ _ _ _ => rfl, fun _ _ => rfl⟩
  | cons b bytes ih =>
    obtain ⟨hX, hframe, hothers⟩ := ih (dataOn b k s)
    obtain ⟨gX, gframe, gothers⟩ : ((dataOn b k s).chip k).X = (s.chip k).X ∧
        s.BytesOutside (dataOn b k s) (fun j q _ => j = k ∧ q = (s.chip k).X) ∧
        ∀ j, j ≠ k → (dataOn b k s).chip j = s.chip j := by
      cases hy : (s.chip k).Y with
      | none =>
        obtain ⟨hbytes, hchip⟩ := dataOn_undefined (b := b) hy
        refine ⟨by rw [hchip], fun j q l hne => (hbytes j q l).trans (if_neg ?_), fun j _ => hchip j⟩
        exact fun h => hne ⟨h.1, h.2.1⟩
      | some y =>
        obtain ⟨hbytes, hchip, hothers⟩ := dataOn_defined (b := b) hy
        refine ⟨by rw [hchip], fun j q l hne => (hbytes j q l).trans (if_neg ?_), hothers⟩
        exact fun h => hne ⟨h.1, h.2.1⟩
    rw [gX] at hX hframe
    exact ⟨hX, fun j q l hne => (hframe j q l hne).trans (gframe j q l hne),
      fun j hj => (hothers j hj).trans (gothers j hj)⟩

/-- A GOTO and a run of data bytes after it reach the page and the chip of the GOTO (R121, R48). -/
theorem displayEffect_goto_data_frame {page column : Byte} (hp : page.toNat < 8) (hc : column.toNat < 128)
    (bytes : List Byte) {s : State} (hb : s.cfg.basesValid = true) (k : Option ChipId) :
    let t := displayEffect k (gotoBus s.cfg page column ++ bytes.map .data) s
    s.BytesOutside t (fun j q _ => j = chipOf column ∧ q = page.setWidth 3) ∧
      ∀ j, j ≠ chipOf column → t.chip j = s.chip j := by
  obtain ⟨hgoto, hrecv⟩ := displayEffect_goto hp hc hb k
  obtain ⟨-, hframe, hothers⟩ := displayEffect_data_frame (chipOf column) bytes (s.positioned page column)
  rw [positioned_chip] at hframe
  rw [displayEffect_append, hgoto, hrecv]
  refine ⟨fun j q l hne => ?_, fun j hj => ?_⟩
  · rw [hframe j q l hne, positioned_ddram]
  · rw [hothers j hj, positioned_other s page hj]

/-- Characters inside the panel reach their page on the chips of their columns (R130, R142). -/
theorem displayEffect_chars_frame {page : Byte} (hp : page.toNat < 8) (ps : List (Nat × Byte)) {s : State}
    (hb : s.cfg.basesValid = true) (hlt : ∀ p ∈ ps, p.1 < 128) (k : Option ChipId) :
    let t := displayEffect k (charsBus s.cfg page ps) s
    s.BytesOutside t (fun j q _ => q = page.setWidth 3 ∧ ∃ p ∈ ps, j = chipOf (BitVec.ofNat 8 p.1)) ∧
      ∀ j, (∀ p ∈ ps, j ≠ chipOf (BitVec.ofNat 8 p.1)) → t.chip j = s.chip j := by
  induction ps generalizing s k with
  | nil => exact ⟨fun _ _ _ _ => rfl, fun _ _ => rfl⟩
  | cons p ps ih =>
    obtain ⟨hfirst, hlt⟩ := List.forall_mem_cons.mp hlt
    set bus := wcharBus s.cfg page (BitVec.ofNat 8 p.1) p.2 with hbus
    obtain ⟨hframe, hothers⟩ := displayEffect_goto_data_frame hp (column := BitVec.ofNat 8 p.1)
      (by rw [toNat_column hfirst]; exact hfirst) (charBytes s.cfg p.2) hb k
    rw [← wcharBus, ← hbus] at hframe hothers
    have hcfg : (displayEffect k bus s).cfg = s.cfg := displayEffect_cfg ..
    obtain ⟨gframe, gothers⟩ := ih (s := displayEffect k bus s) (by rw [hcfg]; exact hb) hlt (receiver k bus)
    rw [hcfg] at gframe gothers
    have hsplit : displayEffect k (charsBus s.cfg page (p :: ps)) s =
        displayEffect (receiver k bus) (charsBus s.cfg page ps) (displayEffect k bus s) := displayEffect_append k bus _ s
    simp only [hsplit]
    refine ⟨fun j q l hne => ?_, fun j hj => ?_⟩
    · rw [gframe, hframe]
      · rintro ⟨hj, hq⟩
        exact hne ⟨hq, p, List.mem_cons_self, hj⟩
      · rintro ⟨hq, r, hr, hj⟩
        exact hne ⟨hq, r, List.mem_cons_of_mem p hr, hj⟩
    · obtain ⟨hfirst, hj⟩ := List.forall_mem_cons.mp hj
      rw [gothers j hj, hothers j hfirst]

/-! ## WSTR -/

/-- WSTR completes whatever its page and column (R142). -/
theorem exec_wstr_completes (page column : Byte) {len : Byte} {text : List Byte} {s : State} (hr : s.rst_n = true)
    (hl : text.length = len.toNat) (ht : s.holdsText 4 text) (ha : s.addressed ≠ .both)
    (h : s.answers (stringBus s.cfg page column.toNat text).length) :
    ∃ u t, exec (.wstr page column len) s = .next u ∧ u.stepsTo t ∧
      s.Performed t 0x05 (4 + len.toNat) (stringBus s.cfg page column.toNat text) ∧
      t.lat = { s.lat with OPC := 0x05, PG := page, COLR := column, LEN := len, CH := t.lat.CH } ∧
      s.work.lettered t.work ∧ t.DIAG = stringDiag s.cfg page column.toNat text s.DIAG := by
  obtain ⟨t, q, hlat, hwork, hdiag⟩ := string_completes page column text
    (s := s.taken 0x05 4 { s.lat with PG := page, COLR := column, LEN := len }) ht ha h
  have hSP : t.SP = s.SP + (4 + len.toNat) := by rw [q.SP, hl, ← Nat.add_assoc]; rfl
  rw [hl] at q
  exact ⟨_, t.ended, rfl, stepsTo_ended (acts := [.string page column len.toNat]) q.runs (by simp) hr,
    performed_of_did q.did (by rw [hlat]; rfl) hSP, hlat, hwork, hdiag⟩

/-- Settles O45: the string's stretch, and on valid coordinates what its characters can reach. -/
theorem wstrPlacesText : Obligations.WstrPlacesText := by
  intro page column len text s hr hl ht ha hb h placed
  obtain ⟨u, t, he, hst, hperf, hlat, hwork, hdiag⟩ := exec_wstr_completes page column hr hl ht ha h
  obtain ⟨hloops, hQ⟩ := hwork.kept
  refine ⟨u, t, he, hst, hperf, hlat, hloops, hQ, hdiag, fun hp hc j q l hne => ?_⟩
  obtain ⟨hframe, -⟩ := displayEffect_chars_frame hp placed hb (placements_lt hc text) (s.pins.selected s.cfg)
  rw [ddram_of_display hperf.display]
  exact hframe j q l fun hq => hne hq.1

end Sys2Proof.Machine
end

section
/-! SUPPORT and the settling of O47: the columns at which a string places its characters (R142 to R145), and how its bus
trace shows them. -/

namespace Sys2Proof.Machine

/-! ## The columns -/

/-- R143: the string cursor, moved to column 64 where a character would straddle the seam. -/
def snapped (c : Nat) : Nat := if 59 ≤ c ∧ c ≤ 63 then 64 else c

/-- The columns of the characters that a string places, in order (R142). -/
def columnsOf (cur : Nat) (text : List Byte) : List Nat := (placements cur text).map Prod.fst

/-- R143, R144: the first column is the snapped cursor, and it is the last where six columns further is past the edge. -/
theorem columnsOf_cons (cur : Nat) (ch : Byte) (text : List Byte) :
    (128 ≤ snapped cur + 6 ∧ columnsOf cur (ch :: text) = [snapped cur]) ∨
    (snapped cur + 6 < 128 ∧ columnsOf cur (ch :: text) = snapped cur :: columnsOf (snapped cur + 6) text) := by
  have hsnap : (if cur < 64 ∧ 64 < cur + 6 then 64 else cur) = snapped cur := if_congr (by omega) rfl rfl
  simp only [columnsOf, placements, hsnap, List.map_cons]
  by_cases hedge : 128 ≤ snapped cur + 6
  · exact .inl ⟨hedge, by rw [if_pos hedge, List.map_nil]⟩
  · exact .inr ⟨Nat.lt_of_not_le hedge, by rw [if_neg hedge]⟩

theorem columnsOf_head? (cur : Nat) {text : List Byte} (h : text ≠ []) :
    (columnsOf cur text).head? = some (snapped cur) := by
  cases text with
  | nil => exact absurd rfl h
  | cons ch text => obtain ⟨-, heq⟩ | ⟨-, heq⟩ := columnsOf_cons cur ch text <;> rw [heq] <;> rfl

theorem columnsOf_ne_nil (cur : Nat) {text : List Byte} (h : text ≠ []) : columnsOf cur text ≠ [] := by
  intro hnil
  have hhead := columnsOf_head? cur h
  rw [hnil] at hhead
  cases hhead

/-- R142, R143: each column is the snapped cursor six columns after the one before. -/
theorem columnsOf_isChain (cur : Nat) (text : List Byte) :
    (columnsOf cur text).IsChain fun c d => d = snapped (c + 6) := by
  induction text generalizing cur with
  | nil => exact .nil
  | cons ch text ih =>
    obtain ⟨-, heq⟩ | ⟨-, heq⟩ := columnsOf_cons cur ch text <;> rw [heq]
    · exact .singleton _
    · refine List.isChain_cons.mpr ⟨fun d hd => ?_, ih _⟩
      cases text with
      | nil => cases hd
      | cons ch' text =>
        rw [columnsOf_head? _ (List.cons_ne_nil ch' text)] at hd
        exact (Option.some.inj hd).symm

/-- R144: a character after which another is placed ends before the edge. -/
theorem columnsOf_going (cur : Nat) (text : List Byte) : ∀ c ∈ (columnsOf cur text).dropLast, c + 6 < 128 := by
  induction text generalizing cur with
  | nil => exact nofun
  | cons ch text ih =>
    obtain ⟨-, heq⟩ | ⟨hlt, heq⟩ := columnsOf_cons cur ch text <;> rw [heq]
    · exact nofun
    · cases text with
      | nil => exact nofun
      | cons ch' text =>
        rw [List.dropLast_cons_of_ne_nil (columnsOf_ne_nil _ (List.cons_ne_nil ch' text))]
        exact List.forall_mem_cons.mpr ⟨hlt, ih _⟩

/-- R144: where text is left over, the last character reaches the edge. -/
theorem columnsOf_stopped (cur : Nat) (text : List Byte) (h : (columnsOf cur text).length < text.length) :
    ∀ c ∈ (columnsOf cur text).getLast?, 128 ≤ c + 6 := by
  induction text generalizing cur with
  | nil => exact absurd h (Nat.lt_irrefl 0)
  | cons ch text ih =>
    obtain ⟨hedge, heq⟩ | ⟨-, heq⟩ := columnsOf_cons cur ch text <;> rw [heq] at h ⊢
    · intro c hc
      obtain rfl := Option.some.inj hc
      exact hedge
    · have hlen : (columnsOf (snapped cur + 6) text).length < text.length := Nat.lt_of_succ_lt_succ h
      have hne : text ≠ [] := List.ne_nil_of_length_pos (Nat.zero_lt_of_lt hlen)
      rw [List.getLast?_cons_of_ne_nil (columnsOf_ne_nil _ hne)]
      exact ih _ hlen

theorem columnsOf_length_le_text (cur : Nat) (text : List Byte) : (columnsOf cur text).length ≤ text.length := by
  induction text generalizing cur with
  | nil => exact Nat.le_refl 0
  | cons ch text ih =>
    obtain ⟨-, heq⟩ | ⟨-, heq⟩ := columnsOf_cons cur ch text <;> rw [heq]
    · exact Nat.succ_le_succ (Nat.zero_le _)
    · exact Nat.succ_le_succ (ih _)

/-- R145: the room left from a cursor inside the panel, the characters that end at or before the seam and those that begin
after it and before the edge. -/
theorem columnsOf_length_le (text : List Byte) {cur : Nat} (h : cur < 128) :
    (columnsOf cur text).length ≤ (64 - cur) / 6 + (133 - max cur 64) / 6 := by
  induction text generalizing cur with
  | nil => exact Nat.zero_le _
  | cons ch text ih =>
    have hsnap : snapped cur = 64 ∧ 59 ≤ cur ∧ cur ≤ 63 ∨ snapped cur = cur ∧ (cur ≤ 58 ∨ 64 ≤ cur) := by
      unfold snapped
      split <;> omega
    obtain ⟨hedge, heq⟩ | ⟨hlt, heq⟩ := columnsOf_cons cur ch text <;> rw [heq]
    · rw [List.length_singleton]
      omega
    · have hrest := ih hlt
      rw [List.length_cons]
      omega

/-! ## The bus trace of a string -/

/-- R106, R130: but for its six data bytes a character's bus trace is that of its GOTO. -/
theorem wcharBus_entries (cfg : Config) (page column ch : Byte) :
    (wcharBus cfg page column ch).filter (fun e => !e.isData) = gotoBus cfg page column ∧
    (wcharBus cfg page column ch).countP BusEntry.isData = 6 := by
  unfold wcharBus gotoBus charBytes
  split <;> exact ⟨rfl, rfl⟩

theorem stringBus_entries (cfg : Config) (page : Byte) (cur : Nat) (text : List Byte) :
    (stringBus cfg page cur text).filter (fun e => !e.isData) =
      (columnsOf cur text).flatMap (fun c => gotoBus cfg page (BitVec.ofNat 8 c)) ∧
    (stringBus cfg page cur text).countP BusEntry.isData = 6 * (columnsOf cur text).length := by
  rw [stringBus, columnsOf, List.filter_flatMap, List.flatMap_map, List.countP_flatMap, List.length_map]
  constructor
  · simp only [wcharBus_entries]
  · have hsix : List.countP BusEntry.isData ∘ (fun p : Nat × Byte => wcharBus cfg page (BitVec.ofNat 8 p.1) p.2) =
        fun _ => 6 := funext fun p => (wcharBus_entries cfg page _ p.2).2
    rw [hsix]
    simp [Nat.mul_comm]

/-- Settles O47: the columns are those of `columnsOf`. -/
theorem stringLayout : Obligations.StringLayout := by
  intro page column len text s hr hl ht ha h snap
  obtain ⟨u, t, he, hst, hperf, -⟩ := exec_wstr_completes page column hr hl ht ha h
  obtain ⟨hgoto, hdata⟩ := stringBus_entries s.cfg page column.toNat text
  refine ⟨u, t, he, hst, hperf.run, hperf.sp.trans (Nat.add_assoc ..).symm, columnsOf column.toNat text,
    by rw [hperf.bus, hgoto], by rw [hperf.bus, hdata], columnsOf_head? _, columnsOf_isChain _ text,
    columnsOf_going _ text, columnsOf_length_le_text _ text, columnsOf_stopped _ text, fun c hc hlt => ?_, ?_⟩
  · obtain ⟨p, hp, rfl⟩ := List.mem_map.mp hc
    obtain ⟨-, hseam⟩ := placements_from _ text p hp
    omega
  · rintro rfl
    exact columnsOf_length_le text (cur := 0) (by decide)

end Sys2Proof.Machine
end

section
/-! SUPPORT and the settling of O49 and O50: WPCT with its text in the stream from its acceptance to its end (R146), and the
erase run of an empty label (R147). -/

namespace Sys2Proof.Machine

/-! ## WPCT as a stretch -/

/-- WPCT, with the registers and the diagnostic bits it leaves (R146). -/
theorem wpct_completes (text : List Byte) {s : State} (ht : text <+: s.stream.drop s.SP)
    (h : s.answers (wpctBus s.cfg text).length) :
    ∃ t, Stretch (wpctBody s.cfg text.length) s t (wpctBus s.cfg text) text.length ∧
      t.lat = { s.lat with CH := t.lat.CH } ∧ (t.work.PGI = s.work.PGI ∧ t.work.HALF = s.work.HALF ∧
      t.work.ROW = s.work.ROW ∧ t.work.Q = s.work.Q) ∧ t.DIAG = stringDiag s.cfg labelPage 100 text s.DIAG := by
  simp only [wpctBus, List.length_append, List.length_map, List.length_replicate, Nat.add_assoc] at h
  obtain ⟨t1, p1⟩ := proc_goTo_valid coordsValid_label (s := s)
    (by rw [gotoBus_valid coordsValid_label] at h; exact answers_mono h (by simp))
  have n1 : t1.addressed ≠ .both := by
    have hdid := p1.did
    rw [gotoBus_valid coordsValid_label] at hdid
    exact receiver_notBoth hdid
  have a1 := p1.did.answers h
  obtain ⟨t2, p2⟩ := proc_fill 0x00 s.cfg.labelEraseLen.toNat (answers_mono a1 (Nat.le_add_right _ _)) n1
  have p := p1.trans p2
  obtain ⟨t3, p3, hlat, hwork, hdiag⟩ := string_completes labelPage labelCol text (s := t2)
    (by rw [p.did.stream, p.SP]; exact ht) (p2.did.notBoth n1)
    (by rw [p.did.cfg]; exact p2.did.answers (by simpa using a1))
  obtain ⟨⟨-, hPGI, hHALF, hROW⟩, hQ⟩ := hwork.kept
  rw [p.work, p1.work] at hPGI hHALF hROW hQ
  rw [p.did.cfg] at p3 hdiag
  have q := p.stretch.trans p3
  rw [Nat.zero_add] at q
  refine ⟨t3, ?_, ?_, ⟨hPGI, hHALF, hROW, hQ⟩, ?_⟩
  · rw [wpctBus, List.map_replicate]
    exact q
  · rw [hlat, p.lat]
  · rw [hdiag, p.DIAG, p1.DIAG]
    rfl

/-- WPCT completes (R146). -/
theorem exec_wpct_completes {len : Byte} {text : List Byte} {s : State} (hr : s.rst_n = true)
    (hl : text.length = len.toNat) (ht : s.holdsText 2 text) (h : s.answers (wpctBus s.cfg text).length) :
    ∃ u t, exec (.wpct len) s = .next u ∧ u.stepsTo t ∧ s.Performed t 0x06 (2 + len.toNat) (wpctBus s.cfg text) ∧
      t.lat = { s.lat with OPC := 0x06, LEN := len, CH := t.lat.CH } ∧ (t.work.PGI = s.work.PGI ∧
      t.work.HALF = s.work.HALF ∧ t.work.ROW = s.work.ROW ∧ t.work.Q = s.work.Q) ∧
      t.DIAG = stringDiag s.cfg labelPage 100 text s.DIAG := by
  obtain ⟨t, q, hlat, hwork, hdiag⟩ := wpct_completes text (s := s.taken 0x06 2 { s.lat with LEN := len }) ht h
  have hSP : t.SP = s.SP + (2 + len.toNat) := by rw [q.SP, hl, ← Nat.add_assoc]; rfl
  rw [hl] at q
  exact ⟨_, t.ended, rfl, stepsTo_ended q.runs (finish_not_mem_actsOf s.cfg (.wpct len)) hr,
    performed_of_did q.did (by rw [hlat]; rfl) hSP, hlat, hwork, hdiag⟩

/-! ## The label -/

/-- R145, R146: the characters of the label are on chip 2. -/
theorem placements_label (text : List Byte) :
    ∀ p ∈ placements 100 text, p.1 < 128 ∧ chipOf (BitVec.ofNat 8 p.1) = .chip2 := by
  intro p hp
  have hlt := placements_lt (by decide) text p hp
  obtain ⟨hfrom, -⟩ := placements_from 100 text p hp
  refine ⟨hlt, index_inj.mp ((chipOf_column hlt).trans ?_)⟩
  rw [ChipId.index]
  omega

/-- Characters on one chip leave it selected (R132). -/
theorem receiver_chars (cfg : Config) {page : Byte} (hp : page.toNat < 8) {k : ChipId} (ps : List (Nat × Byte))
    (h : ∀ p ∈ ps, p.1 < 128 ∧ chipOf (BitVec.ofNat 8 p.1) = k) : receiver (some k) (charsBus cfg page ps) = some k := by
  induction ps with
  | nil => rfl
  | cons p ps ih =>
    obtain ⟨⟨hlt, hchip⟩, hrest⟩ := List.forall_mem_cons.mp h
    have hv := coordsValid_of_lt hp (column := BitVec.ofNat 8 p.1) (by rw [toNat_column hlt]; exact hlt)
    have hchar : receiver (some k) (wcharBus cfg page (BitVec.ofNat 8 p.1) p.2) = some k := by
      rw [wcharBus, receiver_append, receiver_data, gotoBus_valid hv, ← hchip]
      rfl
    rw [charsBus, List.flatMap_cons, receiver_append, hchar]
    exact ih hrest

/-- DIAG after the label: its coordinates are valid (R146). -/
theorem stringDiag_label (cfg : Config) (text : List Byte) (d : BitVec 4) :
    stringDiag cfg labelPage 100 text d = raiseIf ((placements 100 text).length < text.length) .TRUNC
      (raiseIf ((placements 100 text).any fun p => !supported cfg p.2) .CHSUB d) := by
  have hvalid : ((placements 100 text).any fun p => !coordsValid labelPage (BitVec.ofNat 8 p.1)) = false := by
    refine List.any_eq_false.mpr fun p hp => ?_
    obtain ⟨hlt, -⟩ := placements_label text p hp
    rw [coordsValid_of_lt (by decide) (by rw [toNat_column hlt]; exact hlt)]
    decide
  unfold stringDiag
  simp only [hvalid]
  rfl

/-- The bus trace of WPCT: GOTO, the erase run, and the characters of the label (R146). -/
theorem wpctBus_eq (cfg : Config) (text : List Byte) : wpctBus cfg text =
    (gotoBus cfg labelPage labelCol ++ (List.replicate cfg.labelEraseLen.toNat 0x00).map .data) ++
      charsBus cfg labelPage (placements 100 text) := rfl

/-- R146: WPCT reaches page 0 of chip 2 only, and leaves chip 2 selected. -/
theorem displayEffect_wpct (text : List Byte) {s : State} (hb : s.cfg.basesValid = true) (k : Option ChipId) :
    let t := displayEffect k (wpctBus s.cfg text) s
    s.BytesOutside t (fun j q _ => j = .chip2 ∧ q = 0) ∧ t.chip .chip1 = s.chip .chip1 ∧
      receiver k (wpctBus s.cfg text) = some .chip2 := by
  set erase := gotoBus s.cfg labelPage labelCol ++ (List.replicate s.cfg.labelEraseLen.toNat 0x00).map .data with herase
  obtain ⟨hframe, hothers⟩ := displayEffect_goto_data_frame (page := labelPage) (column := labelCol) (by decide)
    (by decide) (List.replicate s.cfg.labelEraseLen.toNat 0x00) hb k
  rw [← herase] at hframe hothers
  have hrecv : receiver k erase = some .chip2 := by
    rw [herase, receiver_append, receiver_data, gotoBus_valid coordsValid_label]
    rfl
  have hcfg : (displayEffect k erase s).cfg = s.cfg := displayEffect_cfg ..
  have hlabel := placements_label text
  obtain ⟨gframe, gothers⟩ := displayEffect_chars_frame (page := labelPage) (by decide) (placements 100 text)
    (s := displayEffect k erase s) (by rw [hcfg]; exact hb) (fun p hp => (hlabel p hp).1) (some .chip2)
  rw [hcfg] at gframe gothers
  have hsplit : displayEffect k (wpctBus s.cfg text) s =
      displayEffect (some .chip2) (charsBus s.cfg labelPage (placements 100 text)) (displayEffect k erase s) := by
    rw [wpctBus_eq, ← herase, displayEffect_append, hrecv]
  have hlast : receiver k (wpctBus s.cfg text) = some .chip2 := by
    rw [wpctBus_eq, receiver_append _ erase, hrecv, receiver_chars s.cfg (by decide) _ hlabel]
  rw [hsplit, hlast]
  refine ⟨fun j q l hne => ?_, ?_, rfl⟩
  · rw [gframe, hframe j q l hne]
    rintro ⟨hq, p, hp, hj⟩
    exact hne ⟨hj.trans (hlabel p hp).2, hq⟩
  · rw [gothers, hothers _ (by decide)]
    intro p hp
    rw [(hlabel p hp).2]
    decide

/-- Settles O49: WPCT's stretch, and what its bus trace can reach. -/
theorem wpctDrawsLabel : Obligations.WpctDrawsLabel := by
  intro len text s hr hl ht hb h herase
  have hlen : (wpctBus s.cfg text).length = 103 + 9 * (placements 100 text).length := by
    rw [wpctBus_length, herase]
    rfl
  obtain ⟨u, t, he, hst, hperf, hlat, ⟨hPGI, hHALF, hROW, hQ⟩, hdiag⟩ :=
    exec_wpct_completes hr hl ht (by rw [hlen]; exact h)
  obtain ⟨hframe, hchip1, hrecv⟩ := displayEffect_wpct text hb (s.pins.selected s.cfg)
  refine ⟨u, t, he, hst, hperf, hlat, hPGI, hHALF, hROW, hQ, ?_, fun j q l hne => ?_, ?_, hperf.addressed hrecv⟩
  · rw [hdiag, stringDiag_label]
  · rw [ddram_of_display hperf.display, hframe j q l hne]
  · rw [State.SameChip, regs_chip hperf.display, hchip1]

/-! ## Where a run of data bytes goes -/

/-- The columns of a run go on where its first `i` end. -/
theorem runColumn_add (cfg : Config) (y : BitVec 6) (i j : Nat) :
    runColumn cfg y (i + j) = (runColumn cfg y i).bind fun z => runColumn cfg z j := by
  induction j with
  | zero => cases runColumn cfg y i <;> rfl
  | succ j ih =>
    rw [← Nat.add_assoc, runColumn, ih, Option.bind_assoc]
    rfl

/-- R48: up to column 63 the columns of a run follow one another. -/
theorem runColumn_within (cfg : Config) {y : BitVec 6} {i : Nat} (h : y.toNat + i < 64) :
    runColumn cfg y i = some (y + BitVec.ofNat 6 i) := by
  induction i with
  | zero => simp [runColumn]
  | succ i ih =>
    have hcol : (y + BitVec.ofNat 6 i).toNat = y.toNat + i := by
      rw [BitVec.toNat_add, BitVec.toNat_ofNat]
      omega
    rw [runColumn, ih (by omega), Option.bind_some, columnAfter, if_pos (by omega), BitVec.add_assoc]
    congr 2
    apply BitVec.eq_of_toNat_eq
    simp

/-- R48: the column after column 63. -/
theorem runColumn_past (cfg : Config) {y : BitVec 6} {i : Nat} (h : y.toNat + i = 64) :
    runColumn cfg y i = cfg.colAfter63 := by
  obtain ⟨j, rfl⟩ : ∃ j, i = j + 1 := ⟨i - 1, by have := y.isLt; omega⟩
  have hcol : (y + BitVec.ofNat 6 j).toNat = 63 := by
    rw [BitVec.toNat_add, BitVec.toNat_ofNat]
    omega
  rw [runColumn, runColumn_within cfg (by omega), Option.bind_some, columnAfter, if_neg (by omega)]

/-- R48: a run stays at or above the lower of its first column and COL_AFTER_63. -/
theorem runColumn_ge {cfg : Config} {n y l : BitVec 6} (hn : cfg.colAfter63 = some n) {i : Nat}
    (h : runColumn cfg y i = some l) : min n.toNat y.toNat ≤ l.toNat := by
  induction i generalizing l with
  | zero =>
    obtain rfl := Option.some.inj h
    exact Nat.min_le_right _ _
  | succ i ih =>
    obtain ⟨z, hz, hl⟩ := Option.bind_eq_some_iff.mp h
    have hz := ih hz
    unfold columnAfter at hl
    split at hl
    · obtain rfl := Option.some.inj hl
      rw [BitVec.toNat_add, show (1 : BitVec 6).toNat = 1 from rfl]
      omega
    · obtain rfl := Option.some.inj (hn.symm.trans hl)
      exact Nat.min_le_left _ _

/-- R48: a run comes to every column at or after its first one. -/
theorem runColumn_reaches (cfg : Config) {y l : BitVec 6} (h : y.toNat ≤ l.toNat) :
    runColumn cfg y (l.toNat - y.toNat) = some l := by
  have hl := l.isLt
  rw [runColumn_within cfg (by omega)]
  congr 1
  apply BitVec.eq_of_toNat_eq
  rw [BitVec.toNat_add, BitVec.toNat_ofNat]
  omega

/-- R147: with a numeric COL_AFTER_63 a run of 100 bytes from column 36 reaches every column from the lower of the two
on. -/
theorem runColumn_erase {cfg : Config} {n l : BitVec 6} (hn : cfg.colAfter63 = some n)
    (h : min n.toNat 36 ≤ l.toNat) : ∃ i, i < 100 ∧ runColumn cfg 36 i = some l := by
  have hl := l.isLt
  by_cases hfirst : 36 ≤ l.toNat
  · exact ⟨l.toNat - 36, by omega, runColumn_reaches cfg (y := 36) hfirst⟩
  · refine ⟨28 + (l.toNat - n.toNat), by omega, ?_⟩
    rw [runColumn_add, runColumn_past cfg (by decide), hn]
    exact runColumn_reaches cfg (by omega)

/-- R147: from column 36, with COL_AFTER_63 0, a hundred bytes fill 28 columns, then 64, and 8 more. -/
theorem runColumn_erase_end {cfg : Config} (hn : cfg.colAfter63 = some 0) : runColumn cfg 36 100 = some 8 := by
  have hfirst : runColumn cfg 36 28 = some 0 := (runColumn_past cfg (by decide)).trans hn
  have hsecond : runColumn cfg 0 64 = some 0 := (runColumn_past cfg (by decide)).trans hn
  have hthird : runColumn cfg 0 8 = some 8 := runColumn_within cfg (by decide)
  rw [runColumn_add cfg 36 28 (64 + 8), hfirst, Option.bind_some, runColumn_add, hsecond, Option.bind_some, hthird]

/-- R48: with a numeric COL_AFTER_63, a run of one byte leaves it at every column the run has reached, and the column
register at the next one. -/
theorem displayEffect_fill {k : ChipId} {n : BitVec 6} (b : Byte) (count : Nat) {s : State} {y : BitVec 6}
    (hn : s.cfg.colAfter63 = some n) (h : (s.chip k).Y = some y) :
    let t := displayEffect (some k) ((List.replicate count b).map .data) s
    (∀ l, s.ddram k (s.chip k).X l = some b ∨ (∃ i, i < count ∧ runColumn s.cfg y i = some l) →
      t.ddram k (s.chip k).X l = some b) ∧
    (t.chip k).Y = runColumn s.cfg y count := by
  induction count generalizing s y with
  | zero =>
    refine ⟨?_, h⟩
    rintro l (hl | ⟨i, hi, -⟩)
    · exact hl
    · exact absurd hi (Nat.not_lt_zero i)
  | succ count ih =>
    obtain ⟨hb, hchip, -⟩ := dataOn_defined (b := b) h
    obtain ⟨z, hz⟩ := columnAfter_isSome hn y
    have hcol := runColumn_succ hz
    obtain ⟨gbytes, gY⟩ := ih (s := dataOn b k s) (y := z) (by rw [dataOn_cfg]; exact hn) (by rw [hchip]; exact hz)
    rw [hchip, dataOn_cfg] at gbytes
    rw [dataOn_cfg] at gY
    refine ⟨fun l hl => gbytes l ?_, gY.trans (hcol count).symm⟩
    rw [hb]
    obtain hl | ⟨i, hi, hl⟩ := hl
    · left
      split
      · rfl
      · exact hl
    · cases i with
      | zero =>
        obtain rfl : y = l := Option.some.inj hl
        exact .inl (if_pos ⟨rfl, rfl, rfl⟩)
      | succ i => exact .inr ⟨i, Nat.lt_of_succ_lt_succ hi, (hcol i).symm.trans hl⟩

/-- Settles O50: the erase run of an empty label begins at local column 36. -/
theorem wpctEraseRun : Obligations.WpctEraseRun := by
  intro n s hr hb h herase hn
  obtain ⟨u, t, he, hst, hperf, -⟩ := wpctDrawsLabel 0 [] s hr rfl List.nil_prefix hb h herase
  have hd := hperf.display
  have hchip2 : chipOf labelCol = .chip2 := rfl
  set s1 := s.positioned labelPage labelCol with hs1
  have hchip : s1.chip .chip2 = { s.chip .chip2 with X := 0, Y := some 36 } := positioned_chip s labelPage labelCol
  have hcfg : s1.cfg = s.cfg := positioned_cfg s labelPage labelCol
  have hbus : wpctBus s.cfg [] = gotoBus s.cfg labelPage labelCol ++ (List.replicate 100 0x00).map .data := by
    rw [wpctBus_eq, herase]
    exact List.append_nil _
  obtain ⟨hgoto, hrecv⟩ := displayEffect_goto (page := labelPage) (column := labelCol) (by decide) (by decide) hb
    (s.pins.selected s.cfg)
  rw [hbus, displayEffect_append, hgoto, hrecv, hchip2, ← hs1] at hd
  have hY : (s1.chip .chip2).Y = some 36 := by rw [hchip]
  obtain ⟨hbytes, hcolumn⟩ := displayEffect_fill (k := .chip2) 0x00 100 (s := s1) (by rw [hcfg]; exact hn) hY
  obtain ⟨-, hframe, -⟩ := displayEffect_wrap (k := .chip2) (List.replicate 100 0x00) (s := s1)
    (by rw [hcfg]; exact hn) hY
  rw [hchip, hcfg] at hbytes hframe
  rw [hcfg] at hcolumn
  refine ⟨u, t, he, hst, hperf.run, fun l hl => ?_, fun j q l hne => ?_, ?_⟩
  · exact (ddram_of_display hd ..).trans (hbytes l (.inr (runColumn_erase hn hl)))
  · refine (ddram_of_display hd ..).trans ((hframe j q l ?_).trans (positioned_ddram ..))
    rintro ⟨hj, hq, i, -, hl⟩
    exact hne ⟨hj, hq, runColumn_ge hn hl⟩
  · rintro rfl
    have hregs := regs_chip hd .chip2
    simp only [Chip.regs, Prod.mk.injEq] at hregs
    obtain ⟨-, hYt, -⟩ := hregs
    rw [hcolumn, runColumn_erase_end hn] at hYt
    exact hYt

end Sys2Proof.Machine
end

section
/-! SUPPORT and the settling of O55, O56 and O57: the decimal text of a number (R162), and the two operations that end
without a pin event, ITOA (R163) and RESERVED (R80, R165). -/

namespace Sys2Proof.Machine

/-! ## Decimal text -/

theorem decimalAux_of_lt (fuel : Nat) {v : Nat} (h : v < 10) :
    decimalAux (fuel + 1) v = [digit0 + BitVec.ofNat 8 v] := if_pos h

theorem decimalAux_of_ge (fuel : Nat) {v : Nat} (h : 10 ≤ v) :
    decimalAux (fuel + 1) v = decimalAux fuel (v / 10) ++ [digit0 + BitVec.ofNat 8 (v % 10)] :=
  if_neg (Nat.not_lt.mpr h)

/-- R162: a number of at most `fuel + 1` digits needs no more fuel than that. -/
theorem decimalAux_succ (fuel : Nat) {v : Nat} (h : v < 10 ^ (fuel + 1)) :
    decimalAux (fuel + 2) v = decimalAux (fuel + 1) v := by
  induction fuel generalizing v with
  | zero => rw [decimalAux_of_lt _ h, decimalAux_of_lt _ h]
  | succ fuel ih =>
    obtain hlt | hge := Nat.lt_or_ge v 10
    · rw [decimalAux_of_lt _ hlt, decimalAux_of_lt _ hlt]
    · rw [decimalAux_of_ge _ hge, decimalAux_of_ge _ hge, ih (Nat.div_lt_of_lt_mul (Nat.pow_succ' ▸ h))]

theorem decimalAux_length_le (fuel v : Nat) : (decimalAux fuel v).length ≤ fuel := by
  induction fuel generalizing v with
  | zero => exact Nat.le_refl 0
  | succ fuel ih =>
    obtain hlt | hge := Nat.lt_or_ge v 10
    · rw [decimalAux_of_lt fuel hlt]
      exact Nat.succ_le_succ (Nat.zero_le fuel)
    · rw [decimalAux_of_ge fuel hge, List.length_append]
      exact Nat.succ_le_succ (ih _)

theorem decimal_of_lt {v : Nat} (h : v < 10) : decimal v = [digit0 + BitVec.ofNat 8 v] := decimalAux_of_lt 4 h

theorem decimal_of_ge {v : Nat} (h : 10 ≤ v) (hv : v < 10 ^ 5) :
    decimal v = decimal (v / 10) ++ [digit0 + BitVec.ofNat 8 (v % 10)] := by
  have hfuel : decimal (v / 10) = decimalAux 4 (v / 10) := decimalAux_succ 3 (by omega)
  rw [hfuel]
  exact decimalAux_of_ge 4 h

theorem decimal_length_le (v : Nat) : (decimal v).length ≤ 5 := decimalAux_length_le 5 v

/-- R162: the text of a positive number begins with a digit that is not 0. -/
theorem decimal_leading {v : Nat} (h : 0 < v) (hv : v < 10 ^ 5) :
    ∃ d ds, 0 < d ∧ d < 10 ∧ decimal v = (digit0 + BitVec.ofNat 8 d) :: ds := by
  induction v using Nat.strongRecOn with
  | ind v ih =>
    obtain hlt | hge := Nat.lt_or_ge v 10
    · exact ⟨v, [], h, hlt, decimal_of_lt hlt⟩
    · obtain ⟨d, ds, hpos, hd, heq⟩ := ih (v / 10) (by omega) (by omega) (by omega)
      exact ⟨d, _, hpos, hd, by rw [decimal_of_ge hge hv, heq, List.cons_append]⟩

theorem decimal_ne_nil {v : Nat} (hv : v < 10 ^ 5) : decimal v ≠ [] := by
  obtain rfl | hpos := Nat.eq_zero_or_pos v
  · exact List.cons_ne_nil _ _
  · obtain ⟨d, ds, -, -, heq⟩ := decimal_leading hpos hv
    rw [heq]
    exact List.cons_ne_nil _ _

/-- R162: only the number 0 has a text that begins with the digit 0. -/
theorem decimal_head?_ne_digit0 {v : Nat} (h : 0 < v) (hv : v < 10 ^ 5) : (decimal v).head? ≠ some digit0 := by
  obtain ⟨d, ds, hpos, hd, heq⟩ := decimal_leading h hv
  rw [heq, List.head?_cons]
  intro heq0
  have hcode := congrArg BitVec.toNat (Option.some.inj heq0)
  simp only [digit0, BitVec.toNat_add, BitVec.toNat_ofNat] at hcode
  omega

/-- Settles O55: one step of `decimalAux` for each of the two equations, and the fuel bounds the length. -/
theorem decimalDigits : Obligations.DecimalDigits := by
  intro v hv
  have hv5 : v < 10 ^ 5 := by omega
  exact ⟨decimal_of_lt, fun h => decimal_of_ge h hv5, List.length_pos_of_ne_nil (decimal_ne_nil hv5),
    decimal_length_le v, fun h => decimal_head?_ne_digit0 (by omega) hv5⟩

/-! ## The result buffer -/

theorem vector5_getElem? {α : Type} (f : Nat → α) {i : Nat} (h : i < 5) :
    #v[f 0, f 1, f 2, f 3, f 4][i]? = some (f i) := by
  interval_cases i <;> rfl

theorem storeDecimal_RLEN (v : Word) (s : State) : (storeDecimal v s).RLEN.toNat = (decimal v.toNat).length := by
  have hlen := decimal_length_le v.toNat
  exact Nat.mod_eq_of_lt (by omega)

/-- R163: below RLEN the result buffer holds the text. -/
theorem storeDecimal_RBUF {v : Word} (s : State) {i : Nat} (h : i < (decimal v.toNat).length) :
    (storeDecimal v s).RBUF[i]? = (decimal v.toNat)[i]? := by
  have hlen := decimal_length_le v.toNat
  refine (vector5_getElem? (fun i => (decimal v.toNat).getD i (Config.drawByte (s.draws + i))) (by omega)).trans ?_
  rw [List.getD_eq_getElem _ _ h, List.getElem?_eq_getElem h]

/-! ## The operations -/

/-- Settles O56: the one act of the operation stores the text. -/
theorem itoaWritesDecimal : Obligations.ItoaWritesDecimal := by
  intro value s hr
  set s1 := s.taken 0x08 3 { s.lat with VAL := value }
  have hsteps := (carries_itoa value s1).stepsTo (i := .itoa value) hr
  exact ⟨_, _, rfl, hsteps, storeDecimal_RLEN value s1, fun i hi => storeDecimal_RBUF s1 hi, rfl, rfl, rfl, rfl, rfl, rfl,
    rfl, rfl, rfl, rfl, rfl, fun _ _ _ => rfl, rfl, rfl, rfl, rfl, rfl⟩

/-- Settles O57: the one act of the operation sets the bit. -/
theorem reservedConsumed : Obligations.ReservedConsumed := by
  intro opcode s hr
  exact ⟨_, rfl, stepsTo_ended (acts := [.badCmd]) (fun rest => runs_badCmd (s.taken opcode 1 s.lat) rest) (by simp) hr⟩

end Sys2Proof.Machine
end

section
/-! SUPPORT and the settling of O17: no step faults or is refused (R170). -/

namespace Sys2Proof.Machine

/-- The idle sequencer always has a next state: the stream decoder reads host operations only, and `exec` of one is its
acceptance (R71, R72). -/
theorem fetchStep_next (s : State) : ∃ t, fetchStep s = .next t := by
  unfold fetchStep
  split
  · rename_i hd
    exact ⟨_, exec_host (decode_isHost hd) s⟩
  · exact ⟨_, rfl⟩
  · exact ⟨_, rfl⟩

/-- Settles O17: only an act of an operation in progress can stop the machine, and `act_flow` says that none does while what
is left to do keeps the bus discipline. -/
theorem noStepFaults : Obligations.NoStepFaults := by
  intro s hi
  cases hr : s.rst_n with
  | false => exact ⟨_, step_reset hr⟩
  | true =>
    cases hrun : s.RUN with
    | false => rw [step_idle hr hrun]; exact fetchStep_next s
    | true =>
      cases htodo : s.todo with
      | nil => exact ⟨_, step_ended hr hrun htodo⟩
      | cons a rest =>
        obtain ⟨t, ht, -⟩ := act_flow hi.pulse hi.exclusive (htodo ▸ hi.flow)
        exact ⟨t, (step_act hr hrun htodo).trans ht⟩

end Sys2Proof.Machine
end

section
/-! SUPPORT and the settling of O32: a busy-wait whose samples are all 1 does not end (R174, R178). -/

namespace Sys2Proof.Machine

/-- What polling has left of `s` once it has taken every sample at hand: the bus layer is still in its busy-wait, and nothing
of the chips or of the stream position has changed. -/
structure State.Unanswered (s t : State) : Prop where
  FSM : t.FSM = .busyPoll
  SP : t.SP = s.SP
  RUN : t.RUN = s.RUN
  db7 : t.db7 = []
  sampled : t.sampled = s.sampled + s.db7.length
  display : t.display = s.display

/-- From `s`, the acts `acts` lead to a sample for which no level is at hand any more. -/
def State.hangsIn (s : State) (acts : List Act) : Prop :=
  ∃ t rest, Runs (s.doing acts) (t.doing (.rd7 :: rest)) ∧ s.Unanswered t

/-- Acts that take no sample, consume no byte and leave the display alone may come before. -/
theorem State.hangsIn.after {s u : State} {xs ys : List Act} (h : Runs (s.doing xs) (u.doing ys)) (hSP : u.SP = s.SP)
    (hRUN : u.RUN = s.RUN) (hdb : u.db7 = s.db7) (hsampled : u.sampled = s.sampled) (hdisplay : u.display = s.display)
    (hu : u.hangsIn ys) : s.hangsIn xs := by
  obtain ⟨t, rest, hrun, ht⟩ := hu
  exact ⟨t, rest, h.trans hrun, ht.FSM, ht.SP.trans hSP, ht.RUN.trans hRUN, ht.db7, by rw [ht.sampled, hsampled, hdb],
    ht.display.trans hdisplay⟩

/-- R101, R174: polling goes on through every busy answer, one sample each, to the sample after the last of them. -/
theorem hangsIn_poll {s : State} (rest : List Act) (hdb : false ∉ s.db7) (hp : s.cfg.pulseValid = true)
    (hf : s.FSM = .busyPoll) (hd : s.pins.DBDIR = false) (ha : s.addressed ≠ .both) : s.hangsIn (.poll :: rest) := by
  generalize hl : s.db7 = l at hdb
  induction l generalizing s with
  | nil =>
    refine ⟨(s.line .E true).record (.delay .tE), rest,
      (runs_poll s rest).trans <| (runs_E_rise s _).trans (runs_delay _ _ .tE), hf, rfl, rfl, hl, ?_, rfl⟩
    rw [hl]; rfl
  | cons b l ih =>
    obtain ⟨rfl, hmem⟩ : b = true ∧ false ∉ l := by simpa using hdb
    have hl' : (pollOnce true s).db7 = l := congrArg List.tail hl
    obtain ⟨t, rest', hrun, ht⟩ := ih (s := pollOnce true s) hp hf hd ha hl' hmem
    refine ⟨t, rest', (runs_pollOnce hl hp hd ha).trans hrun, ht.FSM, ht.SP, ht.RUN, ht.db7, ?_, ht.display⟩
    calc t.sampled
      _ = s.sampled + 1 + l.length := hl' ▸ ht.sampled
      _ = s.sampled + s.db7.length := by rw [hl, List.length_cons]; omega

/-- R101: BUSYWAIT releases the bus and polls. -/
theorem hangsIn_busyWait {s : State} (rest : List Act) (hdb : false ∉ s.db7) (hp : s.cfg.pulseValid = true)
    (ha : s.addressed ≠ .both) : s.hangsIn (.busyWait :: rest) := by
  have enter := (runs_busyWait s rest).trans <| (runs_fsm _ _ _).trans <| (runs_dir _ _ _).trans <|
    (runs_RW _ _ _).trans (runs_RS _ _ _)
  exact .after enter rfl rfl rfl rfl rfl (hangsIn_poll _ hdb hp rfl rfl ha)

/-- Steps 1 and 2 of SELCHIP (R102). -/
theorem runs_chosen (s : State) (rest : List Act) (id : Byte) :
    Runs (s.doing (.selChip id :: rest)) ((chosen id s).doing (.busyWait :: .fsm .idle :: rest)) := by
  refine (runs_selChip s rest id).trans <| (runs_fsm _ _ _).trans <| (runs_CS1 _ _ _).trans <|
    (runs_CS2 _ _ _).trans ?_
  unfold assertBody
  by_cases h1 : id = 1#8
  · subst h1
    exact (runs_CS1 _ _ _).to (by simp [chosen, selEvents, State.line, State.record, Pins.set, State.doing])
  by_cases h2 : id = 2#8
  · subst h2
    exact (runs_CS2 _ _ _).to (by simp [chosen, selEvents, State.line, State.record, Pins.set, State.doing])
  · exact .of_eq (by simp [chosen, selEvents, State.line, State.record, Pins.set, State.doing, h1, h2])

theorem hangsIn_selChip {s : State} (rest : List Act) (id : Byte) (hdb : false ∉ s.db7) (hp : s.cfg.pulseValid = true) :
    s.hangsIn (.selChip id :: rest) :=
  .after (runs_chosen s rest id) rfl rfl rfl rfl rfl
    (hangsIn_busyWait (s := chosen id s) _ hdb hp (chosen_not_both id s))

theorem hangsIn_wcmd {s : State} (rest : List Act) (b : Byte) (hdb : false ∉ s.db7) (hp : s.cfg.pulseValid = true)
    (ha : s.addressed ≠ .both) : s.hangsIn (.wcmd b :: rest) :=
  .after (runs_wcmd s rest b) rfl rfl rfl rfl rfl (hangsIn_busyWait _ hdb hp ha)

theorem hangsIn_wdata {s : State} (rest : List Act) (b : Byte) (hdb : false ∉ s.db7) (hp : s.cfg.pulseValid = true)
    (ha : s.addressed ≠ .both) : s.hangsIn (.wdata b :: rest) :=
  .after (runs_wdata s rest b) rfl rfl rfl rfl rfl (hangsIn_busyWait _ hdb hp ha)

/-- An operation of two bytes whose one act hangs: accepted, the machine comes into its busy-wait, where it takes no byte of
the stream. -/
theorem exec_unanswered {i : Instr} {s : State} {opcode : Byte} {lat : Latches} {a : Act} (hr : s.rst_n = true)
    (he : exec i s = .next (s.accept opcode 2 lat [a])) (ha : Act.finish ∉ [a])
    (h : (s.taken opcode 2 lat).hangsIn [a, .finish]) :
    ∃ u t, exec i s = .next u ∧ u.stepsTo t ∧ t.RUN = true ∧ t.FSM = .busyPoll ∧ t.db7 = [] ∧ t.SP = s.SP + 2 ∧
      t.cmdReady = false ∧ t.todo.head? = some .rd7 ∧ t.sampled = s.sampled + s.db7.length ∧
      s.SameChip t .chip1 ∧ s.SameChip t .chip2 ∧ s.SameBytes t := by
  obtain ⟨t, rest, hrun, ht⟩ := h
  have hdisplay : (t.doing (.rd7 :: rest)).display = s.display := ht.display
  exact ⟨_, _, he, hrun.stepsTo hr rfl (accept_finishes s opcode 2 lat ha), ht.RUN, ht.FSM, ht.db7, ht.SP,
    Bool.and_false _, rfl, ht.sampled, same_of_display hdisplay⟩

/-- Settles O32: each of the three operations comes to a busy-wait before anything that a chip would act on, and hangs there.
That the polls leave the chips as before is log entry 18. -/
theorem busyPanelHangs : Obligations.BusyPanelHangs := by
  intro i b s hr hp hi hdb ha
  rcases hi with rfl | rfl | rfl
  · exact exec_unanswered hr rfl (by simp) (hangsIn_selChip _ b hdb hp)
  · exact exec_unanswered hr rfl (by simp) (hangsIn_wcmd _ b hdb hp ha)
  · exact exec_unanswered hr rfl (by simp) (hangsIn_wdata _ b hdb hp ha)

end Sys2Proof.Machine
end

section
/-! SUPPORT and the settling of O14: what a hardware reset while E is high leaves of the panel, bus state by bus state of
the race on the addressed chip (R193, U12). -/

namespace Sys2Proof.Machine

/-- Display data RAM that is as before reads as before. -/
theorem sameBytes_of_ram {s t : State} (h : t.ram = s.ram) : s.SameBytes t := fun k p l => by
  unfold State.ddram; rw [h]

/-- Display data RAM with one byte forgotten: that byte is unspecified, and every other reads as before. -/
theorem bytes_of_forget {s t : State} {k : ChipId} {page : BitVec 3} {lcol : BitVec 6}
    (h : t.ram = s.ram.forget (ddramKey k page lcol)) :
    s.BytesOutside t (fun j p l => j = k ∧ p = page ∧ l = lcol) ∧ t.ddram k page lcol = none := by
  have hread : ∀ j p l, t.ddram j p l = if j = k ∧ p = page ∧ l = lcol then none else s.ddram j p l := by
    intro j p l
    unfold State.ddram
    rw [h, Memory.read_forget]
    exact if_congr ddramKey_inj rfl rfl
  exact ⟨fun j p l hne => (hread j p l).trans (if_neg hne), (hread k page lcol).trans (if_pos ⟨rfl, rfl, rfl⟩)⟩

/-- Where the byte on the bus names nothing, the free value says which one thing of the chip the race reaches. -/
theorem raceAnyOn_panel (k : ChipId) (n d : Nat) (s : State) :
    let t := raceAnyOn k n { s with draws := d }
    let c := s.chip k
    t.ram = (if Config.drawRace n = .byte then s.ram.forget (ddramKey k (Config.drawPage n) (Config.drawCol n))
      else s.ram) ∧
    t.chip k =
      { X := if Config.drawRace n = .X then Config.drawPage n else c.X
        Y := if Config.drawRace n = .Y then some (Config.drawCol n) else c.Y
        Z := if Config.drawRace n = .Z then Config.drawLine n else c.Z
        ON := if Config.drawRace n = .ON then Config.drawOn n else c.ON
        BUSY := c.BUSY } := by
  have hk : State.chip { s with draws := d } k = s.chip k := by cases k <;> rfl
  simp [raceAnyOn, hk]

/-- With the panel reset line released, E high and chip `k` alone addressed, a hardware reset leaves of the panel what
the race on `k` leaves. -/
theorem hardReset_race {s : State} {k : ChipId} (hp : s.pins.RSTN = true) (ha : s.addressed = .one k)
    (he : s.pins.E = true) :
    (∀ j, (hardReset s).chip j = (raceOn k s).chip j) ∧ (hardReset s).ram = (raceOn k s).ram :=
  resetRace_one ha he ▸ hardReset_panel hp

/-- Settles O14: `raceOn_raced` for the other chip, and for the chip addressed the equation of `raceOn` for each of the
four states of the bus. -/
theorem hardwareResetRace : Obligations.HardwareResetRace := by
  intro s k hr hp ha he c n stored
  obtain ⟨hchip, hram⟩ := hardReset_race hp ha he
  refine ⟨hardReset s, step_reset hr, fun j hj => ?_, fun y hd hw hrs hy => ?_, fun hd hw hrs hy => ?_,
    fun command hd hw hrs hc => ?_, fun hany => ?_⟩
  · exact congrArg Chip.regs ((hchip j).trans ((raceOn_raced k s).others j hj))
  · obtain ⟨hforget, hk⟩ := raceOn_data hd hw hrs hy
    obtain ⟨houtside, hbyte⟩ := bytes_of_forget (hram.trans hforget)
    refine ⟨houtside, hbyte, ?_⟩
    rw [hchip, hk]
    cases Config.drawLatched s.draws
    · exact .inl rfl
    · exact .inr rfl
  · obtain ⟨hforget, hk⟩ := raceOn_dataUndefined hd hw hrs hy
    obtain ⟨houtside, hbyte⟩ := bytes_of_forget (hram.trans hforget)
    exact ⟨houtside, hbyte, congrArg Chip.regs ((hchip k).trans hk)⟩
  · obtain ⟨hsame, hk⟩ := raceOn_command hd hw hrs hc
    refine ⟨sameBytes_of_ram (hram.trans hsame), ?_⟩
    rw [hchip, hk]
    cases command <;> rfl
  · obtain ⟨hreach, hk⟩ := raceAnyOn_panel k s.draws (s.draws + 1) s
    rw [← raceOn_any hany, ← hram] at hreach
    rw [← raceOn_any hany, ← hchip] at hk
    cases hrace : Config.drawRace s.draws <;> simp only [hrace, if_true, if_false, reduceCtorEq] at hreach hk
    case nothing => exact ⟨sameBytes_of_ram hreach, congrArg Chip.regs hk⟩
    case byte =>
      obtain ⟨houtside, hbyte⟩ := bytes_of_forget hreach
      exact ⟨houtside, hbyte, congrArg Chip.regs hk⟩
    case X | Y | Z | ON =>
      refine ⟨sameBytes_of_ram hreach, ?_⟩
      rw [hk]
      rfl

end Sys2Proof.Machine
end

section
/-! SUPPORT and the settling of O54: INIT from its acceptance to its end (R160), and the launch state it leaves (R196). -/

namespace Sys2Proof.Machine

/-! ## Pins -/

theorem exitPins_RSTN (cfg : Config) (p : Pins) (es : List BusEntry) : (exitPins cfg p es).RSTN = p.RSTN := by
  induction es generalizing p with
  | nil => rfl
  | cons e es ih => cases e <;> exact ih _

/-- R100: the pin levels after a row whose last byte is `b`. -/
theorem exitPins_row (cfg : Config) (p : Pins) (n : Nat) (k : ChipId) (bytes : List Byte) (b : Byte) :
    exitPins cfg p (rowBus cfg n k (bytes ++ [b])) =
      { DBOUT := b, DBDIR := true, RS := true, RW := false, E := false
        CS1 := if k = .chip1 then cfg.csActive else !cfg.csActive
        CS2 := if k = .chip2 then cfg.csActive else !cfg.csActive
        RSTN := p.RSTN } := by
  have hlast : ∀ q : Pins, exitPins cfg q ((bytes ++ [b]).map .data) =
      { q with DBOUT := b, DBDIR := true, RS := true, RW := false, E := false } := by
    induction bytes with
    | nil => exact fun q => rfl
    | cons a bytes ih => exact fun q => ih _
  rw [rowBus, exitPins_append, hlast]
  simp [exitPins]

/-- The bus trace of CLEAR ends with page 7 of chip 2 (R140). -/
theorem clearBus_last (cfg : Config) :
    ∃ es, clearBus cfg = es ++ rowBus cfg 7 .chip2 (List.replicate 63 0x00 ++ [0x00]) := by
  have hrows : clearRows = clearRows.dropLast ++ [(7, .chip2)] := by decide
  have hlast : rowsBus cfg (List.replicate 64 0x00) [(7, .chip2)] =
      rowBus cfg 7 .chip2 (List.replicate 63 0x00 ++ [0x00]) := List.append_nil _
  refine ⟨rowsBus cfg (List.replicate 64 0x00) clearRows.dropLast, ?_⟩
  rw [clearBus_rows, hrows, ← hlast]
  exact List.flatMap_append

/-- The entries of INIT before CLEAR's (R160). -/
def initHeadBus (cfg : Config) : List BusEntry :=
  [.sel (some .chip1), .cmd cfg.displayOnCmd, .cmd cfg.startLineBase,
   .sel (some .chip2), .cmd cfg.displayOnCmd, .cmd cfg.startLineBase]

theorem initBus_eq (cfg : Config) : initBus cfg = initHeadBus cfg ++ clearBus cfg := rfl

/-- R196: the pin levels after INIT are those after CLEAR's last row. -/
theorem exitPins_initBus (cfg : Config) (p : Pins) : exitPins cfg p (initBus cfg) =
    { DBOUT := 0x00, DBDIR := true, RS := true, RW := false, E := false, CS1 := !cfg.csActive, CS2 := cfg.csActive
      RSTN := p.RSTN } := by
  obtain ⟨front, hlast⟩ := clearBus_last cfg
  rw [initBus_eq, hlast, exitPins_append, exitPins_append, exitPins_row, exitPins_RSTN, exitPins_RSTN]
  rfl

/-! ## Display on and start line 0 -/

/-- R47, R160: chip `k` takes display on and start line 0. -/
def State.switchedOn (s : State) (k : ChipId) : State := s.setChip k { s.chip k with ON := true, Z := 0 }

theorem commandOn_switchedOn {s : State} (hb : s.cfg.basesValid = true) (k : ChipId) :
    commandOn s.cfg.startLineBase k (commandOn s.cfg.displayOnCmd k s) = s.switchedOn k := by
  have hon : decodeCommand s.cfg s.cfg.displayOnCmd = some .displayOn := commandRoundTrip s.cfg .displayOn hb
  have hline : decodeCommand s.cfg s.cfg.startLineBase = some (.startLine 0) := by
    simpa [encodeCommand] using commandRoundTrip s.cfg (.startLine 0) hb
  rw [commandOn_decoded hon, commandOn_decoded (by rw [setChip_cfg]; exact hline)]
  cases k <;> rfl

/-- INIT's first entries switch both chips on; their cursors stay. -/
theorem displayEffect_initHead {s : State} (hb : s.cfg.basesValid = true) (k : Option ChipId) (j : ChipId) :
    ((displayEffect k (initHeadBus s.cfg) s).chip j).regs = ((s.chip j).X, (s.chip j).Y, 0, true) := by
  have h : displayEffect k (initHeadBus s.cfg) s = (s.switchedOn .chip1).switchedOn .chip2 := by
    rw [← commandOn_switchedOn hb, ← commandOn_switchedOn (s := commandOn _ _ _) (by simpa using hb)]
    simp [displayEffect, initHeadBus, receiver, BusEntry.on]
  rw [h]
  cases j <;> rfl

/-- R160, R196: the display effect of INIT's bus trace. -/
theorem displayEffect_init {s : State} (hb : s.cfg.basesValid = true) (k : Option ChipId) :
    let t := displayEffect k (initBus s.cfg) s
    (∀ j q l, t.ddram j q l = some 0x00) ∧ ∀ j, (t.chip j).regs = (7, s.cfg.colAfter63, 0, true) := by
  set lit := displayEffect k (initHeadBus s.cfg) s with hlit
  have hcfg : lit.cfg = s.cfg := displayEffect_cfg ..
  obtain ⟨hbytes, hregs⟩ := displayEffect_rows (bytes := List.replicate 64 0x00) (by simp) clearRows (by decide)
    (s := lit) (hcfg ▸ hb) (receiver k (initHeadBus s.cfg))
  rw [← clearBus_rows, hcfg] at hbytes hregs
  rw [initBus_eq, displayEffect_append, ← hlit]
  refine ⟨fun j q l => ?_, fun j => ?_⟩
  · rw [hbytes, if_pos (mem_clearRows q j), getElem?_row]
  · rw [hregs, hlit, displayEffect_initHead hb]
    cases j <;> rfl

/-! ## The operation -/

/-- A run after INIT's opening: the opening's events come first in the pin trace, and add nothing to the bus trace. -/
theorem events_opened {s t : State} {es : List PinEvent} (h : t.trace = es.reverse ++ (opened s).trace) :
    t.eventsSince s = openingEvents ++ es ∧ t.busSince s = busTrace s.cfg ⟨(opened s).pins, false⟩ es := by
  have hall : t.trace = (openingEvents ++ es).reverse ++ s.trace := by
    rw [h, List.reverse_append, List.append_assoc]; rfl
  obtain ⟨hbus, hscan⟩ := busTrace_opening s.cfg s.pins
  refine ⟨eventsSince_of_trace hall, ?_⟩
  rw [busSince_of_events hall, busTrace_append, hbus, hscan]
  rfl

/-- Settles O54: after its opening INIT is performed as any operation is, its bus trace switches the chips on and clears
them, and CLEAR's last row leaves the pins. -/
theorem initLaunchState : Obligations.InitLaunchState := by
  intro s hr hb h
  set s1 := s.taken 0x01 1 s.lat
  obtain ⟨t, p⟩ := loop_init (s := (opened s).taken 0x01 1 s.lat) h
  obtain ⟨-, hperf, hlat, hwork, hdiag⟩ := p.exec (by simp [initChip]) hr
  have hst : (s.accept 0x01 1 s.lat (actsOf s.cfg .init)).stepsTo t.ended := by
    refine stepsTo_ended (fun rest => ?_) (finish_not_mem_actsOf s.cfg .init) hr
    rw [actsOf, initBody, List.append_assoc]
    exact (runs_opening s1 _).trans (p.stretch.runs rest)
  obtain ⟨es, htrace, hbus, -⟩ := p.did.events
  obtain ⟨hevents, hsince⟩ := events_opened (s := s) (t := t.ended) htrace
  obtain ⟨hbytes, hregs⟩ := displayEffect_init (s := opened s) hb ((opened s).pins.selected s.cfg)
  obtain ⟨hRBUF, hRLEN⟩ := hperf.result
  refine ⟨_, t.ended, rfl, hst, hevents ▸ List.prefix_append _ _, hsince.trans hbus, hperf.run, hperf.todo, hperf.fsm,
    hperf.sp, hdiag, hperf.pins.trans (exitPins_initBus ..), fun k => ?_, fun k q l => ?_, hlat, hwork.sameText, hRBUF,
    hRLEN, hperf.cfg, hperf.stream⟩
  · exact (regs_chip hperf.display k).trans (hregs k)
  · exact (ddram_of_display hperf.display k q l).trans (hbytes k q l)

end Sys2Proof.Machine
end
